-- ==== Sys2Proof/Word.lean ====
section
/-! DEFINITION. The words of CORE's ports: six formats, each of its own width (R90, R91, R93, R94, R95, R96). -/

namespace Sys2Proof

/-- A byte of input, of the window, or of the sink (R23, R32). -/
abbrev Byte := BitVec 8

/-- The formats of spec/opcode_table.json (R107). -/
inductive Format where
  | cmd   -- host command word, 16 bits (R90)
  | sym   -- symbol word, 33 bits (R93)
  | llid  -- literal/length alphabet id, 9 bits (R94)
  | did   -- distance alphabet id, 5 bits (R95)
  | hdr   -- header field, 8 bits (R96)
  | sts   -- status word, 8 bits (R91)
deriving DecidableEq, Repr

/-- A word presented to CORE, in one of the formats. The XTRA field of an id (R98) is the only operand the
stream adds to an id; it stands beside the id, 5 bits wide for a length and 13 for a distance (log 8). -/
inductive PortWord where
  | cmd (w : BitVec 16)
  | sym (w : BitVec 33)
  | llid (id : BitVec 9) (xtra : BitVec 5)
  | did (id : BitVec 5) (xtra : BitVec 13)
  | hdr (w : BitVec 8)
  | sts (w : BitVec 8)
deriving DecidableEq, Repr

/-- The format a word is in. -/
def PortWord.format : PortWord → Format
  | .cmd _ => .cmd
  | .sym _ => .sym
  | .llid _ _ => .llid
  | .did _ _ => .did
  | .hdr _ => .hdr
  | .sts _ => .sts

end Sys2Proof
end

