-- ==== Sys2Proof/Config.lean ====
section
/-! DEFINITION. What an implementation fixes, and the free values of the spec. Every `opaque` here has no body:
no proof can know its value, so a claim holds whatever it is. -/

namespace Sys2Proof

/-- The sink's answer to a forwarded byte or a flush request (R70, R71). -/
inductive SinkAnswer where
  | ok
  | fail
deriving DecidableEq, Repr, Inhabited

/-- How far the open parameter CHUNK_MAX lies below 2^32 - 3 (D3): over this type CHUNK_MAX takes every value the
spec's constraint `1 <= CHUNK_MAX`, `CHUNK_MAX + 2 < 2^32` allows, and no other (log 4). -/
opaque Config.chunkMaxBelow : Fin 4294967293

/-- CHUNK_MAX, the capacity of the chunk buffer (R9, R25, D3). -/
def Config.chunkMax : Nat := 4294967293 - Config.chunkMaxBelow.val

/-- The sink's `n`-th free answer, under no law (U10; log 3). -/
opaque Config.sinkAnswer : Nat → SinkAnswer

/-- Free value of ISLAST between commands (R38, U8; log 6). -/
opaque Config.scratchIsLast : Nat → Bool

/-- Free content of a frequency slot at reset and between commands (R38, U8; log 5, log 6): draw, then slot of FL (0 to 286) or
of FD (287 to 316). -/
opaque Config.scratchFreq : Nat → Nat → BitVec 32

/-- Free content of a code-table slot's `bits` at reset and between commands (R38, U8; log 5, log 6). -/
opaque Config.scratchBits : Nat → Nat → BitVec 128

/-- Free content of a code-table slot's `len` at reset and between commands (R38, U8; log 5, log 6). -/
opaque Config.scratchLen : Nat → Nat → BitVec 8

/-- Free number of arena records at reset and between commands (R38, U8; log 5, log 6). -/
opaque Config.scratchNodes : Nat → Nat

/-- Free kind of an arena record at reset and between commands: true for a leaf (R38, U8; log 5, log 6). -/
opaque Config.scratchIsLeaf : Nat → Nat → Bool

/-- Free fields of an arena record at reset and between commands: draw, record, field (R38, U8; log 5, log 6). -/
opaque Config.scratchField : Nat → Nat → Nat → Nat

/-- Free content of the queue at reset and between commands (R38, U8; log 5, log 6). -/
opaque Config.scratchQueue : Nat → List Nat

/-- Free `bits` of the code of an id presented outside a block: draw, then slot of TL (0 to 286) or of TD (287 to 316) (U8;
log 8). -/
opaque Config.rowCodeBits : Nat → Nat → BitVec 128

/-- Free `len` of that code: over this type it takes every length a block can give a code, 0 to 45, and no other (R37, R97;
log 8). -/
opaque Config.rowCodeLen : Nat → Nat → Fin 46

/-- The unspecified point at which the `n`-th reset during a command abandons it (R311; log 13): how many of the command's
sink events were delivered before, counted up to all of them. -/
opaque Config.abandonPoint : Nat → Nat

/-- WCAP, the window capacity (R7). -/
def wCap : Nat := 32768
/-- LCAP, the lookahead capacity and the maximum match length (R7). -/
def lCap : Nat := 258
/-- MIN_MATCH (R7). -/
def minMatch : Nat := 3
/-- NLL, the size of the literal/length alphabet (R7). -/
def nLL : Nat := 287
/-- ND, the size of the distance alphabet (R7). -/
def nD : Nat := 30
/-- EOB, the end-of-block id (R7). -/
def eob : Nat := 256
/-- EOS, the end-of-stream id (R7). -/
def eos : Nat := 286
/-- WR_MAX, the largest bit count of one write (R7). -/
def wrMax : Nat := 128
/-- The capacity of the node space, `2 * 287 - 1` records (R60). -/
def nodeCap : Nat := 573

end Sys2Proof
end

