-- ==== Sys2Proof/Syntax.lean ====
section
/-! DEFINITION. The 74 rows of spec/opcode_table.json as one inductive type, one constructor per row (R107). -/

namespace Sys2Proof

/-- The rows of the opcode table. An `x` argument is the XTRA field that follows the id in the stream (R98, R99),
as wide as the row's extra-bit count (R192, R193). -/
inductive Instr where
  -- format CMD: the host commands (R100)
  | nop
  | push (b : BitVec 8)
  | endc
  | ends
  | flush
  | rderr
  -- format SYM: the legal symbol words (R93)
  | symLit (v : BitVec 8)
  | symEob
  | symEos
  | symPtr (d l : BitVec 16)
  -- format LLID: the literal/length alphabet (R94, R192)
  | llLiteral (v : BitVec 8)
  | llEob
  | llLen0
  | llLen1
  | llLen2
  | llLen3
  | llLen4
  | llLen5
  | llLen6
  | llLen7
  | llLen8 (x : BitVec 1)
  | llLen9 (x : BitVec 1)
  | llLen10 (x : BitVec 1)
  | llLen11 (x : BitVec 1)
  | llLen12 (x : BitVec 2)
  | llLen13 (x : BitVec 2)
  | llLen14 (x : BitVec 2)
  | llLen15 (x : BitVec 2)
  | llLen16 (x : BitVec 3)
  | llLen17 (x : BitVec 3)
  | llLen18 (x : BitVec 3)
  | llLen19 (x : BitVec 3)
  | llLen20 (x : BitVec 4)
  | llLen21 (x : BitVec 4)
  | llLen22 (x : BitVec 4)
  | llLen23 (x : BitVec 4)
  | llLen24 (x : BitVec 5)
  | llLen25 (x : BitVec 5)
  | llLen26 (x : BitVec 5)
  | llLen27 (x : BitVec 5)
  | llLen28
  | llEos
  -- format DID: the distance alphabet (R95, R193)
  | dDist0
  | dDist1
  | dDist2
  | dDist3
  | dDist4 (x : BitVec 1)
  | dDist5 (x : BitVec 1)
  | dDist6 (x : BitVec 2)
  | dDist7 (x : BitVec 2)
  | dDist8 (x : BitVec 3)
  | dDist9 (x : BitVec 3)
  | dDist10 (x : BitVec 4)
  | dDist11 (x : BitVec 4)
  | dDist12 (x : BitVec 5)
  | dDist13 (x : BitVec 5)
  | dDist14 (x : BitVec 6)
  | dDist15 (x : BitVec 6)
  | dDist16 (x : BitVec 7)
  | dDist17 (x : BitVec 7)
  | dDist18 (x : BitVec 8)
  | dDist19 (x : BitVec 8)
  | dDist20 (x : BitVec 9)
  | dDist21 (x : BitVec 9)
  | dDist22 (x : BitVec 10)
  | dDist23 (x : BitVec 10)
  | dDist24 (x : BitVec 11)
  | dDist25 (x : BitVec 11)
  | dDist26 (x : BitVec 12)
  | dDist27 (x : BitVec 12)
  | dDist28 (x : BitVec 13)
  | dDist29 (x : BitVec 13)
  -- format HDR: one code-length field of the block header (R96)
  | hdrField (l : BitVec 8)
  -- format STS: the status word, FIN, NBITS and FAULT (R91)
  | status (f : BitVec 1) (n c : BitVec 3)
deriving DecidableEq, Repr

/-- The format of a row. -/
def Instr.format : Instr → Format
  | .nop | .push _ | .endc | .ends | .flush | .rderr => .cmd
  | .symLit _ | .symEob | .symEos | .symPtr _ _ => .sym
  | .llLiteral _ | .llEob | .llEos => .llid
  | .llLen0 | .llLen1 | .llLen2 | .llLen3 | .llLen4 | .llLen5 | .llLen6 | .llLen7 | .llLen28 => .llid
  | .llLen8 _ | .llLen9 _ | .llLen10 _ | .llLen11 _ | .llLen12 _ | .llLen13 _ | .llLen14 _ | .llLen15 _ | .llLen16 _ | .llLen17 _ | .llLen18 _ | .llLen19 _ | .llLen20 _ | .llLen21 _ | .llLen22 _ | .llLen23 _ | .llLen24 _ | .llLen25 _ | .llLen26 _ | .llLen27 _ => .llid
  | .dDist0 | .dDist1 | .dDist2 | .dDist3 => .did
  | .dDist4 _ | .dDist5 _ | .dDist6 _ | .dDist7 _ | .dDist8 _ | .dDist9 _ | .dDist10 _ | .dDist11 _ | .dDist12 _ | .dDist13 _ | .dDist14 _ | .dDist15 _ | .dDist16 _ | .dDist17 _ | .dDist18 _ | .dDist19 _ | .dDist20 _ | .dDist21 _ | .dDist22 _ | .dDist23 _ | .dDist24 _ | .dDist25 _ | .dDist26 _ | .dDist27 _ | .dDist28 _ | .dDist29 _ => .did
  | .hdrField _ => .hdr
  | .status _ _ _ => .sts

/-- The length code `k` of a length row, with its XTRA field (R192). -/
def Instr.lengthCode? : Instr → Option (Nat × Nat)
  | .llLen0 => some (0, 0)
  | .llLen1 => some (1, 0)
  | .llLen2 => some (2, 0)
  | .llLen3 => some (3, 0)
  | .llLen4 => some (4, 0)
  | .llLen5 => some (5, 0)
  | .llLen6 => some (6, 0)
  | .llLen7 => some (7, 0)
  | .llLen8 x => some (8, x.toNat)
  | .llLen9 x => some (9, x.toNat)
  | .llLen10 x => some (10, x.toNat)
  | .llLen11 x => some (11, x.toNat)
  | .llLen12 x => some (12, x.toNat)
  | .llLen13 x => some (13, x.toNat)
  | .llLen14 x => some (14, x.toNat)
  | .llLen15 x => some (15, x.toNat)
  | .llLen16 x => some (16, x.toNat)
  | .llLen17 x => some (17, x.toNat)
  | .llLen18 x => some (18, x.toNat)
  | .llLen19 x => some (19, x.toNat)
  | .llLen20 x => some (20, x.toNat)
  | .llLen21 x => some (21, x.toNat)
  | .llLen22 x => some (22, x.toNat)
  | .llLen23 x => some (23, x.toNat)
  | .llLen24 x => some (24, x.toNat)
  | .llLen25 x => some (25, x.toNat)
  | .llLen26 x => some (26, x.toNat)
  | .llLen27 x => some (27, x.toNat)
  | .llLen28 => some (28, 0)
  | _ => none

/-- The distance code `k` of a distance row, with its XTRA field (R193). -/
def Instr.distanceCode? : Instr → Option (Nat × Nat)
  | .dDist0 => some (0, 0)
  | .dDist1 => some (1, 0)
  | .dDist2 => some (2, 0)
  | .dDist3 => some (3, 0)
  | .dDist4 x => some (4, x.toNat)
  | .dDist5 x => some (5, x.toNat)
  | .dDist6 x => some (6, x.toNat)
  | .dDist7 x => some (7, x.toNat)
  | .dDist8 x => some (8, x.toNat)
  | .dDist9 x => some (9, x.toNat)
  | .dDist10 x => some (10, x.toNat)
  | .dDist11 x => some (11, x.toNat)
  | .dDist12 x => some (12, x.toNat)
  | .dDist13 x => some (13, x.toNat)
  | .dDist14 x => some (14, x.toNat)
  | .dDist15 x => some (15, x.toNat)
  | .dDist16 x => some (16, x.toNat)
  | .dDist17 x => some (17, x.toNat)
  | .dDist18 x => some (18, x.toNat)
  | .dDist19 x => some (19, x.toNat)
  | .dDist20 x => some (20, x.toNat)
  | .dDist21 x => some (21, x.toNat)
  | .dDist22 x => some (22, x.toNat)
  | .dDist23 x => some (23, x.toNat)
  | .dDist24 x => some (24, x.toNat)
  | .dDist25 x => some (25, x.toNat)
  | .dDist26 x => some (26, x.toNat)
  | .dDist27 x => some (27, x.toNat)
  | .dDist28 x => some (28, x.toNat)
  | .dDist29 x => some (29, x.toNat)
  | _ => none

end Sys2Proof
end

