-- ==== Sys2Proof/WellFormed.lean ====
section
/-! DEFINITION. Which instructions the encodings admit beyond their fields' widths (R93, R102, R194). -/

namespace Sys2Proof

/-- A distance is 1 to 32768 and a length 3 to 258 (R92, R102). -/
def pointerInRange (d l : BitVec 16) : Bool :=
  decide (1 ≤ d.toNat ∧ d.toNat ≤ 32768 ∧ 3 ≤ l.toNat ∧ l.toNat ≤ 258)

/-- The well-formed instructions: a pointer within range (R102), and not offset 31 of length code 27, which is
length 258 and belongs to code 28 (R194). -/
def Instr.wellFormed : Instr → Bool
  | .symPtr d l => pointerInRange d l
  | .llLen27 x => decide (x.toNat ≠ 31)
  | _ => true

end Sys2Proof
end

