-- ==== Sys2Proof/Decode.lean ====
section
/-! DEFINITION. Decoding, total on every word of every format and rejecting by name; then the encoder, written from
the same tables (R90 to R96, R100 to R102); then the two functions that read a word of spec/opcode_table.json. -/

namespace Sys2Proof

/-- Why a word is no row of the opcode table. -/
inductive Reject where
  | reservedOp        -- CMD: op 0x6 to 0xF (R101)
  | reservedBits      -- CMD: rsv not zero (R101)
  | strayData         -- CMD: data not zero on an operation other than PUSH (R101)
  | reservedSymbol    -- SYM: an illegal symbol word (R102)
  | noSuchId          -- LLID 287 to 511, DID 30 and 31: the id does not exist (R94, R95)
  | extraOutOfRange   -- LLID, DID: an XTRA field the code does not have (R98), or offset 31 of length code 27 (R194)
  | reservedStatusBit -- STS: bit 6 is reserved and reads zero (R91)
deriving DecidableEq, Repr

/-- What decoding answers. -/
inductive Decoded where
  | instr (i : Instr)
  | reject (r : Reject)
deriving DecidableEq, Repr

/-- Format CMD (R90): `op` in bits 15:12, `rsv` in bits 11:8, `data` in bits 7:0; the map of R100, the illegal
words of R101. -/
def decodeCmd (w : BitVec 16) : Decoded :=
  let op := (w.extractLsb' 12 4).toNat
  let rsv := w.extractLsb' 8 4
  let data := w.extractLsb' 0 8
  if 6 ≤ op then .reject .reservedOp
  else if rsv ≠ 0 then .reject .reservedBits
  else if op = 1 then .instr (.push data)
  else if data ≠ 0 then .reject .strayData
  else if op = 0 then .instr .nop
  else if op = 2 then .instr .endc
  else if op = 3 then .instr .ends
  else if op = 4 then .instr .flush
  else .instr .rderr

/-- Format SYM (R93): `tag` in bit 32, `hi` in bits 31:16, `lo` in bits 15:0; reserved words are R102's. -/
def decodeSym (w : BitVec 33) : Decoded :=
  let hi := w.extractLsb' 16 16
  let lo := w.extractLsb' 0 16
  if w.getLsbD 32 then
    if 1 ≤ hi.toNat ∧ hi.toNat ≤ 32768 ∧ 3 ≤ lo.toNat ∧ lo.toNat ≤ 258 then .instr (.symPtr hi lo)
    else .reject .reservedSymbol
  else if hi ≠ 0 then .reject .reservedSymbol
  else if lo.toNat < 256 then .instr (.symLit (lo.setWidth 8))
  else if lo.toNat = 256 then .instr .symEob
  else if lo.toNat = 286 then .instr .symEos
  else .reject .reservedSymbol

/-- A length or distance row whose code has `n` extra bits: the XTRA field must fit them (R98). -/
def withExtra {m : Nat} (n : Nat) (x : BitVec m) (row : BitVec n → Instr) : Decoded :=
  if x.toNat < 2 ^ n then .instr (row (x.setWidth n)) else .reject .extraOutOfRange

/-- The length code `k` (R192, R194): offset 31 of code 27 is never used, length 258 is code 28. -/
def decodeLength (k : Nat) (x : BitVec 5) : Decoded :=
  match k with
  | 0 => withExtra 0 x (fun _ => .llLen0)
  | 1 => withExtra 0 x (fun _ => .llLen1)
  | 2 => withExtra 0 x (fun _ => .llLen2)
  | 3 => withExtra 0 x (fun _ => .llLen3)
  | 4 => withExtra 0 x (fun _ => .llLen4)
  | 5 => withExtra 0 x (fun _ => .llLen5)
  | 6 => withExtra 0 x (fun _ => .llLen6)
  | 7 => withExtra 0 x (fun _ => .llLen7)
  | 8 => withExtra 1 x .llLen8
  | 9 => withExtra 1 x .llLen9
  | 10 => withExtra 1 x .llLen10
  | 11 => withExtra 1 x .llLen11
  | 12 => withExtra 2 x .llLen12
  | 13 => withExtra 2 x .llLen13
  | 14 => withExtra 2 x .llLen14
  | 15 => withExtra 2 x .llLen15
  | 16 => withExtra 3 x .llLen16
  | 17 => withExtra 3 x .llLen17
  | 18 => withExtra 3 x .llLen18
  | 19 => withExtra 3 x .llLen19
  | 20 => withExtra 4 x .llLen20
  | 21 => withExtra 4 x .llLen21
  | 22 => withExtra 4 x .llLen22
  | 23 => withExtra 4 x .llLen23
  | 24 => withExtra 5 x .llLen24
  | 25 => withExtra 5 x .llLen25
  | 26 => withExtra 5 x .llLen26
  | 27 => if x.toNat = 31 then .reject .extraOutOfRange else withExtra 5 x .llLen27
  | 28 => withExtra 0 x (fun _ => .llLen28)
  | _ => .reject .noSuchId

/-- Format LLID (R94): ids 0 to 255 literal bytes, 256 end-of-block, 257 + k length code k, 286 end-of-stream. -/
def decodeLlid (id : BitVec 9) (x : BitVec 5) : Decoded :=
  if id.toNat < 256 then withExtra 0 x (fun _ => .llLiteral (id.setWidth 8))
  else if id.toNat = 256 then withExtra 0 x (fun _ => .llEob)
  else if id.toNat = 286 then withExtra 0 x (fun _ => .llEos)
  else decodeLength (id.toNat - 257) x

/-- Format DID (R95, R193). -/
def decodeDid (id : BitVec 5) (x : BitVec 13) : Decoded :=
  match id.toNat with
  | 0 => withExtra 0 x (fun _ => .dDist0)
  | 1 => withExtra 0 x (fun _ => .dDist1)
  | 2 => withExtra 0 x (fun _ => .dDist2)
  | 3 => withExtra 0 x (fun _ => .dDist3)
  | 4 => withExtra 1 x .dDist4
  | 5 => withExtra 1 x .dDist5
  | 6 => withExtra 2 x .dDist6
  | 7 => withExtra 2 x .dDist7
  | 8 => withExtra 3 x .dDist8
  | 9 => withExtra 3 x .dDist9
  | 10 => withExtra 4 x .dDist10
  | 11 => withExtra 4 x .dDist11
  | 12 => withExtra 5 x .dDist12
  | 13 => withExtra 5 x .dDist13
  | 14 => withExtra 6 x .dDist14
  | 15 => withExtra 6 x .dDist15
  | 16 => withExtra 7 x .dDist16
  | 17 => withExtra 7 x .dDist17
  | 18 => withExtra 8 x .dDist18
  | 19 => withExtra 8 x .dDist19
  | 20 => withExtra 9 x .dDist20
  | 21 => withExtra 9 x .dDist21
  | 22 => withExtra 10 x .dDist22
  | 23 => withExtra 10 x .dDist23
  | 24 => withExtra 11 x .dDist24
  | 25 => withExtra 11 x .dDist25
  | 26 => withExtra 12 x .dDist26
  | 27 => withExtra 12 x .dDist27
  | 28 => withExtra 13 x .dDist28
  | 29 => withExtra 13 x .dDist29
  | _ => .reject .noSuchId

/-- Format STS (R91): FIN in bit 7, bit 6 zero, NBITS in bits 5:3, FAULT in bits 2:0. -/
def decodeSts (w : BitVec 8) : Decoded :=
  if w.getLsbD 6 then .reject .reservedStatusBit
  else .instr (.status (w.extractLsb' 7 1) (w.extractLsb' 3 3) (w.extractLsb' 0 3))

/-- Decoding, total on every word. -/
def decode : PortWord → Decoded
  | .cmd w => decodeCmd w
  | .sym w => decodeSym w
  | .llid id x => decodeLlid id x
  | .did id x => decodeDid id x
  | .hdr w => .instr (.hdrField w)
  | .sts w => decodeSts w

/-- A symbol word from its fields (R93). -/
def symWord (tag : BitVec 1) (hi lo : BitVec 16) : BitVec 33 := tag ++ (hi ++ lo)

/-- The id of length code `k` with its XTRA field (R94). -/
def lengthWord {n : Nat} (k : Nat) (x : BitVec n) : PortWord := .llid (BitVec.ofNat 9 (257 + k)) (x.setWidth 5)

/-- The id of distance code `k` with its XTRA field (R95). -/
def distanceWord {n : Nat} (k : Nat) (x : BitVec n) : PortWord := .did (BitVec.ofNat 5 k) (x.setWidth 13)

/-- The word of an instruction. -/
def encode : Instr → PortWord
  | .nop => .cmd 0x0000
  | .push b => .cmd (0x10#8 ++ b)
  | .endc => .cmd 0x2000
  | .ends => .cmd 0x3000
  | .flush => .cmd 0x4000
  | .rderr => .cmd 0x5000
  | .symLit v => .sym (symWord 0 0 (v.setWidth 16))
  | .symEob => .sym (symWord 0 0 256)
  | .symEos => .sym (symWord 0 0 286)
  | .symPtr d l => .sym (symWord 1 d l)
  | .llLiteral v => .llid (v.setWidth 9) 0
  | .llEob => .llid 256 0
  | .llLen0 => lengthWord 0 0#0
  | .llLen1 => lengthWord 1 0#0
  | .llLen2 => lengthWord 2 0#0
  | .llLen3 => lengthWord 3 0#0
  | .llLen4 => lengthWord 4 0#0
  | .llLen5 => lengthWord 5 0#0
  | .llLen6 => lengthWord 6 0#0
  | .llLen7 => lengthWord 7 0#0
  | .llLen8 x => lengthWord 8 x
  | .llLen9 x => lengthWord 9 x
  | .llLen10 x => lengthWord 10 x
  | .llLen11 x => lengthWord 11 x
  | .llLen12 x => lengthWord 12 x
  | .llLen13 x => lengthWord 13 x
  | .llLen14 x => lengthWord 14 x
  | .llLen15 x => lengthWord 15 x
  | .llLen16 x => lengthWord 16 x
  | .llLen17 x => lengthWord 17 x
  | .llLen18 x => lengthWord 18 x
  | .llLen19 x => lengthWord 19 x
  | .llLen20 x => lengthWord 20 x
  | .llLen21 x => lengthWord 21 x
  | .llLen22 x => lengthWord 22 x
  | .llLen23 x => lengthWord 23 x
  | .llLen24 x => lengthWord 24 x
  | .llLen25 x => lengthWord 25 x
  | .llLen26 x => lengthWord 26 x
  | .llLen27 x => lengthWord 27 x
  | .llLen28 => lengthWord 28 0#0
  | .llEos => .llid 286 0
  | .dDist0 => distanceWord 0 0#0
  | .dDist1 => distanceWord 1 0#0
  | .dDist2 => distanceWord 2 0#0
  | .dDist3 => distanceWord 3 0#0
  | .dDist4 x => distanceWord 4 x
  | .dDist5 x => distanceWord 5 x
  | .dDist6 x => distanceWord 6 x
  | .dDist7 x => distanceWord 7 x
  | .dDist8 x => distanceWord 8 x
  | .dDist9 x => distanceWord 9 x
  | .dDist10 x => distanceWord 10 x
  | .dDist11 x => distanceWord 11 x
  | .dDist12 x => distanceWord 12 x
  | .dDist13 x => distanceWord 13 x
  | .dDist14 x => distanceWord 14 x
  | .dDist15 x => distanceWord 15 x
  | .dDist16 x => distanceWord 16 x
  | .dDist17 x => distanceWord 17 x
  | .dDist18 x => distanceWord 18 x
  | .dDist19 x => distanceWord 19 x
  | .dDist20 x => distanceWord 20 x
  | .dDist21 x => distanceWord 21 x
  | .dDist22 x => distanceWord 22 x
  | .dDist23 x => distanceWord 23 x
  | .dDist24 x => distanceWord 24 x
  | .dDist25 x => distanceWord 25 x
  | .dDist26 x => distanceWord 26 x
  | .dDist27 x => distanceWord 27 x
  | .dDist28 x => distanceWord 28 x
  | .dDist29 x => distanceWord 29 x
  | .hdrField l => .hdr l
  | .status f n c => .sts (f ++ (0#1 ++ (n ++ c)))

/-- Which format `nbits` bits of spec/opcode_table.json are in, with the operand bits the table does not give read
as zero. The table's widths are 16 (CMD), 33 (SYM), 9 (LLID), 5 (DID), 8 (HDR, STS); in whole bytes LLID shares 16
bits with CMD and DID shares 8 bits with HDR and STS. Where a width is shared a word is read as the row that could
be nothing else: a legal command before an id; an existing distance id, then a word with STATUS's reserved bit 6
zero, then a header field (log 11). -/
def tableWord (nbits w : Nat) : PortWord :=
  if nbits = 33 ∨ nbits = 40 then .sym (BitVec.ofNat 33 w)
  else if nbits = 9 then .llid (BitVec.ofNat 9 w) 0
  else if nbits = 5 then .did (BitVec.ofNat 5 w) 0
  else if nbits = 8 then
    if w < 30 then .did (BitVec.ofNat 5 w) 0
    else if w.testBit 6 then .hdr (BitVec.ofNat 8 w) else .sts (BitVec.ofNat 8 w)
  else
    match decodeCmd (BitVec.ofNat 16 w) with
    | .instr _ => .cmd (BitVec.ofNat 16 w)
    | .reject _ => if w < 287 then .llid (BitVec.ofNat 9 w) 0 else .cmd (BitVec.ofNat 16 w)

/-- The instruction the decoder reads from a word of spec/opcode_table.json. -/
def decodeTableWord (nbits w : Nat) : Option Instr :=
  match decode (tableWord nbits w) with
  | .instr i => some i
  | .reject _ => none

end Sys2Proof
end

