-- ==== Sys2Proof/Machine/State.lean ====
section
/-! DEFINITION. The state of CORE as plain data (10_state.md R20 to R41), its updates, and the state after reset. -/

namespace Sys2Proof.Machine

/-- A symbol (R92): a literal value, or a pointer's distance and length, each a 16-bit count. It is held in `SB` as
the 33-bit word of R93, which is this type's two alternatives. -/
inductive Symbol where
  | lit (v : BitVec 16)
  | ptr (distance length : BitVec 16)
deriving DecidableEq, Repr, Inhabited

/-- A Huffman code `(bits, len)` (R30): `bits` of PATH_W = 128 bits, `len` of LEN_W = 8 bits. -/
structure Code where
  bits : BitVec 128
  len : BitVec 8
deriving DecidableEq, Repr, Inhabited

/-- A node record of the arena (R29): `kind` is the constructor; weights have FREQ_W + 1 = 33 bits; `left` and
`right` are arena indices. -/
inductive Node where
  | leaf (sym : Nat) (weight : BitVec 33) (seq : Nat)
  | internal (left right : Nat) (weight : BitVec 33) (seq : Nat)
deriving DecidableEq, Repr, Inhabited

/-- An event of the sink log `OUT` (R32). -/
inductive SinkEvent where
  | byte (b : Byte)
  | flushMark
deriving DecidableEq, Repr

/-- The fault codes of R281. `fOpen` is the code CORE never raises (R283); codes 6 and 7 are never produced (U12). -/
inductive FaultCode where
  | fNone
  | fRead
  | fWrite
  | fOpen
  | fCmd
  | fRange
deriving DecidableEq, Repr

/-- The sequencer register PHASE (R22). -/
inductive Phase where
  | idle
  | matching
  | count
  | build
  | header
  | emit
  | flushing
  | halt
deriving DecidableEq, Repr

/-- What the host sends: a word in one of the formats; an assertion of `rst` while CORE waits for one (R250, R310); or a
word with `rst` asserted while CORE is still working on it (R311, R318; log 13). -/
inductive HostInput where
  | word (w : PortWord)
  | rst
  | cut (w : PortWord)
deriving DecidableEq, Repr

/-- The state of the matcher unit (R130): window, lookahead, chunk buffer with its cursor, symbol buffer. -/
structure Matcher where
  /-- `W`, oldest byte first (R23). -/
  w : List Byte
  /-- `LA`, the head first (R24). -/
  la : List Byte
  /-- `CB` (R25). -/
  cb : List Byte
  /-- `CPOS`, the index of the next byte the refill takes (R25). -/
  cpos : Nat
  /-- `SB` (R26). -/
  sb : List Symbol
deriving DecidableEq, Repr

/-- The state of the Huffman builder and the block encoder (R27 to R30, R190). -/
structure Encoder where
  /-- `ISLAST` (R27). -/
  isLast : Bool
  /-- `FL[0..286]` (R28). -/
  fl : List (BitVec 32)
  /-- `FD[0..29]` (R28). -/
  fd : List (BitVec 32)
  /-- `NODE` (R29). -/
  node : List Node
  /-- `PQ`, arena indices, smallest key first (R29, R162). -/
  pq : List Nat
  /-- `TL[0..286]` (R30). -/
  tl : List Code
  /-- `TD[0..29]` (R30). -/
  td : List Code
  /-- The model's own counter of free scratch values (log 5, log 6). -/
  draws : Nat
deriving DecidableEq, Repr

/-- The state of the bit-level writer (R31), the sink log (R32), and the sink's coming answers (log 3). -/
structure Writer where
  /-- `PEND`, the bit appended first at the head (R31). -/
  pend : List Bool
  /-- `OUT`, oldest event first (R32). -/
  out : List SinkEvent
  /-- The model's own: the answers the sink is going to give, next one first (R70, R71, U10). -/
  answers : List SinkAnswer
  /-- The model's own counter of free sink answers, used when `answers` is empty. -/
  draws : Nat
deriving DecidableEq, Repr

/-- The complete state of R20, and the model's own inputs and records (INVENTORY.md, '## State'). -/
structure State where
  /-- `W`, `LA`, `CB`, `CPOS`, `SB`. -/
  matcher : Matcher
  /-- `ISLAST`, `FL`, `FD`, `NODE`, `PQ`, `TL`, `TD`. -/
  encoder : Encoder
  /-- `PEND`, `OUT`. -/
  writer : Writer
  /-- `FAULT` (R33). -/
  fault : FaultCode
  /-- `FIN` (R34). -/
  fin : Bool
  /-- `PHASE` (R22). -/
  phase : Phase
  /-- The model's own: what the host has presented and CORE has not accepted yet, oldest first (R250; log 2). -/
  inbox : List HostInput
  /-- The model's own record, outside CORE: the STATUS words the host has sampled, oldest first (R35; log 10). -/
  samples : List (BitVec 8)
  /-- The model's own record, outside CORE: the events delivered to the sink before the last `rst`, which "stay
  delivered" while OUT starts empty (R311; log 13). -/
  earlier : List SinkEvent
  /-- The model's own counter of the commands `rst` has cut short (R311; log 13). -/
  cuts : Nat
deriving DecidableEq, Repr

/-- Why the machine stops with a fault. FAULT is a register of the state and not one of these: raising it is a next
state (R284). -/
inductive Fault where
  /-- Raised by `step` alone: a word is waiting and PHASE is inside a command, so `cmd_ready` is not held (R90). No
  command leaves such a state (R22, R251) and the model does not resume inside a command. Safe: the model stops where
  the hardware would go on (log 1). -/
  | midCommand
deriving DecidableEq, Repr

/-- Why an instruction has no meaning. -/
inductive Refusal where
  /-- Raised by an arm of `exec` for a row that has no meaning yet. Safe: nothing can be proved of a run that stops.
  No arm raises it now. -/
  | notModelled (mnemonic : String)
deriving DecidableEq, Repr

/-- The code of a fault in the 3-bit register FAULT (R281). -/
def FaultCode.code : FaultCode → BitVec 3
  | .fNone => 0
  | .fRead => 1
  | .fWrite => 2
  | .fOpen => 3
  | .fCmd => 4
  | .fRange => 5

/-! The updates of the state: one per field that some operation writes. -/

def State.setMatcher (s : State) (m : Matcher) : State := { s with matcher := m }
def State.setEncoder (s : State) (e : Encoder) : State := { s with encoder := e }
def State.setWriter (s : State) (w : Writer) : State := { s with writer := w }
def State.setFault (s : State) (c : FaultCode) : State := { s with fault := c }
def State.setFin (s : State) (b : Bool) : State := { s with fin := b }
def State.setPhase (s : State) (p : Phase) : State := { s with phase := p }
def State.setInbox (s : State) (i : List HostInput) : State := { s with inbox := i }
def State.setSamples (s : State) (l : List (BitVec 8)) : State := { s with samples := l }
def State.setEarlier (s : State) (l : List SinkEvent) : State := { s with earlier := l }
def State.setCuts (s : State) (n : Nat) : State := { s with cuts := n }

def Matcher.setW (m : Matcher) (w : List Byte) : Matcher := { m with w := w }
def Matcher.setLa (m : Matcher) (la : List Byte) : Matcher := { m with la := la }
def Matcher.setCb (m : Matcher) (cb : List Byte) : Matcher := { m with cb := cb }
def Matcher.setCpos (m : Matcher) (n : Nat) : Matcher := { m with cpos := n }
def Matcher.setSb (m : Matcher) (sb : List Symbol) : Matcher := { m with sb := sb }

def Encoder.setIsLast (e : Encoder) (b : Bool) : Encoder := { e with isLast := b }
def Encoder.setFl (e : Encoder) (t : List (BitVec 32)) : Encoder := { e with fl := t }
def Encoder.setFd (e : Encoder) (t : List (BitVec 32)) : Encoder := { e with fd := t }
def Encoder.setNode (e : Encoder) (n : List Node) : Encoder := { e with node := n }
def Encoder.setPq (e : Encoder) (q : List Nat) : Encoder := { e with pq := q }
def Encoder.setTl (e : Encoder) (t : List Code) : Encoder := { e with tl := t }
def Encoder.setTd (e : Encoder) (t : List Code) : Encoder := { e with td := t }
def Encoder.setDraws (e : Encoder) (n : Nat) : Encoder := { e with draws := n }

def Writer.setPend (w : Writer) (p : List Bool) : Writer := { w with pend := p }
def Writer.setOut (w : Writer) (o : List SinkEvent) : Writer := { w with out := o }
def Writer.setAnswers (w : Writer) (a : List SinkAnswer) : Writer := { w with answers := a }
def Writer.setDraws (w : Writer) (n : Nat) : Writer := { w with draws := n }

/-! ### Scratch that has no specified value (R38, R41, U8; log 5, log 6) -/

/-- A free arena record: draw, record. -/
def freeNode (n i : Nat) : Node :=
  if Config.scratchIsLeaf n i then
    .leaf (Config.scratchField n i 0) (BitVec.ofNat 33 (Config.scratchField n i 1)) (Config.scratchField n i 2)
  else
    .internal (Config.scratchField n i 3) (Config.scratchField n i 4) (BitVec.ofNat 33 (Config.scratchField n i 1))
      (Config.scratchField n i 2)

/-- A free code-table slot: draw, slot. -/
def freeCode (n i : Nat) : Code := ⟨Config.scratchBits n i, Config.scratchLen n i⟩

/-- The encoder with every table, the arena and the queue a free value of its shape, the `n`-th such draw. -/
def freeScratch (isLast : Bool) (n : Nat) : Encoder where
  isLast := isLast
  fl := (List.range nLL).map (Config.scratchFreq n)
  fd := (List.range nD).map (fun i => Config.scratchFreq n (nLL + i))
  node := (List.range (min (Config.scratchNodes n) nodeCap)).map (freeNode n)
  pq := Config.scratchQueue n
  tl := (List.range nLL).map (freeCode n)
  td := (List.range nD).map (fun i => freeCode n (nLL + i))
  draws := n + 1

/-- The state after reset (R41). The scratch tables are unspecified there, "any value" (U8): free values (log 5); the
model's own fields start empty and zero (log 2, log 3, log 10, log 13). -/
def State.reset : State where
  matcher := { w := [], la := [], cb := [], cpos := 0, sb := [] }
  encoder := freeScratch false 0
  writer := { pend := [], out := [], answers := [], draws := 0 }
  fault := .fNone
  fin := false
  phase := .idle
  inbox := []
  samples := []
  earlier := []
  cuts := 0

end Sys2Proof.Machine
end

