-- ==== Sys2Proof/Machine/Ops.lean ====
section
/-! DEFINITION. The named operations over the state: the window and sink primitives (R66, R67, R70, R71), running an
operation that may raise a fault, taking the fault (R284), accepting a command (R252, R253), and reset (R310). -/

namespace Sys2Proof.Machine

/-! ### Operations that may raise a fault -/

/-- An operation either completes, or executes `raise code` and ends at that point, leaving what it had written
(R12, R284). -/
inductive Res (α : Type) where
  | ok (a : α)
  | stop (code : FaultCode) (a : α)
deriving DecidableEq, Repr

/-- The next operation runs only if this one completed (R284: "no later statement ... runs"). -/
def Res.andThen {α : Type} (r : Res α) (f : α → Res α) : Res α :=
  match r with
  | .ok a => f a
  | .stop c a => .stop c a

/-- The result of an operation on a part of the state, as a result on the whole. -/
def Res.map {α β : Type} (r : Res α) (f : α → β) : Res β :=
  match r with
  | .ok a => .ok (f a)
  | .stop c a => .stop c (f a)

/-- What the operation left, whether it completed or not. -/
def Res.state {α : Type} : Res α → α
  | .ok a => a
  | .stop _ a => a

/-- `raise code`, the fault entry (R284): FAULT <- code and PHASE <- HALT if FAULT = 0; all other state keeps its
value; nothing is saved and control goes nowhere. There is no return from it (R291). -/
def raise (c : FaultCode) (s : State) : State :=
  if s.fault = .fNone then (s.setFault c).setPhase .halt else s

/-- The state a command ends in: it completed, or it faulted. -/
def Res.settled (r : Res State) : State :=
  match r with
  | .ok s => s
  | .stop c s => raise c s

/-- The end of a command. Either way the machine has a next state (R251, R260). -/
def settle (r : Res State) : Host.Outcome State Fault Refusal := .next r.settled

/-! ### Accepting a command -/

/-- Command admission for a legal word (R252, R253): a faulted CORE discards it; with FIN = 1 only the commands
marked `whenFinished` are accepted, any other raises F_CMD; else the command's own rule runs. -/
def command (whenFinished : Bool) (body : State → Res State) (s : State) : Host.Outcome State Fault Refusal :=
  if s.fault ≠ .fNone then .next s
  else if s.fin && !whenFinished then settle (.stop .fCmd s)
  else settle (body s)

/-- A unit operation presented by itself: a faulted CORE executes nothing (R284); FIN is a matter of commands only
(R253; log 19). -/
def unitOp (body : State → Res State) (s : State) : Host.Outcome State Fault Refusal :=
  if s.fault ≠ .fNone then .next s else settle (body s)

/-- The fault a rejected word raises: F_CMD for an illegal command word (R101), F_RANGE for an operand outside a
unit's domain (R12, R102, R287; log 12), none for a status word, which is an output and has no effect (R35). -/
def Reject.fault? : Reject → Option FaultCode
  | .reservedOp | .reservedBits | .strayData => some .fCmd
  | .reservedSymbol | .noSuchId | .extraOutOfRange => some .fRange
  | .reservedStatusBit => none

/-- A word the decoder rejects: discarded by a faulted CORE (R252), else refused with its fault (R101, R102). -/
def refuseWord (r : Reject) (s : State) : Host.Outcome State Fault Refusal :=
  match Reject.fault? r with
  | none => .next s
  | some c => unitOp (fun s => .stop c s) s

/-- `rst` (R310, R311): every element to its reset value; pending bits and staged bytes are dropped, nothing is
flushed, OUT starts empty, and the bytes already delivered stay delivered. What the host and the sink are still going to
send, the records and the counters are outside CORE and stay (log 13, log 17). -/
def applyReset (s : State) : State :=
  { State.reset with
    inbox := s.inbox
    samples := s.samples
    earlier := s.earlier ++ s.writer.out
    cuts := s.cuts
    writer := (State.reset.writer.setAnswers s.writer.answers).setDraws s.writer.draws
    encoder := freeScratch false s.encoder.draws }

/-- The writer after the first `n` of these sink events: each of them used one answer of the sink (R70, R71). -/
def Writer.delivered (w : Writer) (n : Nat) (made : List SinkEvent) : Writer :=
  ((w.setOut (w.out ++ made.take n)).setAnswers (w.answers.drop n)).setDraws (w.draws + (n - w.answers.length))

/-- `rst` during a command (R311): the command is abandoned at an unspecified point, a free value. `s` is the state before
the command and `whole` what the whole of it would leave; the events up to that point were delivered and stay delivered,
and everything else is reset (log 13). -/
def abandon (s whole : State) : State :=
  let made := whole.writer.out.drop s.writer.out.length
  let n := min (Config.abandonPoint s.cuts) made.length
  applyReset ((whole.setWriter (s.writer.delivered n made)).setCuts (s.cuts + 1))

/-! ### The window (R66, R67) -/

/-- `WinRead(i)`, for `i < |W|`; an index outside is never produced (R66; log 16). -/
def winRead (w : List Byte) (i : Nat) : Byte := w.getD i 0

/-- `WinAppend(bs)`: append, then evict the oldest bytes down to the capacity (R67). -/
def winAppend (w bs : List Byte) : List Byte :=
  let w' := w ++ bs
  w'.drop (w'.length - wCap)

/-! ### The sink (R70, R71) -/

/-- The sink's next answer: the oldest it is going to give, else a free value (U10; log 3). -/
def Writer.nextAnswer (w : Writer) : SinkAnswer :=
  match w.answers with
  | a :: _ => a
  | [] => Config.sinkAnswer w.draws

/-- The answer is used up. -/
def Writer.dropAnswer (w : Writer) : Writer :=
  match w.answers with
  | _ :: rest => w.setAnswers rest
  | [] => w.setDraws (w.draws + 1)

/-- An event offered to the sink: on `ok` it is appended to OUT, on `fail` OUT is unchanged and F_WRITE is raised
(R70, R71, R285). -/
def offer (ev : SinkEvent) (w : Writer) : Res Writer :=
  match w.nextAnswer with
  | .ok => .ok (w.dropAnswer.setOut (w.out ++ [ev]))
  | .fail => .stop .fWrite w.dropAnswer

/-- `SinkByte(b)` (R70). -/
def sinkByte (b : Byte) (w : Writer) : Res Writer := offer (.byte b) w

/-- `SinkFlush()` (R71). -/
def sinkFlush (w : Writer) : Res Writer := offer .flushMark w

/-- An operation of the writer, run on the whole state. -/
def onWriter (f : Writer → Res Writer) (s : State) : Res State := (f s.writer).map s.setWriter

end Sys2Proof.Machine
end

