-- ==== Sys2Proof/Machine/Flags.lean ====
section
/-! DEFINITION. The views of the state a host can sample: ACC and NBITS (R31), STATUS (R35), the `fault` level (R288),
`cmd_ready` (R90), OUTBYTES (R32). None is a separate element of state. CORE has no other flag (R36). -/

namespace Sys2Proof.Machine

/-- The value of a run of bits when the first has the given weight and each next one half of it (R69, R231). -/
def packBits : Nat → List Bool → Nat
  | _, [] => 0
  | weight, b :: bs => (if b then weight else 0) + packBits (weight / 2) bs

/-- Up to 8 bits as a byte: the first bit in bit 7, zeros below the last (R69, R231, R232). -/
def packByte (bits : List Bool) : Byte := BitVec.ofNat 8 (packBits 128 bits)

/-- `ACC`: the pending bits at the high end, the other bits zero (R31). -/
def State.acc (s : State) : BitVec 8 := packByte s.writer.pend

/-- `NBITS = |PEND|` (R31). -/
def State.nbits (s : State) : BitVec 3 := BitVec.ofNat 3 s.writer.pend.length

/-- `STATUS`: FIN in bit 7, bit 6 zero, NBITS in bits 5:3, FAULT in bits 2:0 (R35, R91). -/
def State.status (s : State) : BitVec 8 := BitVec.ofBool s.fin ++ (0#1 ++ (s.nbits ++ s.fault.code))

/-- The level output `fault`, equal to `FAULT != 0` (R288). -/
def State.faultOut (s : State) : Bool := decide (s.fault ≠ .fNone)

/-- CORE holds `cmd_ready` only in IDLE or HALT (R90). -/
def State.cmdReady (s : State) : Bool := decide (s.phase = .idle ∨ s.phase = .halt)

/-- The bytes of a sink log, its flush marks removed (R32). -/
def bytesOf : List SinkEvent → List Byte
  | [] => []
  | .byte b :: rest => b :: bytesOf rest
  | .flushMark :: rest => bytesOf rest

/-- `OUTBYTES` (R32). -/
def State.outBytes (s : State) : List Byte := bytesOf s.writer.out

end Sys2Proof.Machine
end

