-- ==== Sys2Proof/Machine/Writer.lean ====
section
/-! DEFINITION. The bit-level writer: `WR_WRITE` (R231) and `WR_FLUSH` (R232). -/

namespace Sys2Proof.Machine

/-- The `count` low-order bits of a value, bit `count - 1` first and bit 0 last (R68). -/
def msbFirst (bits : BitVec 128) : Nat → List Bool
  | 0 => []
  | n + 1 => bits.getLsbD n :: msbFirst bits n

/-- Append one bit to PEND; a full byte is forwarded at once (R231). -/
def pushBit (b : Bool) (w : Writer) : Res Writer :=
  let p := w.pend ++ [b]
  if p.length = 8 then sinkByte (packByte p) (w.setPend []) else .ok (w.setPend p)

/-- Append bits in order, stopping at the first byte the sink fails (R231). -/
def pushBits : List Bool → Writer → Res Writer
  | [], w => .ok w
  | b :: bs, w => (pushBit b w).andThen (pushBits bs)

/-- `WR_WRITE(bits, count)` (R231): the `count` low-order bits of `bits`; a count above WR_MAX is refused with F_RANGE. -/
def wrWrite (bits : BitVec 128) (count : Nat) (w : Writer) : Res Writer :=
  if count > wrMax then .stop .fRange w else pushBits (msbFirst bits count) w

/-- `WR_FLUSH` (R232): pad a partial byte with zero bits and forward it, then ask the sink to flush. PEND is emptied
before the byte is offered. -/
def wrFlush (w : Writer) : Res Writer :=
  (if w.pend.length > 0 then sinkByte (packByte w.pend) (w.setPend []) else .ok w).andThen sinkFlush

end Sys2Proof.Machine
end

