-- ==== Sys2Proof/Machine/Operands.lean ====
section
/-! DEFINITION. The operands of the stream: the four constant tables (R192, R193), the maps from a value to its code
(R194, R195), the extra bits (R98, R200), and writing one code with its extra bits (R97, R99). -/

namespace Sys2Proof.Machine

/-- `LEN_BASE[0..28]` (R192; values by D14, log 14). -/
def lenBase : List Nat :=
  [3, 4, 5, 6, 7, 8, 9, 10, 11, 13, 15, 17, 19, 23, 27, 31, 35, 43, 51, 59, 67, 83, 99, 115, 131, 163, 195,
   227, 258]

/-- `LEN_EXTRA[0..28]` (R192). -/
def lenExtra : List Nat :=
  [0, 0, 0, 0, 0, 0, 0, 0, 1, 1, 1, 1, 2, 2, 2, 2, 3, 3, 3, 3, 4, 4, 4, 4, 5, 5, 5, 5, 0]

/-- `DIST_BASE[0..29]` (R193; values by D14, log 14). -/
def distBase : List Nat :=
  [1, 2, 3, 4, 5, 7, 9, 13, 17, 25, 33, 49, 65, 97, 129, 193, 257, 385, 513, 769, 1025, 1537, 2049, 3073,
   4097, 6145, 8193, 12289, 16385, 24577]

/-- `DIST_EXTRA[0..29]` (R193). -/
def distExtra : List Nat :=
  [0, 0, 0, 0, 1, 1, 2, 2, 3, 3, 4, 4, 5, 5, 6, 6, 7, 7, 8, 8, 9, 9, 10, 10, 11, 11, 12, 12, 13, 13]

/-- The greatest index, counted from `k`, whose base is at most `v`; `best` if there is none ("a reverse linear — or
binary — search", R194; the tables increase, so the method cannot matter). -/
def greatestIndex (v : Nat) : List Nat → Nat → Nat → Nat
  | [], _, best => best
  | b :: bs, k, best => greatestIndex v bs (k + 1) (if b ≤ v then k else best)

/-- `LEN_MAP` (R194); `none` outside 3 to 258, which a unit refuses with F_RANGE (D29). -/
def lenMap (l : Nat) : Option Nat :=
  if 3 ≤ l ∧ l ≤ 258 then some (greatestIndex l lenBase 0 0) else none

/-- `DIST_MAP` (R195); `none` outside 1 to 32768 (D29). -/
def distMap (d : Nat) : Option Nat :=
  if 1 ≤ d ∧ d ≤ 32768 then some (greatestIndex d distBase 0 0) else none

/-- The extra bits of a value: its offset above the base of its code (R200). -/
def lenOffset (l k : Nat) : Nat := l - lenBase.getD k 0

/-- The extra bits of a distance (R200). -/
def distOffset (d k : Nat) : Nat := d - distBase.getD k 0

/-- The legal symbols (R102): a literal 0 to 256 or 286; a distance 1 to 32768 with a length 3 to 258. -/
def Symbol.legal : Symbol → Bool
  | .lit v => decide (v.toNat ≤ 256 ∨ v.toNat = 286)
  | .ptr d l => pointerInRange d l

/-- The slot of a code table; an id outside does not exist (R94, R95, U14; log 16). -/
def codeAt (t : List Code) (id : Nat) : Code := t.getD id ⟨0, 0⟩

/-- Write one Huffman code (R97). -/
def writeCode (c : Code) (w : Writer) : Res Writer := wrWrite c.bits c.len.toNat w

/-- Write an extra-bits field of `n` bits (R98). -/
def writeExtra (offset n : Nat) (w : Writer) : Res Writer := wrWrite (BitVec.ofNat 128 offset) n w

/-- The stream form of a literal (R99): its value is looked up as an id of the literal/length alphabet (C5). -/
def writeLiteral (tl : List Code) (v : Nat) (w : Writer) : Res Writer := writeCode (codeAt tl v) w

/-- A code and the extra-bits field of `n` bits that follows it (R99). -/
def writeCodeExtra (c : Code) (offset n : Nat) (w : Writer) : Res Writer := (writeCode c w).andThen (writeExtra offset n)

/-- Length code `k` and the length's extra bits (R99). -/
def writeLength (tl : List Code) (k offset : Nat) (w : Writer) : Res Writer :=
  writeCodeExtra (codeAt tl (257 + k)) offset (lenExtra.getD k 0) w

/-- Distance code `k` and the distance's extra bits (R99). -/
def writeDistance (td : List Code) (k offset : Nat) (w : Writer) : Res Writer :=
  writeCodeExtra (codeAt td k) offset (distExtra.getD k 0) w

/-- The largest code length and header value a block of CORE makes (R37, R103). -/
def lenBound : Nat := 45

/-- A length that a row presented by itself brings from outside a block: beyond the bound of R37 the row is refused with
F_RANGE before anything is written (U21, R287). The commands keep that bound and have no use of this check. -/
def withinBound (len : BitVec 8) (body : State → Res State) (s : State) : Res State :=
  if lenBound < len.toNat then .stop .fRange s else body s

/-! ### The code of an id presented by itself (log 8) -/

/-- The phases in which TL and TD hold the codes of the block and are read: ENC_HEADER reads every length, ENC_EMIT the slots
of the symbols it emits (R22, R30). In every other phase no block has written them, and they are not read (R30, R38, U8). -/
def State.holdsCodes (s : State) : Bool := decide (s.phase = .header ∨ s.phase = .emit)

/-- A code a block could have given an id, a free value: draw, slot (log 8). -/
def freeRowCode (n slot : Nat) : Code := ⟨Config.rowCodeBits n slot, BitVec.ofNat 8 (Config.rowCodeLen n slot).val⟩

/-- The code of a literal/length id: TL's where a block has written it, else a free value (R30, U8). -/
def State.llCode (s : State) (id : Nat) : Code :=
  if s.holdsCodes then codeAt s.encoder.tl id else freeRowCode s.encoder.draws id

/-- The code of distance id `k`: TD's where a block has written it, else a free value (R30, U8). -/
def State.dCode (s : State) (k : Nat) : Code :=
  if s.holdsCodes then codeAt s.encoder.td k else freeRowCode s.encoder.draws (nLL + k)

/-- The state once a code has been taken: a free one is a draw, and the counter of draws advances (log 18). -/
def State.drawn (s : State) : State :=
  if s.holdsCodes then s else s.setEncoder (s.encoder.setDraws (s.encoder.draws + 1))

end Sys2Proof.Machine
end

