-- ==== Sys2Proof/Machine/Huffman.lean ====
section
/-! DEFINITION. The Huffman tree builder and code generator (41_huffman_builder.md). -/

namespace Sys2Proof.Machine

/-- The weight of a node (R29). -/
def Node.weight : Node → BitVec 33
  | .leaf _ weight _ => weight
  | .internal _ _ weight _ => weight

/-- The tie-break number of a node (R163). -/
def Node.seq : Node → Nat
  | .leaf _ _ seq => seq
  | .internal _ _ _ seq => seq

/-- The record at an arena index; an index outside is never formed (log 16). -/
def nodeAt (node : List Node) (i : Nat) : Node := node.getD i default

/-- The queue order (R162): the smaller weight first, then the smaller `seq`. -/
def Node.before (a b : Node) : Bool :=
  decide (a.weight.toNat < b.weight.toNat ∨ (a.weight = b.weight ∧ a.seq < b.seq))

/-- The arena `NODE` with the queue `PQ` of its indices, kept smallest key first (R29, R162). -/
structure Arena where
  node : List Node
  pq : List Nat
deriving DecidableEq, Repr

/-- `PQ.insert(i)`, at its place in the order of R162. -/
def queueInsert (node : List Node) (i : Nat) : List Nat → List Nat
  | [] => [i]
  | j :: js => if Node.before (nodeAt node i) (nodeAt node j) then i :: j :: js else j :: queueInsert node i js

/-- `NODE.add` followed by `PQ.insert` of the new index (R161). -/
def Arena.add (a : Arena) (n : Node) : Arena :=
  { node := a.node ++ [n], pq := queueInsert (a.node ++ [n]) a.node.length a.pq }

/-- One leaf per id of nonzero frequency, in ascending id, `seq` the id (R161, R163). -/
def addLeaves : List (BitVec 32) → Nat → Arena → Arena
  | [], _, a => a
  | f :: fs, sym, a => addLeaves fs (sym + 1) (if f ≠ 0 then a.add (.leaf sym (f.setWidth 33) sym) else a)

/-- The leaves of a build; if every frequency is zero, one leaf for id 0 of weight 0 (R165). -/
def leaves (freqs : List (BitVec 32)) : Arena :=
  let a := addLeaves freqs 0 { node := [], pq := [] }
  if a.pq = [] then a.add (.leaf 0 0 0) else a

/-- The merges (R161): while two nodes are queued, the two smallest become the left and the right child (R164) of a
new node, the `k`-th with `seq = N + k` (R163). `fuel` bounds the merges; each takes one node off the queue. -/
def mergeAll (alphabet : Nat) : Nat → Nat → Arena → Arena
  | 0, _, a => a
  | fuel + 1, k, a =>
    match a.pq with
    | i :: j :: rest =>
      mergeAll alphabet fuel (k + 1)
        ({ a with pq := rest }.add
          (.internal i j ((nodeAt a.node i).weight + (nodeAt a.node j).weight) (alphabet + k)))
    | _ => a

/-- What a build leaves: the arena, the queue after the last `popmin`, and the root's index. -/
structure Tree where
  node : List Node
  pq : List Nat
  root : Nat
deriving DecidableEq, Repr

/-- `HUFF_BUILD(F, N)` (R161). -/
def huffBuild (freqs : List (BitVec 32)) (alphabet : Nat) : Tree :=
  let a := leaves freqs
  let b := mergeAll alphabet a.pq.length 0 a
  { node := b.node, pq := b.pq.tail, root := b.pq.headD 0 }

/-- `visit(i, path, depth)` (R166): a leaf records `(path, depth)`; the left branch leaves bit `depth` of the path
unset, the right branch sets it. `fuel` bounds the depth. -/
def visit (node : List Node) : Nat → Nat → BitVec 128 → Nat → List Code → List Code
  | 0, _, _, _, t => t
  | fuel + 1, i, path, depth, t =>
    match nodeAt node i with
    | .leaf sym _ _ => t.set sym ⟨path, BitVec.ofNat 8 depth⟩
    | .internal left right _ _ =>
      visit node fuel right (path ||| (1#128 <<< depth)) (depth + 1) (visit node fuel left path (depth + 1) t)

/-- `HUFF_WALK(root, N)` (R166): the codes are the tree's paths and nothing else (R167). -/
def huffWalk (node : List Node) (root alphabet : Nat) : List Code :=
  visit node node.length root 0 0 (List.replicate alphabet ⟨0, 0⟩)

/-- The code table of a frequency table: `HUFF_WALK(HUFF_BUILD(F, N), N)` (R202). -/
def codesOf (freqs : List (BitVec 32)) (alphabet : Nat) : List Code :=
  let t := huffBuild freqs alphabet
  huffWalk t.node t.root alphabet

end Sys2Proof.Machine
end

