-- ==== Sys2Proof/Machine/Matcher.lean ====
section
/-! DEFINITION. The LZ77 sliding-window matcher (40_lz77_matcher.md). -/

namespace Sys2Proof.Machine

/-- `SrcByte(i)`: the window, continued by the lookahead (R137). -/
def srcByte (w la : List Byte) (i : Nat) : Byte :=
  if i < w.length then winRead w i else la.getD (i - w.length) 0

/-- The inner loop of `MATCH_FIND` (R131): extend the match at `start` from length `len` while the bytes agree, bounded
by the lookahead and by 258. `fuel` bounds the turns; `|LA|` of them are enough. -/
def matchExtend (w la : List Byte) (start : Nat) : Nat → Nat → Nat
  | 0, len => len
  | fuel + 1, len =>
    if len < la.length ∧ len < lCap ∧ srcByte w la (start + len) = la.getD len 0 then
      matchExtend w la start fuel (len + 1)
    else len

/-- The length of the match at `start` (R131). -/
def matchLength (w la : List Byte) (start : Nat) : Nat := matchExtend w la start la.length 0

/-- The best match so far: `best_len` and `best_dist` (R131). -/
structure Best where
  len : Nat
  dist : Nat
deriving DecidableEq, Repr

/-- The outer loop of `MATCH_FIND` over the starts below `k`, most recent first (R131): only a strictly longer match
overwrites (R132); the loop ends early once the match takes the whole lookahead (R133). -/
def matchScan (w la : List Byte) : Nat → Best → Best
  | 0, best => best
  | start + 1, best =>
    let len := matchLength w la start
    let best' := if len > best.len then ⟨len, w.length - start⟩ else best
    if best'.len = la.length then best' else matchScan w la start best'

/-- `MATCH_FIND` (R131): the symbol for the head of the lookahead, and how many lookahead bytes it covers. -/
def matchFind (w la : List Byte) : Symbol × Nat :=
  let best := matchScan w la w.length ⟨0, 0⟩
  if best.len < minMatch then (.lit ((la.headD 0).setWidth 16), 1)
  else (.ptr (BitVec.ofNat 16 best.dist) (BitVec.ofNat 16 best.len), best.len)

/-- Refill (R135): the lookahead takes chunk bytes until it holds 258 or the chunk has no unread byte. -/
def refill (m : Matcher) : Matcher :=
  let n := min (lCap - m.la.length) (m.cb.length - m.cpos)
  (m.setLa (m.la ++ (m.cb.drop m.cpos).take n)).setCpos (m.cpos + n)

/-- What `MATCH_STEP` does once the lookahead is full (R134): classify its head, and move the classified bytes into the
window. -/
def classify (m : Matcher) : Matcher :=
  let r := matchFind m.w m.la
  { m with
    w := winAppend m.w (m.la.take r.2)
    la := m.la.drop r.2
    sb := m.sb ++ [r.1] }

/-- `MATCH_STEP` (R134). -/
def matchStep (m : Matcher) : Matcher := classify (refill m)

/-- The loop of `MATCH_CHUNK` (R136), while the lookahead or the chunk holds a byte. `fuel` bounds the turns; every
step consumes at least one byte. -/
def matchLoop : Nat → Matcher → Matcher
  | 0, m => m
  | fuel + 1, m => if m.la.length > 0 ∨ m.cpos < m.cb.length then matchLoop fuel (matchStep m) else m

/-- `MATCH_CHUNK` (R136): run the matcher over the whole chunk, then append the end-of-block sentinel. -/
def matchChunk (m : Matcher) : Matcher :=
  let m' := matchLoop (m.la.length + (m.cb.length - m.cpos)) m
  m'.setSb (m'.sb ++ [.lit (BitVec.ofNat 16 eob)])

end Sys2Proof.Machine
end

