-- ==== Sys2Proof/Machine/Encoder.lean ====
section
/-! DEFINITION. The block encoder and its code-length header (42_block_encoder.md). -/

namespace Sys2Proof.Machine

/-- One slot of a frequency table, incremented (R201). -/
def bump (t : List (BitVec 32)) (id : Nat) : List (BitVec 32) := t.set id (t.getD id 0 + 1)

/-- A legal symbol counted in the tables (R201): a literal's slot; a pointer's length-code and distance-code slots. -/
def countSymbol (sym : Symbol) (e : Encoder) : Encoder :=
  match sym with
  | .lit v => e.setFl (bump e.fl v.toNat)
  | .ptr d l =>
    (e.setFl (bump e.fl (257 + (lenMap l.toNat).getD 0))).setFd (bump e.fd ((distMap d.toNat).getD 0))

/-- The loop of `ENC_COUNT` (R201); an illegal symbol is refused with F_RANGE (R102). -/
def countLoop : List Symbol → Encoder → Res Encoder
  | [], e => .ok e
  | sym :: rest, e => if sym.legal then countLoop rest (countSymbol sym e) else .stop .fRange e

/-- `ENC_COUNT` (R201): clear both tables, count SB, and in the last block force the end-of-stream slot to 1. -/
def encCount (sb : List Symbol) (e : Encoder) : Res Encoder :=
  (countLoop sb ((e.setFl (List.replicate nLL 0)).setFd (List.replicate nD 0))).andThen fun e =>
    .ok (if e.isLast then e.setFl (e.fl.set eos 1) else e)

/-- `ENC_BUILD` (R202): the literal/length alphabet, then the distance alphabet, whose tree is the one the arena holds
afterwards (R171). -/
def encBuild (e : Encoder) : Encoder :=
  let t := huffBuild e.fd nD
  (((e.setTl (codesOf e.fl nLL)).setNode t.node).setPq t.pq).setTd (huffWalk t.node t.root nD)

/-- One code-length field (R96): the length, 8 bits. -/
def writeField (len : BitVec 8) (w : Writer) : Res Writer := wrWrite (len.setWidth 128) 8 w

/-- The code-length fields of a table, in order (R96, R203). -/
def writeLens : List Code → Writer → Res Writer
  | [], w => .ok w
  | c :: cs, w => (writeField c.len w).andThen (writeLens cs)

/-- `ENC_HEADER` (R203). -/
def encHeader (tl td : List Code) (w : Writer) : Res Writer := (writeLens tl w).andThen (writeLens td)

/-- The stream form of one symbol, written (R99, R204); a value outside its map's domain is refused (D29). -/
def writeSymbol (tl td : List Code) (sym : Symbol) (w : Writer) : Res Writer :=
  match sym with
  | .lit v => writeLiteral tl v.toNat w
  | .ptr d l =>
    match lenMap l.toNat, distMap d.toNat with
    | some kl, some kd =>
      (writeLength tl kl (lenOffset l.toNat kl) w).andThen (writeDistance td kd (distOffset d.toNat kd))
    | _, _ => .stop .fRange w

/-- The loop of `ENC_EMIT` (R204): each symbol leaves the front of SB and is then written. -/
def emitLoop : List Symbol → State → Res State
  | [], s => .ok s
  | sym :: rest, s =>
    (onWriter (writeSymbol s.encoder.tl s.encoder.td sym) (s.setMatcher (s.matcher.setSb rest))).andThen (emitLoop rest)

/-- `ENC_EMIT` (R204), and in the last block the end-of-stream code (R205). -/
def encEmit (s : State) : Res State :=
  (emitLoop s.matcher.sb s).andThen fun s =>
    if s.encoder.isLast then onWriter (writeLiteral s.encoder.tl eos) s else .ok s

/-- `ENC_BLOCK` (R206): count, build, header, emit, in that order (R191), each in its phase (R22). -/
def encBlock (s : State) : Res State :=
  ((encCount s.matcher.sb s.encoder).map (s.setPhase .count).setEncoder).andThen fun s =>
  (Res.ok ((s.setPhase .build).setEncoder (encBuild s.encoder))).andThen fun s =>
  (onWriter (encHeader s.encoder.tl s.encoder.td) (s.setPhase .header)).andThen fun s =>
  encEmit (s.setPhase .emit)

/-- Between commands ISLAST, the tables, the arena and the queue have no specified value (R38): each becomes a free value
of its shape (log 6). LA and SB keep the empty sequence R24 and R26 give them. -/
def releaseScratch (e : Encoder) : Encoder := freeScratch (Config.scratchIsLast e.draws) e.draws

/-- What `ENDC` and `ENDS` share (R256, R257): set ISLAST, clear the scratch of the matcher, match the chunk, encode the
block, then empty the chunk buffer; back to IDLE (R22). -/
def endChunk (last : Bool) (s : State) : Res State :=
  let m := ((s.matcher.setSb []).setLa []).setCpos 0
  (encBlock (((s.setPhase .matching).setEncoder (s.encoder.setIsLast last)).setMatcher (matchChunk m))).andThen fun s =>
    .ok (((s.setMatcher ((s.matcher.setCb []).setCpos 0)).setEncoder (releaseScratch s.encoder)).setPhase .idle)

end Sys2Proof.Machine
end

