-- ==== Sys2Proof/Machine/Commands.lean ====
section
/-! DEFINITION. The six host commands (44_commands.md). Each goes through admission (R252, R253). -/

namespace Sys2Proof.Machine

/-- `NOP` (R254): no state changes; it is accepted in every state. -/
def execNop (s : State) : Host.Outcome State Fault Refusal := command true .ok s

/-- `PUSH b` (R255): one input byte joins the chunk buffer; into a full buffer it is refused with F_RANGE. -/
def execPush (b : BitVec 8) (s : State) : Host.Outcome State Fault Refusal :=
  command false (fun s =>
    if s.matcher.cb.length = Config.chunkMax then .stop .fRange s
    else .ok (s.setMatcher (s.matcher.setCb (s.matcher.cb ++ [b])))) s

/-- `ENDC` (R256): end the chunk and encode it as a non-final block. -/
def execEndc (s : State) : Host.Outcome State Fault Refusal := command false (endChunk false) s

/-- `ENDS` (R257): end the chunk, encode it as the final block, then set FIN. -/
def execEnds (s : State) : Host.Outcome State Fault Refusal :=
  command false (fun s => (endChunk true s).andThen fun s => .ok (s.setFin true)) s

/-- `FLUSH` (R258): `WR_FLUSH`, through the phase FLUSHING and back to IDLE (R22). -/
def execFlush (s : State) : Host.Outcome State Fault Refusal :=
  command true (fun s => (onWriter wrFlush (s.setPhase .flushing)).andThen fun s => .ok (s.setPhase .idle)) s

/-- `RDERR` (R259): the host reports that reading the input failed: `raise F_READ`, and nothing else. -/
def execRderr (s : State) : Host.Outcome State Fault Refusal := command false (.stop .fRead) s

end Sys2Proof.Machine
end

