-- ==== Sys2Proof/Machine/DistanceIds.lean ====
section
/-! DEFINITION. The distance alphabet ids (R95, R193), each presented to the code writer as a unit: its stream form is
written, the code of the id and the extra bits of its distance (R97, R98, R99; log 8). -/

namespace Sys2Proof.Machine

/-- The stream form of distance code `k` with the offset `x` above its base (R99). TD is read only where a block has written
it; between commands and after reset the code is a free value, drawn afresh (R30, R38, U8; log 8). A code of more than 45 bits
is refused (U21). -/
def emitDistanceId (k x : Nat) (s : State) : Res State :=
  withinBound (s.dCode k).len (onWriter (writeCodeExtra (s.dCode k) x (distExtra.getD k 0))) s.drawn

/-- `D.DIST0`: id 0, distance 1, no extra bits (R193). -/
def execDDist0 (s : State) : Host.Outcome State Fault Refusal := unitOp (emitDistanceId 0 0) s

/-- `D.DIST1`: id 1, distance 2, no extra bits (R193). -/
def execDDist1 (s : State) : Host.Outcome State Fault Refusal := unitOp (emitDistanceId 1 0) s

/-- `D.DIST2`: id 2, distance 3, no extra bits (R193). -/
def execDDist2 (s : State) : Host.Outcome State Fault Refusal := unitOp (emitDistanceId 2 0) s

/-- `D.DIST3`: id 3, distance 4, no extra bits (R193). -/
def execDDist3 (s : State) : Host.Outcome State Fault Refusal := unitOp (emitDistanceId 3 0) s

/-- `D.DIST4`: id 4, distances 5 to 6, 1 extra bit (R193). -/
def execDDist4 (x : BitVec 1) (s : State) : Host.Outcome State Fault Refusal := unitOp (emitDistanceId 4 x.toNat) s

/-- `D.DIST5`: id 5, distances 7 to 8, 1 extra bit (R193). -/
def execDDist5 (x : BitVec 1) (s : State) : Host.Outcome State Fault Refusal := unitOp (emitDistanceId 5 x.toNat) s

/-- `D.DIST6`: id 6, distances 9 to 12, 2 extra bits (R193). -/
def execDDist6 (x : BitVec 2) (s : State) : Host.Outcome State Fault Refusal := unitOp (emitDistanceId 6 x.toNat) s

/-- `D.DIST7`: id 7, distances 13 to 16, 2 extra bits (R193). -/
def execDDist7 (x : BitVec 2) (s : State) : Host.Outcome State Fault Refusal := unitOp (emitDistanceId 7 x.toNat) s

/-- `D.DIST8`: id 8, distances 17 to 24, 3 extra bits (R193). -/
def execDDist8 (x : BitVec 3) (s : State) : Host.Outcome State Fault Refusal := unitOp (emitDistanceId 8 x.toNat) s

/-- `D.DIST9`: id 9, distances 25 to 32, 3 extra bits (R193). -/
def execDDist9 (x : BitVec 3) (s : State) : Host.Outcome State Fault Refusal := unitOp (emitDistanceId 9 x.toNat) s

/-- `D.DIST10`: id 10, distances 33 to 48, 4 extra bits (R193). -/
def execDDist10 (x : BitVec 4) (s : State) : Host.Outcome State Fault Refusal := unitOp (emitDistanceId 10 x.toNat) s

/-- `D.DIST11`: id 11, distances 49 to 64, 4 extra bits (R193). -/
def execDDist11 (x : BitVec 4) (s : State) : Host.Outcome State Fault Refusal := unitOp (emitDistanceId 11 x.toNat) s

/-- `D.DIST12`: id 12, distances 65 to 96, 5 extra bits (R193). -/
def execDDist12 (x : BitVec 5) (s : State) : Host.Outcome State Fault Refusal := unitOp (emitDistanceId 12 x.toNat) s

/-- `D.DIST13`: id 13, distances 97 to 128, 5 extra bits (R193). -/
def execDDist13 (x : BitVec 5) (s : State) : Host.Outcome State Fault Refusal := unitOp (emitDistanceId 13 x.toNat) s

/-- `D.DIST14`: id 14, distances 129 to 192, 6 extra bits (R193). -/
def execDDist14 (x : BitVec 6) (s : State) : Host.Outcome State Fault Refusal := unitOp (emitDistanceId 14 x.toNat) s

/-- `D.DIST15`: id 15, distances 193 to 256, 6 extra bits (R193). -/
def execDDist15 (x : BitVec 6) (s : State) : Host.Outcome State Fault Refusal := unitOp (emitDistanceId 15 x.toNat) s

/-- `D.DIST16`: id 16, distances 257 to 384, 7 extra bits (R193). -/
def execDDist16 (x : BitVec 7) (s : State) : Host.Outcome State Fault Refusal := unitOp (emitDistanceId 16 x.toNat) s

/-- `D.DIST17`: id 17, distances 385 to 512, 7 extra bits (R193). -/
def execDDist17 (x : BitVec 7) (s : State) : Host.Outcome State Fault Refusal := unitOp (emitDistanceId 17 x.toNat) s

/-- `D.DIST18`: id 18, distances 513 to 768, 8 extra bits (R193). -/
def execDDist18 (x : BitVec 8) (s : State) : Host.Outcome State Fault Refusal := unitOp (emitDistanceId 18 x.toNat) s

/-- `D.DIST19`: id 19, distances 769 to 1024, 8 extra bits (R193). -/
def execDDist19 (x : BitVec 8) (s : State) : Host.Outcome State Fault Refusal := unitOp (emitDistanceId 19 x.toNat) s

/-- `D.DIST20`: id 20, distances 1025 to 1536, 9 extra bits (R193). -/
def execDDist20 (x : BitVec 9) (s : State) : Host.Outcome State Fault Refusal := unitOp (emitDistanceId 20 x.toNat) s

/-- `D.DIST21`: id 21, distances 1537 to 2048, 9 extra bits (R193). -/
def execDDist21 (x : BitVec 9) (s : State) : Host.Outcome State Fault Refusal := unitOp (emitDistanceId 21 x.toNat) s

/-- `D.DIST22`: id 22, distances 2049 to 3072, 10 extra bits (R193). -/
def execDDist22 (x : BitVec 10) (s : State) : Host.Outcome State Fault Refusal := unitOp (emitDistanceId 22 x.toNat) s

/-- `D.DIST23`: id 23, distances 3073 to 4096, 10 extra bits (R193). -/
def execDDist23 (x : BitVec 10) (s : State) : Host.Outcome State Fault Refusal := unitOp (emitDistanceId 23 x.toNat) s

/-- `D.DIST24`: id 24, distances 4097 to 6144, 11 extra bits (R193). -/
def execDDist24 (x : BitVec 11) (s : State) : Host.Outcome State Fault Refusal := unitOp (emitDistanceId 24 x.toNat) s

/-- `D.DIST25`: id 25, distances 6145 to 8192, 11 extra bits (R193). -/
def execDDist25 (x : BitVec 11) (s : State) : Host.Outcome State Fault Refusal := unitOp (emitDistanceId 25 x.toNat) s

/-- `D.DIST26`: id 26, distances 8193 to 12288, 12 extra bits (R193). -/
def execDDist26 (x : BitVec 12) (s : State) : Host.Outcome State Fault Refusal := unitOp (emitDistanceId 26 x.toNat) s

/-- `D.DIST27`: id 27, distances 12289 to 16384, 12 extra bits (R193). -/
def execDDist27 (x : BitVec 12) (s : State) : Host.Outcome State Fault Refusal := unitOp (emitDistanceId 27 x.toNat) s

/-- `D.DIST28`: id 28, distances 16385 to 24576, 13 extra bits (R193). -/
def execDDist28 (x : BitVec 13) (s : State) : Host.Outcome State Fault Refusal := unitOp (emitDistanceId 28 x.toNat) s

/-- `D.DIST29`: id 29, distances 24577 to 32768, 13 extra bits (R193). -/
def execDDist29 (x : BitVec 13) (s : State) : Host.Outcome State Fault Refusal := unitOp (emitDistanceId 29 x.toNat) s

end Sys2Proof.Machine
end

