-- ==== Sys2Proof/Machine/LengthIds.lean ====
section
/-! DEFINITION. The literal/length alphabet ids (R94, R192), each presented to the code writer as a unit: its stream form
is written, the code of the id and the extra bits of its length (R97, R98, R99; log 8). -/

namespace Sys2Proof.Machine

/-- The stream form of a literal id (R99). TL is read only where a block has written it; between commands and after reset the
code is a free value, drawn afresh (R30, R38, U8; log 8). A code of more than 45 bits is refused (U21). -/
def emitLiteralId (id : Nat) (s : State) : Res State :=
  withinBound (s.llCode id).len (onWriter (writeCode (s.llCode id))) s.drawn

/-- The stream form of length code `k` with the offset `x` above its base (R99), under a code taken as in `emitLiteralId`.
Offset 31 of code 27 is length 258, which is code 28's: refused with F_RANGE (R194; log 12). -/
def emitLengthId (k x : Nat) (s : State) : Res State :=
  if lenBase.getD k 0 + x = 258 ∧ k ≠ 28 then .stop .fRange s
  else withinBound (s.llCode (257 + k)).len (onWriter (writeCodeExtra (s.llCode (257 + k)) x (lenExtra.getD k 0))) s.drawn

/-- `LL.LITERAL v`: ids 0 to 255, the literal bytes (R94). -/
def execLlLiteral (v : BitVec 8) (s : State) : Host.Outcome State Fault Refusal := unitOp (emitLiteralId v.toNat) s

/-- `LL.EOB`: id 256, end-of-block (R94). -/
def execLlEob (s : State) : Host.Outcome State Fault Refusal := unitOp (emitLiteralId eob) s

/-- `LL.LEN0`: id 257, length 3, no extra bits (R192). -/
def execLlLen0 (s : State) : Host.Outcome State Fault Refusal := unitOp (emitLengthId 0 0) s

/-- `LL.LEN1`: id 258, length 4, no extra bits (R192). -/
def execLlLen1 (s : State) : Host.Outcome State Fault Refusal := unitOp (emitLengthId 1 0) s

/-- `LL.LEN2`: id 259, length 5, no extra bits (R192). -/
def execLlLen2 (s : State) : Host.Outcome State Fault Refusal := unitOp (emitLengthId 2 0) s

/-- `LL.LEN3`: id 260, length 6, no extra bits (R192). -/
def execLlLen3 (s : State) : Host.Outcome State Fault Refusal := unitOp (emitLengthId 3 0) s

/-- `LL.LEN4`: id 261, length 7, no extra bits (R192). -/
def execLlLen4 (s : State) : Host.Outcome State Fault Refusal := unitOp (emitLengthId 4 0) s

/-- `LL.LEN5`: id 262, length 8, no extra bits (R192). -/
def execLlLen5 (s : State) : Host.Outcome State Fault Refusal := unitOp (emitLengthId 5 0) s

/-- `LL.LEN6`: id 263, length 9, no extra bits (R192). -/
def execLlLen6 (s : State) : Host.Outcome State Fault Refusal := unitOp (emitLengthId 6 0) s

/-- `LL.LEN7`: id 264, length 10, no extra bits (R192). -/
def execLlLen7 (s : State) : Host.Outcome State Fault Refusal := unitOp (emitLengthId 7 0) s

/-- `LL.LEN8`: id 265, lengths 11 to 12, 1 extra bit (R192). -/
def execLlLen8 (x : BitVec 1) (s : State) : Host.Outcome State Fault Refusal := unitOp (emitLengthId 8 x.toNat) s

/-- `LL.LEN9`: id 266, lengths 13 to 14, 1 extra bit (R192). -/
def execLlLen9 (x : BitVec 1) (s : State) : Host.Outcome State Fault Refusal := unitOp (emitLengthId 9 x.toNat) s

/-- `LL.LEN10`: id 267, lengths 15 to 16, 1 extra bit (R192). -/
def execLlLen10 (x : BitVec 1) (s : State) : Host.Outcome State Fault Refusal := unitOp (emitLengthId 10 x.toNat) s

/-- `LL.LEN11`: id 268, lengths 17 to 18, 1 extra bit (R192). -/
def execLlLen11 (x : BitVec 1) (s : State) : Host.Outcome State Fault Refusal := unitOp (emitLengthId 11 x.toNat) s

/-- `LL.LEN12`: id 269, lengths 19 to 22, 2 extra bits (R192). -/
def execLlLen12 (x : BitVec 2) (s : State) : Host.Outcome State Fault Refusal := unitOp (emitLengthId 12 x.toNat) s

/-- `LL.LEN13`: id 270, lengths 23 to 26, 2 extra bits (R192). -/
def execLlLen13 (x : BitVec 2) (s : State) : Host.Outcome State Fault Refusal := unitOp (emitLengthId 13 x.toNat) s

/-- `LL.LEN14`: id 271, lengths 27 to 30, 2 extra bits (R192). -/
def execLlLen14 (x : BitVec 2) (s : State) : Host.Outcome State Fault Refusal := unitOp (emitLengthId 14 x.toNat) s

/-- `LL.LEN15`: id 272, lengths 31 to 34, 2 extra bits (R192). -/
def execLlLen15 (x : BitVec 2) (s : State) : Host.Outcome State Fault Refusal := unitOp (emitLengthId 15 x.toNat) s

/-- `LL.LEN16`: id 273, lengths 35 to 42, 3 extra bits (R192). -/
def execLlLen16 (x : BitVec 3) (s : State) : Host.Outcome State Fault Refusal := unitOp (emitLengthId 16 x.toNat) s

/-- `LL.LEN17`: id 274, lengths 43 to 50, 3 extra bits (R192). -/
def execLlLen17 (x : BitVec 3) (s : State) : Host.Outcome State Fault Refusal := unitOp (emitLengthId 17 x.toNat) s

/-- `LL.LEN18`: id 275, lengths 51 to 58, 3 extra bits (R192). -/
def execLlLen18 (x : BitVec 3) (s : State) : Host.Outcome State Fault Refusal := unitOp (emitLengthId 18 x.toNat) s

/-- `LL.LEN19`: id 276, lengths 59 to 66, 3 extra bits (R192). -/
def execLlLen19 (x : BitVec 3) (s : State) : Host.Outcome State Fault Refusal := unitOp (emitLengthId 19 x.toNat) s

/-- `LL.LEN20`: id 277, lengths 67 to 82, 4 extra bits (R192). -/
def execLlLen20 (x : BitVec 4) (s : State) : Host.Outcome State Fault Refusal := unitOp (emitLengthId 20 x.toNat) s

/-- `LL.LEN21`: id 278, lengths 83 to 98, 4 extra bits (R192). -/
def execLlLen21 (x : BitVec 4) (s : State) : Host.Outcome State Fault Refusal := unitOp (emitLengthId 21 x.toNat) s

/-- `LL.LEN22`: id 279, lengths 99 to 114, 4 extra bits (R192). -/
def execLlLen22 (x : BitVec 4) (s : State) : Host.Outcome State Fault Refusal := unitOp (emitLengthId 22 x.toNat) s

/-- `LL.LEN23`: id 280, lengths 115 to 130, 4 extra bits (R192). -/
def execLlLen23 (x : BitVec 4) (s : State) : Host.Outcome State Fault Refusal := unitOp (emitLengthId 23 x.toNat) s

/-- `LL.LEN24`: id 281, lengths 131 to 162, 5 extra bits (R192). -/
def execLlLen24 (x : BitVec 5) (s : State) : Host.Outcome State Fault Refusal := unitOp (emitLengthId 24 x.toNat) s

/-- `LL.LEN25`: id 282, lengths 163 to 194, 5 extra bits (R192). -/
def execLlLen25 (x : BitVec 5) (s : State) : Host.Outcome State Fault Refusal := unitOp (emitLengthId 25 x.toNat) s

/-- `LL.LEN26`: id 283, lengths 195 to 226, 5 extra bits (R192). -/
def execLlLen26 (x : BitVec 5) (s : State) : Host.Outcome State Fault Refusal := unitOp (emitLengthId 26 x.toNat) s

/-- `LL.LEN27`: id 284, lengths 227 to 257, 5 extra bits (R192). -/
def execLlLen27 (x : BitVec 5) (s : State) : Host.Outcome State Fault Refusal := unitOp (emitLengthId 27 x.toNat) s

/-- `LL.LEN28`: id 285, length 258, no extra bits (R192). -/
def execLlLen28 (s : State) : Host.Outcome State Fault Refusal := unitOp (emitLengthId 28 0) s

/-- `LL.EOS`: id 286, end-of-stream (R94, R205). -/
def execLlEos (s : State) : Host.Outcome State Fault Refusal := unitOp (emitLiteralId eos) s

end Sys2Proof.Machine
end

