-- ==== Sys2Proof/Machine/Stream.lean ====
section
/-! DEFINITION. The header field (R96) and the status word (R91), each presented by itself (log 9, log 10). -/

namespace Sys2Proof.Machine

/-- `HDR.FIELD l`: one code-length field of the header is written, 8 bits, most significant first (R96, R203). A value of
46 to 255 cannot occur in a block of CORE (R37, R103): presented by itself it is refused with F_RANGE (U21, R287; log 9). -/
def execHdrField (l : BitVec 8) (s : State) : Host.Outcome State Fault Refusal :=
  unitOp (withinBound l (onWriter (writeField l))) s

/-- `STATUS f n c`: the host samples the read-only word STATUS, in any state, a faulted one included (R35, R318). No
element of CORE changes (R74); the sampled value is State.status, recorded in the model's own `samples`. The word is an
output: whatever fields `f`, `n`, `c` the presented word has, CORE drives its own (log 10). -/
def execStatus (_f : BitVec 1) (_n _c : BitVec 3) (s : State) : Host.Outcome State Fault Refusal :=
  .next (s.setSamples (s.samples ++ [s.status]))

end Sys2Proof.Machine
end

