-- ==== Sys2Proof/Machine/Symbols.lean ====
section
/-! DEFINITION. The four legal symbol words (R93, R102) presented to the encoder as a unit "fed from elsewhere": the word
passes into SB, as the matcher's do (R134, R136; log 7). -/

namespace Sys2Proof.Machine

/-- A symbol passes to the encoder: `SB.push(sym)` (R93, R134). An illegal symbol is refused with F_RANGE (R102), and so
is one for which the symbol space of CHUNK_MAX + 1 cells has no cell left (R60; log 12). -/
def pushSymbol (sym : Symbol) (s : State) : Res State :=
  if sym.legal ∧ s.matcher.sb.length ≤ Config.chunkMax then
    .ok (s.setMatcher (s.matcher.setSb (s.matcher.sb ++ [sym])))
  else .stop .fRange s

/-- `SYM.LIT v`: the literal byte `v` (R93). -/
def execSymLit (v : BitVec 8) (s : State) : Host.Outcome State Fault Refusal :=
  unitOp (pushSymbol (.lit (v.setWidth 16))) s

/-- `SYM.EOB`: the end-of-block sentinel (R93, R136). -/
def execSymEob (s : State) : Host.Outcome State Fault Refusal := unitOp (pushSymbol (.lit (BitVec.ofNat 16 eob))) s

/-- `SYM.EOS`: the end-of-stream id, which the matcher never makes and a unit takes as any literal id (R93, U20). -/
def execSymEos (s : State) : Host.Outcome State Fault Refusal := unitOp (pushSymbol (.lit (BitVec.ofNat 16 eos))) s

/-- `SYM.PTR d l`: a pointer of distance `d` and length `l` (R93). -/
def execSymPtr (d l : BitVec 16) (s : State) : Host.Outcome State Fault Refusal := unitOp (pushSymbol (.ptr d l)) s

end Sys2Proof.Machine
end

