-- ==== Sys2Proof/Machine/Dispatch.lean ====
section
/-! DEFINITION. One arm per row of spec/opcode_table.json. -/

namespace Sys2Proof.Machine

def exec (i : Instr) (s : State) : Host.Outcome State Fault Refusal :=
  match i with
  | .nop => Sys2Proof.Machine.execNop s
  | .push b => Sys2Proof.Machine.execPush b s
  | .endc => Sys2Proof.Machine.execEndc s
  | .ends => Sys2Proof.Machine.execEnds s
  | .flush => Sys2Proof.Machine.execFlush s
  | .rderr => Sys2Proof.Machine.execRderr s
  | .symLit v => Sys2Proof.Machine.execSymLit v s
  | .symEob => Sys2Proof.Machine.execSymEob s
  | .symEos => Sys2Proof.Machine.execSymEos s
  | .symPtr d l => Sys2Proof.Machine.execSymPtr d l s
  | .llLiteral v => Sys2Proof.Machine.execLlLiteral v s
  | .llEob => Sys2Proof.Machine.execLlEob s
  | .llLen0 => Sys2Proof.Machine.execLlLen0 s
  | .llLen1 => Sys2Proof.Machine.execLlLen1 s
  | .llLen2 => Sys2Proof.Machine.execLlLen2 s
  | .llLen3 => Sys2Proof.Machine.execLlLen3 s
  | .llLen4 => Sys2Proof.Machine.execLlLen4 s
  | .llLen5 => Sys2Proof.Machine.execLlLen5 s
  | .llLen6 => Sys2Proof.Machine.execLlLen6 s
  | .llLen7 => Sys2Proof.Machine.execLlLen7 s
  | .llLen8 x => Sys2Proof.Machine.execLlLen8 x s
  | .llLen9 x => Sys2Proof.Machine.execLlLen9 x s
  | .llLen10 x => Sys2Proof.Machine.execLlLen10 x s
  | .llLen11 x => Sys2Proof.Machine.execLlLen11 x s
  | .llLen12 x => Sys2Proof.Machine.execLlLen12 x s
  | .llLen13 x => Sys2Proof.Machine.execLlLen13 x s
  | .llLen14 x => Sys2Proof.Machine.execLlLen14 x s
  | .llLen15 x => Sys2Proof.Machine.execLlLen15 x s
  | .llLen16 x => Sys2Proof.Machine.execLlLen16 x s
  | .llLen17 x => Sys2Proof.Machine.execLlLen17 x s
  | .llLen18 x => Sys2Proof.Machine.execLlLen18 x s
  | .llLen19 x => Sys2Proof.Machine.execLlLen19 x s
  | .llLen20 x => Sys2Proof.Machine.execLlLen20 x s
  | .llLen21 x => Sys2Proof.Machine.execLlLen21 x s
  | .llLen22 x => Sys2Proof.Machine.execLlLen22 x s
  | .llLen23 x => Sys2Proof.Machine.execLlLen23 x s
  | .llLen24 x => Sys2Proof.Machine.execLlLen24 x s
  | .llLen25 x => Sys2Proof.Machine.execLlLen25 x s
  | .llLen26 x => Sys2Proof.Machine.execLlLen26 x s
  | .llLen27 x => Sys2Proof.Machine.execLlLen27 x s
  | .llLen28 => Sys2Proof.Machine.execLlLen28 s
  | .llEos => Sys2Proof.Machine.execLlEos s
  | .dDist0 => Sys2Proof.Machine.execDDist0 s
  | .dDist1 => Sys2Proof.Machine.execDDist1 s
  | .dDist2 => Sys2Proof.Machine.execDDist2 s
  | .dDist3 => Sys2Proof.Machine.execDDist3 s
  | .dDist4 x => Sys2Proof.Machine.execDDist4 x s
  | .dDist5 x => Sys2Proof.Machine.execDDist5 x s
  | .dDist6 x => Sys2Proof.Machine.execDDist6 x s
  | .dDist7 x => Sys2Proof.Machine.execDDist7 x s
  | .dDist8 x => Sys2Proof.Machine.execDDist8 x s
  | .dDist9 x => Sys2Proof.Machine.execDDist9 x s
  | .dDist10 x => Sys2Proof.Machine.execDDist10 x s
  | .dDist11 x => Sys2Proof.Machine.execDDist11 x s
  | .dDist12 x => Sys2Proof.Machine.execDDist12 x s
  | .dDist13 x => Sys2Proof.Machine.execDDist13 x s
  | .dDist14 x => Sys2Proof.Machine.execDDist14 x s
  | .dDist15 x => Sys2Proof.Machine.execDDist15 x s
  | .dDist16 x => Sys2Proof.Machine.execDDist16 x s
  | .dDist17 x => Sys2Proof.Machine.execDDist17 x s
  | .dDist18 x => Sys2Proof.Machine.execDDist18 x s
  | .dDist19 x => Sys2Proof.Machine.execDDist19 x s
  | .dDist20 x => Sys2Proof.Machine.execDDist20 x s
  | .dDist21 x => Sys2Proof.Machine.execDDist21 x s
  | .dDist22 x => Sys2Proof.Machine.execDDist22 x s
  | .dDist23 x => Sys2Proof.Machine.execDDist23 x s
  | .dDist24 x => Sys2Proof.Machine.execDDist24 x s
  | .dDist25 x => Sys2Proof.Machine.execDDist25 x s
  | .dDist26 x => Sys2Proof.Machine.execDDist26 x s
  | .dDist27 x => Sys2Proof.Machine.execDDist27 x s
  | .dDist28 x => Sys2Proof.Machine.execDDist28 x s
  | .dDist29 x => Sys2Proof.Machine.execDDist29 x s
  | .hdrField l => Sys2Proof.Machine.execHdrField l s
  | .status f n c => Sys2Proof.Machine.execStatus f n c s

end Sys2Proof.Machine
end

