-- ==== Sys2Proof/Machine/Fetch.lean ====
section
/-! DEFINITION. Accepting what the host sends next: the handshake (R90, R250), reset (R310), decoding; and the whole of an
accepted word, for the reset that cuts it short (R311). -/

namespace Sys2Proof.Machine

/-- What the oldest entry of the inbox asks for; the entry has left the inbox in the state given. -/
inductive Fetched where
  | idle                          -- nothing is waiting: CORE idles keeping all state (R293)
  | busy                          -- a word is waiting and `cmd_ready` is not held (R90)
  | reset (s : State)             -- `rst` is asserted (R310)
  | cut (w : PortWord) (s : State) -- `rst` is asserted while CORE works on this word (R311)
  | reject (r : Reject) (s : State) -- a word that is no row of the table
  | run (i : Instr) (s : State)   -- a row of the table
deriving DecidableEq, Repr

/-- STATUS can be sampled at any time (R35, R318); every other word waits for `cmd_ready` (R90). -/
def acceptsNow (w : PortWord) (s : State) : Bool := s.cmdReady || decide (w.format = .sts)

/-- A word presented to CORE. -/
def fetchWord (w : PortWord) (s : State) : Fetched :=
  if acceptsNow w s then
    match decode w with
    | .instr i => .run i s
    | .reject r => .reject r s
  else .busy

/-- The next thing for the step to do. -/
def fetch (s : State) : Fetched :=
  match s.inbox with
  | [] => .idle
  | .rst :: rest => .reset (s.setInbox rest)
  | .cut w :: rest => .cut w (s.setInbox rest)
  | .word w :: rest => fetchWord w (s.setInbox rest)

/-- The next state of an outcome; `s` where there is none. -/
def nextOr (s : State) : Host.Outcome State Fault Refusal → State
  | .next t => t
  | .fault _ => s
  | .refused _ => s

/-- What the whole of a word leaves; nothing happens on a word that is not accepted. -/
def wholeWord (w : PortWord) (s : State) : State :=
  match fetchWord w s with
  | .run i s => nextOr s (exec i s)
  | .reject r s => nextOr s (refuseWord r s)
  | _ => s

/-- A word presented to CORE before everything the host has already presented. -/
def present (w : PortWord) (s : State) : State := s.setInbox (.word w :: s.inbox)

end Sys2Proof.Machine
end

