-- ==== Sys2Proof/Machine/Step.lean ====
section
/-! DEFINITION. One step: the oldest thing the host has sent is taken and carried out to its end (R250, R251). -/

namespace Sys2Proof.Machine

def step (s : State) : Host.Outcome State Fault Refusal :=
  match fetch s with
  | .idle => .next s
  | .busy => .fault .midCommand
  | .reset s => .next (applyReset s)
  | .cut w s => .next (abandon s (wholeWord w s))
  | .reject r s => refuseWord r s
  | .run i s => exec i s

/-- `s` with a word of spec/opcode_table.json presented first, so that the next step takes it. CORE fetches no
instructions from a memory (R80): the host sends words, and this stands for that (log 2, log 11). -/
def State.withFetchWord (s : State) (nbits w : Nat) : State := present (tableWord nbits w) s

end Sys2Proof.Machine
end

