-- ==== Sys2Proof/Machine/Formats.lean ====
section
/-! DEFINITION. The formats of the output stream as bit strings, apart from the writer that sends them: HDR (R96), CODE
(R97), XTRA (R98), the stream form of a symbol (R99), a block (R206), and the bits a sink log holds (R69, R230). No step
uses them: they are the spec's own description of the output, against which the encoder's writes are stated. -/

namespace Sys2Proof.Machine

/-- Format CODE: `bits[len-1]` first down to `bits[0]` (R97). -/
def codeBits (c : Code) : List Bool := msbFirst c.bits c.len.toNat

/-- Format XTRA: an `n`-bit number, most significant bit first (R98). -/
def extraBits (offset n : Nat) : List Bool := msbFirst (BitVec.ofNat 128 offset) n

/-- Fields of format HDR, most significant bit first (R96). -/
def fieldBits : List Code → List Bool
  | [] => []
  | c :: cs => msbFirst (c.len.setWidth 128) 8 ++ fieldBits cs

/-- Format HDR (R96). -/
def headerBits (tl td : List Code) : List Bool := fieldBits tl ++ fieldBits td

/-- A code with the extra-bits field of `n` bits that follows it (R99). -/
def codeExtraBits (c : Code) (offset n : Nat) : List Bool := codeBits c ++ extraBits offset n

/-- Length code `k` with its extra bits (R99). -/
def lengthBits (tl : List Code) (k offset : Nat) : List Bool :=
  codeExtraBits (codeAt tl (257 + k)) offset (lenExtra.getD k 0)

/-- Distance code `k` with its extra bits (R99). -/
def distanceBits (td : List Code) (k offset : Nat) : List Bool :=
  codeExtraBits (codeAt td k) offset (distExtra.getD k 0)

/-- The stream form of a symbol (R99). -/
def symbolBits (tl td : List Code) : Symbol → List Bool
  | .lit v => codeBits (codeAt tl v.toNat)
  | .ptr d l =>
    let kl := (lenMap l.toNat).getD 0
    let kd := (distMap d.toNat).getD 0
    lengthBits tl kl (lenOffset l.toNat kl) ++ distanceBits td kd (distOffset d.toNat kd)

/-- The stream forms of symbols in order (R206). -/
def symbolsBits (tl td : List Code) : List Symbol → List Bool
  | [] => []
  | sym :: rest => symbolBits tl td sym ++ symbolsBits tl td rest

/-- The end-of-stream mark of a final block, empty otherwise (R205, R206). -/
def endBits (tl : List Code) (last : Bool) : List Bool := if last then codeBits (codeAt tl eos) else []

/-- The bit string of a block under given code tables, `B = HDR ++ S_1 ++ ... ++ S_m ++ E` (R206). -/
def blockBitsWith (tl td : List Code) (sb : List Symbol) (last : Bool) : List Bool :=
  headerBits tl td ++ (symbolsBits tl td sb ++ endBits tl last)

/-- What one symbol adds to the slot `id` of FL (R201). -/
def litLenUse (id : Nat) : Symbol → Nat
  | .lit v => if v.toNat = id then 1 else 0
  | .ptr _ l => if 257 + (lenMap l.toNat).getD 0 = id then 1 else 0

/-- What one symbol adds to the slot `id` of FD (R201). -/
def distUse (id : Nat) : Symbol → Nat
  | .lit _ => 0
  | .ptr d _ => if (distMap d.toNat).getD 0 = id then 1 else 0

/-- FL after `ENC_COUNT`, slot by slot (R201): the uses in the block, and 1 for end-of-stream in the last block. -/
def freqLL (sb : List Symbol) (last : Bool) : List (BitVec 32) :=
  (List.range nLL).map fun id =>
    if last ∧ id = eos then 1 else BitVec.ofNat 32 ((sb.map (litLenUse id)).sum)

/-- FD after `ENC_COUNT`, slot by slot (R201). -/
def freqD (sb : List Symbol) : List (BitVec 32) :=
  (List.range nD).map fun id => BitVec.ofNat 32 ((sb.map (distUse id)).sum)

/-- The bit string of the block that a symbol sequence makes (R202, R206). -/
def blockBits (sb : List Symbol) (last : Bool) : List Bool :=
  blockBitsWith (codesOf (freqLL sb last) nLL) (codesOf (freqD sb) nD) sb last

/-- The bits of a byte, bit 7 first (R69). -/
def byteBits (b : Byte) : List Bool :=
  [b.getLsbD 7, b.getLsbD 6, b.getLsbD 5, b.getLsbD 4, b.getLsbD 3, b.getLsbD 2, b.getLsbD 1, b.getLsbD 0]

/-- The bits of bytes in order. -/
def bytesBits : List Byte → List Bool
  | [] => []
  | b :: bs => byteBits b ++ bytesBits bs

/-- The bits appended since reset, `S` of R230: those of OUTBYTES, then PEND. -/
def Writer.streamBits (w : Writer) : List Bool := bytesBits (bytesOf w.out) ++ w.pend

/-- The symbols `MATCH_CHUNK` makes of a chunk on a window (R136). -/
def chunkSymbols (w cb : List Byte) : List Symbol := (matchChunk { w := w, la := [], cb := cb, cpos := 0, sb := [] }).sb

end Sys2Proof.Machine
end

