-- ==== Sys2Proof/Safety.lean ====
section
/-! DEFINITION. What claims are stated in: the invariant of the state (R22 to R31, R37), the end of a run (R262), the
host's sequence (R262), and a sink that will take what is asked of it. -/

namespace Sys2Proof.Machine

/-- The bounds of the matcher's elements between commands (R23, R24, R25, R26). -/
def Matcher.Inv (m : Matcher) : Prop :=
  m.w.length ≤ 32768 ∧ m.la = [] ∧ m.cb.length ≤ Config.chunkMax ∧ m.cpos ≤ m.cb.length ∧
    m.sb.length ≤ Config.chunkMax + 1 ∧ ∀ sym ∈ m.sb, sym.legal = true

/-- The shapes of the encoder's tables (R28, R30, R60). -/
def Encoder.Inv (e : Encoder) : Prop :=
  e.fl.length = 287 ∧ e.fd.length = 30 ∧ e.node.length ≤ 573 ∧ e.tl.length = 287 ∧ e.td.length = 30

/-- The invariant of the state between commands: the bounds above; at most 7 pending bits (R31); PHASE is IDLE or HALT
(R22, R251), and HALT exactly in a faulted CORE (R284); the code of a failed open is never raised (R283). -/
def State.Inv (s : State) : Prop :=
  s.matcher.Inv ∧ s.encoder.Inv ∧ s.writer.pend.length ≤ 7 ∧ (s.phase = .idle ∨ s.phase = .halt) ∧
    (s.phase = .halt ↔ s.fault ≠ .fNone) ∧ s.fault ≠ .fOpen

/-- The run has ended in success: FIN = 1 and PEND empty, with no fault (R262). -/
def State.succeeded (s : State) : Prop := s.fault = .fNone ∧ s.fin = true ∧ s.writer.pend = []

/-- The run has ended in failure (R262). -/
def State.failed (s : State) : Prop := s.fault ≠ .fNone

/-- The sink is going to answer `ok` to the next `n` requests. -/
def Writer.sinkTakes (w : Writer) (n : Nat) : Prop := ∃ rest, w.answers = List.replicate n .ok ++ rest

/-- The bytes that forwarding these bits completes (R231). -/
def Writer.bytesDue (w : Writer) (bits : List Bool) : Nat := (w.pend.length + bits.length) / 8

/-- The writer has appended exactly these bits to the stream: they stand in OUT and PEND after what stood there (R230);
whole bytes only were forwarded, one sink answer each, and at most 7 bits are pending (R31, R70). -/
def Writer.Appended (w w' : Writer) (bits : List Bool) : Prop :=
  w'.streamBits = w.streamBits ++ bits ∧ w'.pend.length = (w.pend.length + bits.length) % 8 ∧
    (∃ bytes : List Byte, w'.out = w.out ++ bytes.map .byte) ∧
    w'.answers = w.answers.drop (w.bytesDue bits) ∧ w'.draws = w.draws

/-- The sink is going to answer `ok` to the next `n` requests and `fail` to the one after. -/
def Writer.sinkFailsAfter (w : Writer) (n : Nat) : Prop := ∃ rest, w.answers = List.replicate n .ok ++ .fail :: rest

/-- The writer has stopped at its `n + 1`-th byte of these bits: the first `n` are in OUT, the failing one is not, PEND is
empty and the rest is lost (R231, R284, R285). -/
def Writer.StoppedAfter (w w' : Writer) (n : Nat) (bits : List Bool) : Prop :=
  w'.pend = [] ∧ w'.answers = w.answers.drop (n + 1) ∧ w'.draws = w.draws ∧
    ∃ bytes : List Byte, bytes.length = n ∧ w'.out = w.out ++ bytes.map .byte ∧ bytesBits bytes <+: w.pend ++ bits

/-- The last `n` bytes of a sequence. -/
def lastBytes (n : Nat) (l : List Byte) : List Byte := l.drop (l.length - n)

/-- A match of length `len` at window position `start`: the candidate's bytes agree with the lookahead's (R131, R137). -/
def agrees (w la : List Byte) (start len : Nat) : Prop :=
  start < w.length ∧ len ≤ la.length ∧ ∀ j, j < len → srcByte w la (start + j) = la.getD j 0

/-- `n` bytes copied one by one, each from `d` positions back in the output so far (R139). -/
def copyBack (d : Nat) : Nat → List Byte → List Byte
  | 0, out => out
  | n + 1, out => copyBack d n (out ++ [out.getD (out.length - d) 0])

/-- The symbols replayed on the output so far: a literal byte appends itself, a pointer copies, a sentinel appends
nothing (R139). -/
def replay : List Byte → List Symbol → List Byte
  | out, [] => out
  | out, .lit v :: rest => replay (if v.toNat < 256 then out ++ [v.setWidth 8] else out) rest
  | out, .ptr d l :: rest => replay (copyBack d.toNat l.toNat out) rest

/-- The input bytes a symbol stands for: 1 for a literal byte, `l` for a pointer, 0 for a sentinel (R139). -/
def Symbol.covers : Symbol → Nat
  | .lit v => if v.toNat < 256 then 1 else 0
  | .ptr _ l => l.toNat

/-- A code as its branch decisions from the root: bit 0 first (R169). -/
def Code.decisions (c : Code) : List Bool := (List.range c.len.toNat).map c.bits.getLsbD

/-- The arena record reached from index `i` by these branch decisions, 0 left and 1 right; none past a leaf (R166). -/
def descend (node : List Node) : List Bool → Nat → Option Node
  | [], i => node[i]?
  | b :: bs, i =>
    match node[i]? with
    | some (.internal left right _ _) => descend node bs (if b then right else left)
    | _ => none

/-- The record at index `m` is queued when the record at index `n` is made by a merge: it stands before it in the arena and
no earlier merge took it (R161). -/
def queuedAt (node : List Node) (n m : Nat) : Prop :=
  m < n ∧ ∀ j left right weight seq, j < n → node[j]? = some (.internal left right weight seq) → m ≠ left ∧ m ≠ right

/-- The leaves a build starts with: one for each id of nonzero frequency, in ascending id, `seq` the id (R161, R163). -/
def leavesOf (freqs : List (BitVec 32)) : List Node :=
  ((List.range freqs.length).filter (fun id => decide (freqs.getD id 0 ≠ 0))).map
    fun id => .leaf id ((freqs.getD id 0).setWidth 33) id

/-- The total weight of a frequency table. -/
def totalFreq (freqs : List (BitVec 32)) : Nat := (freqs.map BitVec.toNat).sum

/-- The symbol of a symbol row (R93). -/
def rowSymbol? : Instr → Option Symbol
  | .symLit v => some (.lit (v.setWidth 16))
  | .symEob => some (.lit 256)
  | .symEos => some (.lit 286)
  | .symPtr d l => some (.ptr d l)
  | _ => none

/-- The id of a literal row: a byte, end-of-block or end-of-stream (R94). -/
def rowLiteralId? : Instr → Option Nat
  | .llLiteral v => some v.toNat
  | .llEob => some 256
  | .llEos => some 286
  | _ => none

/-- The host's sequence of a well-formed run from inside it (R262): any number of chunks, each closed by `ENDC`, a last
one closed by `ENDS`, then `FLUSH`; `NOP` anywhere. R262 speaks of commands and does not mention STATUS: that a sample may
stand anywhere, since the host may sample at any time (R318), and that a row of another format may stand nowhere are the
model's choice (log 24). -/
def wellFormedRun : List Instr → Bool
  | [] => false
  | .nop :: rest => wellFormedRun rest
  | .status _ _ _ :: rest => wellFormedRun rest
  | .push _ :: rest => wellFormedRun rest
  | .endc :: rest => wellFormedRun rest
  | .ends :: rest => closing rest
  | _ => false
where
  /-- After the last chunk: `FLUSH` once, and `NOP`s and samples. -/
  closing : List Instr → Bool
    | [] => false
    | .nop :: rest => closing rest
    | .status _ _ _ :: rest => closing rest
    | .flush :: rest => rest.all idle
    | _ => false
  /-- What may stand after the `FLUSH`. -/
  idle : Instr → Bool
    | .nop => true
    | .status _ _ _ => true
    | _ => false

end Sys2Proof.Machine
end

