-- ==== Sys2Proof/Certificates/Slice0/Obligations.lean ====
section
/-! DEFINITION. The statements for the provers, one `def Obligations.<Name> : Prop` each. A docstring names the rules of
spec/ the statement formalises; "Completion of" names the rows for which its conclusion is that `exec` answers the next
state of the row's own effect. -/

open Sys2Proof Sys2Proof.Machine

/-- Round trip over all 74 rows (R90, R91, R93 to R96, R100; the XTRA operand is log 8). -/
def Obligations.DecodeOfEncodeIsTheInstruction : Prop :=
  ∀ i : Instr, decode (encode i) = .instr i ↔ i.wellFormed = true

/-- The other direction of the round trip: each word has one meaning (R90 to R96). -/
def Obligations.EncodeOfDecodeIsTheWord : Prop :=
  ∀ (w : PortWord) (i : Instr), decode w = .instr i → encode i = w ∧ i.wellFormed = true

/-- Decoding is right, on words written out from R91, R93 to R96 and R100. The extra field beside the id in the words
of LL.LEN8 and D.DIST29 is the layout of log 8 (DESIGN CHOICE), not of 30_encoding.md. -/
def Obligations.WrittenOutWordsDecode : Prop :=
  decode (.cmd 0x0000) = .instr .nop ∧ decode (.cmd 0x1061) = .instr (.push 0x61) ∧
  decode (.cmd 0x2000) = .instr .endc ∧ decode (.cmd 0x3000) = .instr .ends ∧
  decode (.cmd 0x4000) = .instr .flush ∧ decode (.cmd 0x5000) = .instr .rderr ∧
  decode (.sym 0x100010009) = .instr (.symPtr 1 9) ∧ decode (.sym 0x000000100) = .instr .symEob ∧
  decode (.llid 0x109 1) = .instr (.llLen8 1) ∧ decode (.did 0x1D 0x1FFF) = .instr (.dDist29 8191) ∧
  decode (.hdr 0x02) = .instr (.hdrField 2) ∧ decode (.sts 0x94) = .instr (.status 1 2 4)

/-- R101, first two sentences, and where they stand in R253 and R289. -/
def Obligations.IllegalCommandWordsAreRefused : Prop :=
  ∀ w : BitVec 16,
    let illegal := 6 ≤ (w.extractLsb' 12 4).toNat ∨ w.extractLsb' 8 4 ≠ 0 ∨
      (w.extractLsb' 0 8 ≠ 0 ∧ w.extractLsb' 12 4 ≠ 1)
    ((∃ r, decode (.cmd w) = .reject r) ↔ illegal) ∧
    ∀ (s : State) (rest : List HostInput), illegal → s.inbox = .word (.cmd w) :: rest → s.cmdReady = true →
      s.fault = .fNone → step s = .next (((s.setInbox rest).setFault .fCmd).setPhase .halt)

/-- R102, the legal words and the refusal with F_RANGE. -/
def Obligations.ReservedSymbolWordsAreRefused : Prop :=
  ∀ w : BitVec 33,
    let hi := (w.extractLsb' 16 16).toNat
    let lo := (w.extractLsb' 0 16).toNat
    let legal := (w.getLsbD 32 = false ∧ hi = 0 ∧ (lo ≤ 256 ∨ lo = 286)) ∨
      (w.getLsbD 32 = true ∧ 1 ≤ hi ∧ hi ≤ 32768 ∧ 3 ≤ lo ∧ lo ≤ 258)
    ((∃ r, decode (.sym w) = .reject r) ↔ ¬ legal) ∧
    ∀ (s : State) (rest : List HostInput), ¬ legal → s.inbox = .word (.sym w) :: rest → s.cmdReady = true →
      s.fault = .fNone → step s = .next (((s.setInbox rest).setFault .fRange).setPhase .halt)

/-- R94, "Ids 287 to 511 do not exist", and R95, "Ids 30 and 31 do not exist". What a step does with a rejected id
word (log 8, log 12) and with a status word whose bit 6 is set (log 10) is the model's choice. -/
def Obligations.IdsThatDoNotExistAreRejected : Prop :=
  (∀ id : BitVec 9, decode (.llid id 0) = .reject .noSuchId ↔ 287 ≤ id.toNat) ∧
  (∀ id : BitVec 9, id.toNat ≤ 286 → ∃ i, decode (.llid id 0) = .instr i) ∧
  (∀ id : BitVec 5, decode (.did id 0) = .reject .noSuchId ↔ 30 ≤ id.toNat) ∧
  (∀ id : BitVec 5, id.toNat ≤ 29 → ∃ i, decode (.did id 0) = .instr i) ∧
  (∀ (s : State) (w : PortWord) (rest : List HostInput) (r : Reject), w.format = .llid ∨ w.format = .did →
    decode w = .reject r → s.inbox = .word w :: rest → s.cmdReady = true → s.fault = .fNone →
    step s = .next (((s.setInbox rest).setFault .fRange).setPhase .halt)) ∧
  (∀ (s : State) (w : BitVec 8) (rest : List HostInput), w.getLsbD 6 = true → s.inbox = .word (.sts w) :: rest →
    step s = .next (s.setInbox rest))

/-- R250: a word is accepted, executed to completion, and only then the next is accepted. -/
def Obligations.StepRunsTheDecodedInstruction : Prop :=
  ∀ (s : State) (w : PortWord) (rest : List HostInput) (i : Instr), s.inbox = .word w :: rest →
    (s.cmdReady = true ∨ w.format = .sts) → decode w = .instr i → step s = exec i (s.setInbox rest)

/-- R293, "between commands it idles in PHASE = IDLE keeping all state", and R90, cmd_ready. -/
def Obligations.StepWithoutAcceptedWord : Prop :=
  (∀ s : State, s.inbox = [] → step s = .next s) ∧
  (∀ (s : State) (w : PortWord) (rest : List HostInput), s.inbox = .word w :: rest → w.format ≠ .sts →
    s.phase ≠ .idle → s.phase ≠ .halt → step s = .fault .midCommand)

/-- R310 and R311: the values of R41, nothing flushed, the only exit from HALT and from FIN = 1. -/
def Obligations.ResetInputPutsEveryElementAtItsResetValue : Prop :=
  ∀ (s : State) (rest : List HostInput), s.inbox = .rst :: rest → ∃ t, step s = .next t ∧
    t.matcher.w = [] ∧ t.matcher.la = [] ∧ t.matcher.cb = [] ∧ t.matcher.cpos = 0 ∧ t.matcher.sb = [] ∧
    t.encoder.isLast = false ∧ t.writer.pend = [] ∧ t.writer.out = [] ∧ t.fault = .fNone ∧ t.fin = false ∧
    t.phase = .idle ∧ t.status = 0x00 ∧ t.inbox = rest ∧ t.writer.answers = s.writer.answers ∧
    t.earlier = s.earlier ++ s.writer.out

/-- R41, the rows of its table that state a value. -/
def Obligations.ResetStateHoldsTheGivenValues : Prop :=
  State.reset.matcher.w = [] ∧ State.reset.matcher.la = [] ∧ State.reset.matcher.cb = [] ∧
  State.reset.matcher.cpos = 0 ∧ State.reset.matcher.sb = [] ∧ State.reset.encoder.isLast = false ∧
  State.reset.writer.pend = [] ∧ State.reset.acc = 0x00 ∧ State.reset.nbits = 0 ∧ State.reset.fault = .fNone ∧
  State.reset.fin = false ∧ State.reset.phase = .idle ∧ State.reset.status = 0x00 ∧ State.reset.writer.out = []

/-- R41 against the bounds of R22 to R31. -/
def Obligations.InvariantHoldsAtReset : Prop :=
  State.reset.Inv

/-- The bounds of R22 to R31, R37, R60, R283 and R284 kept by every step. -/
def Obligations.EveryStepKeepsTheInvariant : Prop :=
  ∀ s t : State, s.Inv → step s = .next t → t.Inv

/-- R260: "every command completes or faults; none hangs"; a fault is a next state (R284). R260 speaks of the
commands: what the symbol, id, header-field and status rows and the rejected words of those formats do by themselves
is the model's choice (log 7 to log 10, log 12). -/
def Obligations.EveryCommandCompletesOrFaults : Prop :=
  (∀ (i : Instr) (s : State), ∃ t, exec i s = .next t) ∧
  (∀ s : State, s.cmdReady = true → ∃ t, step s = .next t)

/-- R284: the fault entry. -/
def Obligations.RaiseTakesTheFault : Prop :=
  ∀ (c : FaultCode) (s : State),
    settle (.stop c s) = .next (raise c s) ∧
    (s.fault ≠ .fNone → raise c s = s) ∧
    (s.fault = .fNone → (raise c s).fault = c ∧ (raise c s).phase = .halt ∧ (raise c s).matcher = s.matcher ∧
      (raise c s).encoder = s.encoder ∧ (raise c s).writer = s.writer ∧ (raise c s).fin = s.fin ∧
      (raise c s).inbox = s.inbox ∧ (raise c s).samples = s.samples ∧ (raise c s).earlier = s.earlier ∧
      (raise c s).cuts = s.cuts)

/-- R252. -/
def Obligations.FaultedCoreIgnoresEveryCommandWord : Prop :=
  ∀ (s : State) (w : BitVec 16) (rest : List HostInput), s.fault ≠ .fNone → s.cmdReady = true →
    s.inbox = .word (.cmd w) :: rest → step s = .next (s.setInbox rest)

/-- R33 and R291: "Once nonzero it is never changed by any operation; only reset clears it". -/
def Obligations.OnlyResetLeavesAFault : Prop :=
  ∀ s t : State, s.fault ≠ .fNone → s.inbox.head? ≠ some .rst → (∀ w, s.inbox.head? ≠ some (.cut w)) →
    step s = .next t →
    t.fault = s.fault ∧ t.fin = s.fin ∧ t.phase = s.phase ∧ t.matcher = s.matcher ∧ t.encoder = s.encoder ∧
    t.writer = s.writer ∧ t.earlier = s.earlier ∧ t.cuts = s.cuts

/-- R253, second and third checks, and their order in R289. -/
def Obligations.AdmissionOrder : Prop :=
  ∀ s : State, s.fault = .fNone → s.fin = true →
    (∀ b, exec (.push b) s = .next (raise .fCmd s)) ∧ exec .endc s = .next (raise .fCmd s) ∧
    exec .ends s = .next (raise .fCmd s) ∧ exec .rderr s = .next (raise .fCmd s) ∧ exec .nop s = .next s ∧
    exec .flush s = settle ((onWriter wrFlush (s.setPhase .flushing)).andThen fun t => .ok (t.setPhase .idle))

/-- R34: set by an ENDS that completes without fault; never cleared except by reset. -/
def Obligations.OnlyEndsSetsFin : Prop :=
  ∀ (i : Instr) (s t : State), exec i s = .next t →
    t.fin = s.fin ∨ (i = .ends ∧ s.fin = false ∧ t.fin = true ∧ t.fault = .fNone)

/-- R281 to R287, the "raised by" column; R287: inside CORE no unit raises F_RANGE. That id and header rows can raise
F_WRITE and F_RANGE is the model's choice (log 8, log 9, log 12). -/
def Obligations.OnlyTheNamedFaultsAreRaised : Prop :=
  ∀ (i : Instr) (s t : State), s.fault = .fNone → exec i s = .next t →
    t.fault ≠ .fOpen ∧ (t.fault = .fRead → i = .rderr) ∧
    (t.fault = .fCmd → s.fin = true ∧ ((∃ b, i = .push b) ∨ i = .endc ∨ i = .ends ∨ i = .rderr)) ∧
    (t.fault = .fWrite → i ≠ .nop ∧ i ≠ .rderr ∧ (∀ b, i ≠ .push b) ∧ i.format ≠ .sym ∧ i.format ≠ .sts) ∧
    (t.fault = .fRange → i ≠ .nop ∧ i ≠ .flush ∧ i ≠ .rderr ∧ i.format ≠ .sts) ∧
    (s.Inv → i = .endc ∨ i = .ends → t.fault = .fNone ∨ t.fault = .fCmd ∨ t.fault = .fWrite)

/-- R32: "CORE only appends to OUT". -/
def Obligations.OutIsAppendOnly : Prop :=
  ∀ (i : Instr) (s t : State), exec i s = .next t → ∃ events, t.writer.out = s.writer.out ++ events

/-- R292, for one command: nothing executes after the fault (R252). -/
def Obligations.FailedOutputIsAnInitialPart : Prop :=
  ∀ (i : Instr) (s t t' : State) (n : Nat), exec i s = .next t →
    exec i (s.setWriter (s.writer.setAnswers (List.replicate n .ok))) = .next t' →
    t'.writer.draws = s.writer.draws → t.outBytes <+: t'.outBytes

/-- R254. Completion of NOP. -/
def Obligations.NopDoesNothing : Prop :=
  encode .nop = .cmd 0x0000 ∧ ∀ s : State, exec .nop s = .next s

/-- R255. Completion of PUSH. -/
def Obligations.PushSuppliesOneByte : Prop :=
  ∀ b : BitVec 8, encode (.push b) = .cmd (0x1000 + b.setWidth 16) ∧
    ∀ s : State, s.fault = .fNone →
      (s.fin = true → exec (.push b) s = .next (raise .fCmd s)) ∧
      (s.fin = false → s.matcher.cb.length = Config.chunkMax → exec (.push b) s = .next (raise .fRange s)) ∧
      (s.fin = false → s.matcher.cb.length ≠ Config.chunkMax →
        exec (.push b) s = .next (s.setMatcher (s.matcher.setCb (s.matcher.cb ++ [b]))))

/-- R259. Completion of RDERR, whose whole effect is the fault. -/
def Obligations.RderrRaisesFRead : Prop :=
  encode .rderr = .cmd 0x5000 ∧ ∀ s : State, s.fault = .fNone →
    (s.fin = false → exec .rderr s = .next ((s.setFault .fRead).setPhase .halt)) ∧
    (s.fin = true → exec .rderr s = .next (raise .fCmd s))

/-- R232 and R258. Completion of FLUSH. -/
def Obligations.FlushPadsAndFlushesTheSink : Prop :=
  ∀ s : State, s.fault = .fNone → s.writer.pend.length ≤ 7 →
    (s.writer.pend = [] → s.writer.sinkTakes 1 →
      exec .flush s = .next ((s.setWriter { s.writer with
        out := s.writer.out ++ [.flushMark], answers := s.writer.answers.drop 1 }).setPhase .idle)) ∧
    (s.writer.pend ≠ [] → s.writer.sinkTakes 2 → ∃ b : Byte,
      byteBits b = s.writer.pend ++ List.replicate (8 - s.writer.pend.length) false ∧
      exec .flush s = .next ((s.setWriter { s.writer with
        pend := [], out := s.writer.out ++ [.byte b, .flushMark], answers := s.writer.answers.drop 2 }).setPhase .idle))

/-- R232 "Faults", R285, and vectors K15 and K16. -/
def Obligations.FlushStopsWhereTheSinkFails : Prop :=
  ∀ s : State, s.fault = .fNone → s.writer.pend.length ≤ 7 →
    (s.writer.sinkFailsAfter 0 → ∃ t, exec .flush s = .next t ∧ t.fault = .fWrite ∧ t.phase = .halt ∧
      t.writer.out = s.writer.out ∧ t.writer.pend = [] ∧ t.fin = s.fin ∧ t.matcher = s.matcher) ∧
    (s.writer.pend ≠ [] → s.writer.sinkFailsAfter 1 → ∃ t b, exec .flush s = .next t ∧ t.fault = .fWrite ∧
      t.phase = .halt ∧ byteBits b = s.writer.pend ++ List.replicate (8 - s.writer.pend.length) false ∧
      t.writer.out = s.writer.out ++ [.byte b] ∧ t.writer.pend = [] ∧ t.fin = s.fin ∧ t.matcher = s.matcher)

/-- R256 with R136, R191, R206 and R230. LA and SB after the command are R24 and R26 as read in log 6. Completion of
ENDC. -/
def Obligations.EndcEncodesTheChunk : Prop :=
  ∀ s : State, s.Inv → s.fault = .fNone → s.fin = false →
    let sb := chunkSymbols s.matcher.w s.matcher.cb
    let bits := blockBits sb false
    s.writer.sinkTakes (s.writer.bytesDue bits) → ∃ t, exec .endc s = .next t ∧
      t.matcher = { w := lastBytes 32768 (s.matcher.w ++ s.matcher.cb), la := [], cb := [], cpos := 0, sb := [] } ∧
      s.writer.Appended t.writer bits ∧ t.fault = .fNone ∧ t.fin = false ∧
      t.phase = .idle ∧ t.inbox = s.inbox ∧ t.samples = s.samples ∧ t.earlier = s.earlier ∧ t.cuts = s.cuts

/-- R257 with R136, R191, R205, R206 and R230. LA and SB after the command are R24 and R26 as read in log 6.
Completion of ENDS. -/
def Obligations.EndsEncodesTheLastChunk : Prop :=
  ∀ s : State, s.Inv → s.fault = .fNone → s.fin = false →
    let sb := chunkSymbols s.matcher.w s.matcher.cb
    let bits := blockBits sb true
    s.writer.sinkTakes (s.writer.bytesDue bits) → ∃ t, exec .ends s = .next t ∧
      t.matcher = { w := lastBytes 32768 (s.matcher.w ++ s.matcher.cb), la := [], cb := [], cpos := 0, sb := [] } ∧
      s.writer.Appended t.writer bits ∧ t.fault = .fNone ∧ t.fin = true ∧
      t.phase = .idle ∧ t.inbox = s.inbox ∧ t.samples = s.samples ∧ t.earlier = s.earlier ∧ t.cuts = s.cuts

/-- R256 and R257 "Faults", R284 "All other state keeps the value it had", R285. -/
def Obligations.ChunkEndStopsWhereTheSinkFails : Prop :=
  ∀ (s : State) (last : Bool) (j : Nat), s.Inv → s.fault = .fNone → s.fin = false →
    let sb := chunkSymbols s.matcher.w s.matcher.cb
    let bits := blockBits sb last
    j < s.writer.bytesDue bits → s.writer.sinkFailsAfter j → ∃ t, exec (if last then .ends else .endc) s = .next t ∧
      t.fault = .fWrite ∧ t.phase = .halt ∧ t.fin = false ∧ t.matcher.cb = s.matcher.cb ∧
      t.matcher.w = lastBytes 32768 (s.matcher.w ++ s.matcher.cb) ∧ t.encoder.isLast = last ∧
      s.writer.StoppedAfter t.writer j bits

/-- R206 and R256 "Corner cases", R324, vectors E4 and P2. -/
def Obligations.EmptyBlocks : Prop :=
  (∀ w : List Byte, chunkSymbols w [] = [.lit 256]) ∧
  blockBits [.lit 256] false = List.replicate 2536 false ∧
  blockBits [.lit 256] true =
    bytesBits (((List.replicate 317 (0 : Byte)).set 256 1).set 286 1) ++ [false, true]

/-- R93, R102, R134. Completion of symLit, symEob, symEos, symPtr. -/
def Obligations.SymbolRowsPassIntoTheSymbolBuffer : Prop :=
  ∀ (i : Instr) (sym : Symbol) (s : State), rowSymbol? i = some sym → s.fault = .fNone →
    (i.wellFormed = true → s.matcher.sb.length ≤ Config.chunkMax →
      exec i s = .next (s.setMatcher (s.matcher.setSb (s.matcher.sb ++ [sym])))) ∧
    (i.wellFormed = false ∨ Config.chunkMax < s.matcher.sb.length → exec i s = .next (raise .fRange s))

/-- R97 and R99, `Lit(v)`: `CODE(TL[v])`, with R30; an id presented by itself, and its free code, are log 8.
Completion of llLiteral, llEob, llEos. -/
def Obligations.LiteralIdRowsWriteTheirCode : Prop :=
  ∀ (i : Instr) (id : Nat) (s : State), rowLiteralId? i = some id → s.fault = .fNone → s.writer.pend.length ≤ 7 →
    let c := s.llCode id
    c.len.toNat ≤ 45 → s.writer.sinkTakes (s.writer.bytesDue (codeBits c)) →
    ∃ w', exec i s = .next (s.drawn.setWriter w') ∧ s.writer.Appended w' (codeBits c)

/-- R98, R99, R192, R194, with R30. An id presented by itself, and its free code, are log 8 (DESIGN CHOICE), the
refusal of offset 31 log 12 (DEDUCED). Completion of llLen0 to llLen28. -/
def Obligations.LengthIdRowsWriteCodeAndExtraBits : Prop :=
  (∀ (i : Instr) (k x : Nat) (s : State), i.lengthCode? = some (k, x) → i.wellFormed = true → s.fault = .fNone →
    s.writer.pend.length ≤ 7 → (s.llCode (257 + k)).len.toNat ≤ 45 →
    let bits := codeExtraBits (s.llCode (257 + k)) x (lenExtra.getD k 0)
    s.writer.sinkTakes (s.writer.bytesDue bits) →
    ∃ w', exec i s = .next (s.drawn.setWriter w') ∧ s.writer.Appended w' bits) ∧
  (∀ s : State, s.fault = .fNone → exec (.llLen27 31) s = .next (raise .fRange s))

/-- R98, R99, R193, R195, with R30; an id presented by itself, and its free code, are log 8. Completion of dDist0 to
dDist29. -/
def Obligations.DistanceIdRowsWriteCodeAndExtraBits : Prop :=
  ∀ (i : Instr) (k x : Nat) (s : State), i.distanceCode? = some (k, x) → s.fault = .fNone →
    s.writer.pend.length ≤ 7 → (s.dCode k).len.toNat ≤ 45 →
    let bits := codeExtraBits (s.dCode k) x (distExtra.getD k 0)
    s.writer.sinkTakes (s.writer.bytesDue bits) →
    ∃ w', exec i s = .next (s.drawn.setWriter w') ∧ s.writer.Appended w' bits

/-- R68, R69, R96; R103 and U21 for a value of 46 to 255. A header field presented by itself is log 9. Completion of
hdrField. -/
def Obligations.HeaderFieldRowWritesEightBits : Prop :=
  ∀ (l : BitVec 8) (s : State), s.fault = .fNone →
    (l.toNat ≤ 45 → s.writer.pend.length ≤ 7 → s.writer.sinkTakes 1 →
      ∃ w', exec (.hdrField l) s = .next (s.setWriter w') ∧ s.writer.Appended w' (byteBits l) ∧
        (s.writer.pend = [] → w'.out = s.writer.out ++ [.byte l] ∧ w'.pend = [])) ∧
    (45 < l.toNat → exec (.hdrField l) s = .next (raise .fRange s))

/-- U21: a code length above 45, outside the bound of R37, is refused; with F_RANGE by R287. An id row presented by
itself, and the bound of a free code, are the model's choice (log 8). -/
def Obligations.IdRowsRefuseAnOverlongCode : Prop :=
  ∀ (i : Instr) (s : State), s.fault = .fNone →
    (∀ id, rowLiteralId? i = some id → 45 < (s.llCode id).len.toNat → exec i s = .next (raise .fRange s)) ∧
    (∀ k x, i.lengthCode? = some (k, x) → 45 < (s.llCode (257 + k)).len.toNat →
      exec i s = .next (raise .fRange s)) ∧
    (∀ k x, i.distanceCode? = some (k, x) → 45 < (s.dCode k).len.toNat →
      exec i s = .next (raise .fRange s)) ∧
    (s.holdsCodes = false → ∀ id, (s.llCode id).len.toNat ≤ 45 ∧ (s.dCode id).len.toNat ≤ 45)

/-- R35, R91, R288. Completion of status. -/
def Obligations.StatusIsSampledAndNotWritten : Prop :=
  ∀ (s : State) (f : BitVec 1) (n c : BitVec 3),
    s.status.extractLsb' 0 3 = s.fault.code ∧ s.status.extractLsb' 3 3 = BitVec.ofNat 3 s.writer.pend.length ∧
    s.status.getLsbD 6 = false ∧ s.status.getLsbD 7 = s.fin ∧ (s.faultOut = true ↔ s.fault.code ≠ 0) ∧
    exec (.status f n c) s = .next (s.setSamples (s.samples ++ [s.status]))

/-- R23 to R36: which operation writes which element; R30 and R38: scratch is written before it is read. -/
def Obligations.FramesOfTheCommands : Prop :=
  ∀ (i : Instr) (s t : State), i.format = .cmd → exec i s = .next t →
    t.inbox = s.inbox ∧ t.samples = s.samples ∧ t.earlier = s.earlier ∧ t.cuts = s.cuts ∧ (i ≠ .ends → t.fin = s.fin) ∧
    (i ≠ .endc → i ≠ .ends → t.encoder = s.encoder) ∧
    (i ≠ .endc → i ≠ .ends → i ≠ .flush → t.writer = s.writer) ∧
    (i = .nop ∨ i = .rderr ∨ i = .flush → t.matcher = s.matcher) ∧
    (∀ b, i = .push b → t.matcher.w = s.matcher.w ∧ t.matcher.la = s.matcher.la ∧ t.matcher.cpos = s.matcher.cpos ∧
      t.matcher.sb = s.matcher.sb ∧ t.phase = if t.fault = s.fault then s.phase else .halt) ∧
    ∀ e : Encoder, ∃ u, exec i (s.setEncoder e) = .next u ∧ u.setEncoder t.encoder = t

/-- R61: which operation reaches which space; R30 and U8: the tables are not read before a block has written them. The
rows' effects when presented by themselves are the model's choice (log 7 to log 10). -/
def Obligations.FramesOfTheOtherRows : Prop :=
  ∀ (i : Instr) (s t : State), i.format ≠ .cmd → exec i s = .next t →
    t.fin = s.fin ∧ t.inbox = s.inbox ∧ t.encoder = s.encoder.setDraws t.encoder.draws ∧
    (i.format ≠ .llid → i.format ≠ .did → t.encoder = s.encoder) ∧
    (s.holdsCodes = false → ∀ tl td, exec i (s.setEncoder ((s.encoder.setTl tl).setTd td)) =
      .next (t.setEncoder ((t.encoder.setTl tl).setTd td))) ∧ t.matcher.w = s.matcher.w ∧
    t.matcher.la = s.matcher.la ∧ t.matcher.cb = s.matcher.cb ∧ t.matcher.cpos = s.matcher.cpos ∧
    (i.format = .sym ∨ i.format = .sts → t.writer = s.writer) ∧
    (i.format ≠ .sym → t.matcher.sb = s.matcher.sb) ∧ (i.format ≠ .sts → t.samples = s.samples) ∧
    (i.format = .sts → t.fault = s.fault) ∧ (t.fault = s.fault → t.phase = s.phase) ∧ t.earlier = s.earlier ∧
    t.cuts = s.cuts

/-- R231, with R68 and R69 for the order of the bits. -/
def Obligations.WriteAppendsTheRequestedBits : Prop :=
  ∀ (bits : BitVec 128) (count : Nat) (w : Writer), w.pend.length ≤ 7 →
    (128 < count → wrWrite bits count w = .stop .fRange w) ∧
    (count ≤ 128 → w.sinkTakes (w.bytesDue (msbFirst bits count)) →
      ∃ w', wrWrite bits count w = .ok w' ∧ w.Appended w' (msbFirst bits count) ∧
        w'.pend.length = (w.pend.length + count) % 8) ∧
    (∀ j, count ≤ 128 → j < w.bytesDue (msbFirst bits count) → w.sinkFailsAfter j →
      ∃ w', wrWrite bits count w = .stop .fWrite w' ∧ w.StoppedAfter w' j (msbFirst bits count))

/-- R233. `bits >>> c2` has bits[c1+c2-1 : c2] in its c1 low-order bits, the only ones taken. -/
def Obligations.WriteMayBeSplit : Prop :=
  ∀ (bits : BitVec 128) (c1 c2 : Nat) (w : Writer), c1 + c2 ≤ 128 →
    wrWrite bits (c1 + c2) w = (wrWrite (bits >>> c2) c1 w).andThen (wrWrite bits c2)

/-- R131, R132 and R137. -/
def Obligations.MatchFindTakesTheNearestLongestMatch : Prop :=
  ∀ w la : List Byte, w.length ≤ 32768 → 1 ≤ la.length → la.length ≤ 258 →
    ((∀ start, ¬ agrees w la start 3) → matchFind w la = (.lit ((la.headD 0).setWidth 16), 1)) ∧
    (∀ d l : Nat, 3 ≤ l → 1 ≤ d → d ≤ w.length → agrees w la (w.length - d) l →
      (∀ start l', agrees w la start l' → l' ≤ l) →
      (∀ d', 1 ≤ d' → d' < d → ¬ agrees w la (w.length - d') l) →
      matchFind w la = (.ptr (BitVec.ofNat 16 d) (BitVec.ofNat 16 l), l))

/-- R136 with R67, R26 and R102. -/
def Obligations.MatchChunkConsumesTheChunk : Prop :=
  ∀ m : Matcher, m.sb = [] → m.la = [] → m.cpos = 0 → m.w.length ≤ 32768 →
    (matchChunk m).la = [] ∧ (matchChunk m).cpos = m.cb.length ∧ (matchChunk m).cb = m.cb ∧
    (matchChunk m).w = lastBytes 32768 (m.w ++ m.cb) ∧ (matchChunk m).sb.length ≤ m.cb.length + 1 ∧
    ∃ body, (matchChunk m).sb = body ++ [.lit 256] ∧
      ∀ sym ∈ body, sym.legal = true ∧ sym ≠ .lit 256 ∧ sym ≠ .lit 286

/-- R139 (a) and (c): the symbol-level round trip, the only decodability property (U18). -/
def Obligations.SymbolsRebuildTheChunk : Prop :=
  ∀ w cb : List Byte, w.length ≤ 32768 →
    replay w (chunkSymbols w cb) = w ++ cb ∧ ((chunkSymbols w cb).map Symbol.covers).sum = cb.length

/-- R139 (b). -/
def Obligations.NoRepeatGivesLiteralsOnly : Prop :=
  ∀ cb : List Byte,
    (∀ i j, i < j → j + 3 ≤ cb.length → (cb.drop i).take 3 ≠ (cb.drop j).take 3) →
    chunkSymbols [] cb = cb.map (fun b => .lit (b.setWidth 16)) ++ [.lit 256]

/-- R67. -/
def Obligations.WindowAppendEvictsTheOldest : Prop :=
  ∀ w bs : List Byte, w.length ≤ 32768 → 1 ≤ bs.length → bs.length ≤ 258 →
    (w.length + bs.length ≤ 32768 → winAppend w bs = w ++ bs) ∧
    (32768 < w.length + bs.length →
      winAppend w bs = w.drop (w.length + bs.length - 32768) ++ bs ∧ (winAppend w bs).length = 32768)

/-- R165 and R168. -/
def Obligations.OneLeafTreesGiveNoCode : Prop :=
  ∀ freqs : List (BitVec 32), 1 ≤ freqs.length → (freqs.filter (· ≠ 0)).length ≤ 1 →
    codesOf freqs freqs.length = List.replicate freqs.length ⟨0, 0⟩

/-- R166, R167 "the codes are the paths", and R103; with R201 it gives R205, "TL[286].len >= 1 in every final block".
-/
def Obligations.UsedIdsHaveCodesAndUnusedHaveNone : Prop :=
  ∀ freqs : List (BitVec 32), totalFreq freqs < 2 ^ 32 → 2 ≤ (freqs.filter (· ≠ 0)).length →
    ∀ id, id < freqs.length →
      (freqs.getD id 0 = 0 → codeAt (codesOf freqs freqs.length) id = ⟨0, 0⟩) ∧
      (freqs.getD id 0 ≠ 0 →
        let t := huffBuild freqs freqs.length
        let c := codeAt (codesOf freqs freqs.length) id
        1 ≤ c.len.toNat ∧ (∀ b, c.len.toNat ≤ b → c.bits.getLsbD b = false) ∧
          descend t.node c.decisions t.root = some (.leaf id ((freqs.getD id 0).setWidth 33) id))

/-- R169, with the bound of R37 under which paths fit. -/
def Obligations.CodesArePrefixFreeFromTheRoot : Prop :=
  ∀ freqs : List (BitVec 32), totalFreq freqs < 2 ^ 32 →
    ∀ i j, i < freqs.length → j < freqs.length → i ≠ j → freqs.getD i 0 ≠ 0 → freqs.getD j 0 ≠ 0 →
      let ci := codeAt (codesOf freqs freqs.length) i
      let cj := codeAt (codesOf freqs freqs.length) j
      1 ≤ ci.len.toNat → 1 ≤ cj.len.toNat →
        ¬ ci.decisions <+: cj.decisions ∧ codeBits ci = ci.decisions.reverse

/-- The depth bound of R37 (Fibonacci), which G2 asks a model to hold "as a lemma to prove". -/
def Obligations.CodeLengthsAreAtMost45 : Prop :=
  ∀ freqs : List (BitVec 32), totalFreq freqs < 2 ^ 32 → ∀ c ∈ codesOf freqs freqs.length, c.len.toNat ≤ 45

/-- R37, for the block a chunk makes. -/
def Obligations.BlockCountsStayInBounds : Prop :=
  ∀ (w cb : List Byte) (last : Bool), w.length ≤ 32768 → cb.length ≤ Config.chunkMax →
    let sb := chunkSymbols w cb
    (∀ f ∈ freqLL sb last ++ freqD sb, f.toNat ≤ Config.chunkMax + 1) ∧
    totalFreq (freqLL sb last) ≤ Config.chunkMax + 2 ∧ totalFreq (freqD sb) ≤ Config.chunkMax ∧
    ∀ c ∈ codesOf (freqLL sb last) 287 ++ codesOf (freqD sb) 30, c.len.toNat ≤ 45

/-- R170, which G4 asks a model to hold "as a law to prove about HUFF_BUILD". -/
def Obligations.LargerFrequencyNeverLongerCode : Prop :=
  ∀ freqs : List (BitVec 32), totalFreq freqs < 2 ^ 32 →
    ∀ i j, i < freqs.length → j < freqs.length → freqs.getD j 0 ≠ 0 →
      (freqs.getD j 0).toNat < (freqs.getD i 0).toNat →
      (codeAt (codesOf freqs freqs.length) i).len.toNat ≤ (codeAt (codesOf freqs freqs.length) j).len.toNat

/-- R161 "exactly L - 1 merges and 2L - 1 nodes", the tie-break and order of R162 and R163, the children of R164, R29,
R170. -/
def Obligations.BuiltTreeShape : Prop :=
  ∀ freqs : List (BitVec 32), totalFreq freqs < 2 ^ 32 → 1 ≤ (freqs.filter (· ≠ 0)).length →
    let t := huffBuild freqs freqs.length
    t.node.length = 2 * (freqs.filter (· ≠ 0)).length - 1 ∧ t.root + 1 = t.node.length ∧ t.pq = [] ∧
    (nodeAt t.node t.root).weight.toNat = totalFreq freqs ∧
    t.node.take (freqs.filter (· ≠ 0)).length = leavesOf freqs ∧
    ∀ k, (freqs.filter (· ≠ 0)).length + k < t.node.length → ∃ l r weight,
      let n := (freqs.filter (· ≠ 0)).length + k
      t.node[n]? = some (.internal l r weight (freqs.length + k)) ∧
      weight.toNat = (nodeAt t.node l).weight.toNat + (nodeAt t.node r).weight.toNat ∧
      queuedAt t.node n l ∧ queuedAt t.node n r ∧ (nodeAt t.node l).before (nodeAt t.node r) = true ∧
      ∀ m, queuedAt t.node n m → m ≠ l → m ≠ r → (nodeAt t.node r).before (nodeAt t.node m) = true

/-- R194 and R195. -/
def Obligations.MapsTakeTheGreatestIndex : Prop :=
  (∀ l, 3 ≤ l → l ≤ 258 → ∃ k, lenMap l = some k ∧ k ≤ 28 ∧ lenBase.getD k 0 ≤ l ∧
      ∀ j, j ≤ 28 → lenBase.getD j 0 ≤ l → j ≤ k) ∧
  (∀ l, l < 3 ∨ 258 < l → lenMap l = none) ∧
  (∀ d, 1 ≤ d → d ≤ 32768 → ∃ k, distMap d = some k ∧ k ≤ 29 ∧ distBase.getD k 0 ≤ d ∧
      ∀ j, j ≤ 29 → distBase.getD j 0 ≤ d → j ≤ k) ∧
  (∀ d, d < 1 ∨ 32768 < d → distMap d = none)

/-- R192, R193, R200 and R207. The values are those the spec marks as general knowledge (log 14). -/
def Obligations.ExtraBitsAreValueMinusBaseAndFit : Prop :=
  (∀ l k, lenMap l = some k → lenOffset l k + lenBase.getD k 0 = l ∧ lenOffset l k < 2 ^ lenExtra.getD k 0) ∧
  (∀ d k, distMap d = some k → distOffset d k + distBase.getD k 0 = d ∧ distOffset d k < 2 ^ distExtra.getD k 0) ∧
  lenMap 258 = some 28 ∧ lenExtra.getD 28 0 = 0 ∧ lenOffset 258 28 = 0 ∧ distMap 32768 = some 29 ∧
  extraBits (distOffset 32768 29) (distExtra.getD 29 0) = List.replicate 13 true ∧
  lenBase.length = 29 ∧ lenExtra.length = 29 ∧ distBase.length = 30 ∧ distExtra.length = 30 ∧
  (∀ k, k < 27 → lenBase.getD k 0 + 2 ^ lenExtra.getD k 0 = lenBase.getD (k + 1) 0) ∧
  (∀ k, k < 29 → distBase.getD k 0 + 2 ^ distExtra.getD k 0 = distBase.getD (k + 1) 0) ∧
  lenBase.getD 0 0 = 3 ∧ lenBase.getD 27 0 = 227 ∧ lenExtra.getD 27 0 = 5 ∧ lenBase.getD 28 0 = 258 ∧
  lenExtra.getD 0 0 = 0 ∧ distExtra.getD 0 0 = 0 ∧ distBase.getD 0 0 = 1 ∧ distBase.getD 29 0 = 24577 ∧ distExtra.getD 29 0 = 13

/-- R201. -/
def Obligations.CountGivesTheFrequencies : Prop :=
  ∀ (sb : List Symbol) (e : Encoder), (∀ sym ∈ sb, sym.legal = true) →
    encCount sb e = .ok ((e.setFl (freqLL sb e.isLast)).setFd (freqD sb))

/-- R96 and R203. -/
def Obligations.HeaderIs317FixedFields : Prop :=
  ∀ tl td : List Code, tl.length = 287 → td.length = 30 →
    (headerBits tl td).length = 2536 ∧
    (∀ i, i < 317 → ((headerBits tl td).drop (8 * i)).take 8 = byteBits ((tl ++ td).getD i ⟨0, 0⟩).len) ∧
    ∀ w : Writer, w.pend.length ≤ 7 → w.sinkTakes 317 →
      ∃ w', encHeader tl td w = .ok w' ∧ w.Appended w' (headerBits tl td)

/-- R206, the clear form (Machine/Formats.lean) against the encoder. -/
def Obligations.BlockEncoderWritesTheBlock : Prop :=
  ∀ s : State, (∀ sym ∈ s.matcher.sb, sym.legal = true) → s.matcher.sb.length + 1 < 2 ^ 32 →
    s.writer.pend.length ≤ 7 →
    let bits := blockBits s.matcher.sb s.encoder.isLast
    s.writer.sinkTakes (s.writer.bytesDue bits) →
    ∃ t, encBlock s = .ok t ∧ s.writer.Appended t.writer bits ∧ t.matcher = s.matcher.setSb [] ∧
      t.encoder.isLast = s.encoder.isLast ∧ t.fault = s.fault ∧ t.fin = s.fin

/-- R311, "A reset during a command abandons the command at an unspecified point", and the restart row of R318. The
form of the input and of the point is log 13. -/
def Obligations.ResetDuringACommandAbandonsIt : Prop :=
  ∀ (s : State) (w : PortWord) (rest : List HostInput), s.inbox = .cut w :: rest → ∃ t delivered, step s = .next t ∧
    t.matcher.w = [] ∧ t.matcher.la = [] ∧ t.matcher.cb = [] ∧ t.matcher.cpos = 0 ∧ t.matcher.sb = [] ∧
    t.encoder.isLast = false ∧ t.writer.pend = [] ∧ t.writer.out = [] ∧ t.fault = .fNone ∧ t.fin = false ∧
    t.phase = .idle ∧ t.status = 0x00 ∧ t.inbox = rest ∧
    t.earlier = s.earlier ++ (s.writer.out ++ delivered) ∧
    t.writer.answers = s.writer.answers.drop delivered.length ∧
    (∀ i u, decode w = .instr i → exec i (s.setInbox rest) = .next u →
      ∃ later, u.writer.out = s.writer.out ++ (delivered ++ later)) ∧
    ((∃ r, decode w = .reject r) → delivered = [])

/-- R134, R135 and R136, with R24: the lookahead at chunk position p is CB[p : min(p + 258, |CB|)]. -/
def Obligations.EachSymbolIsTheMatchOfTheNext258Bytes : Prop :=
  (∀ m : Matcher, m.la.length ≤ 258 → m.cpos ≤ m.cb.length → (m.la ≠ [] ∨ m.cpos < m.cb.length) →
    let la := (m.la ++ m.cb.drop m.cpos).take 258
    let r := matchFind m.w la
    matchStep m = { w := winAppend m.w (la.take r.2), la := la.drop r.2, cb := m.cb,
                    cpos := m.cpos + (la.length - m.la.length), sb := m.sb ++ [r.1] }) ∧
  (∀ w : List Byte, chunkSymbols w [] = [.lit 256]) ∧
  (∀ w cb : List Byte, cb ≠ [] →
    let r := matchFind w (cb.take 258)
    chunkSymbols w cb = r.1 :: chunkSymbols (winAppend w (cb.take r.2)) (cb.drop r.2))
end

