-- ==== Sys2Proof/Laws/State.lean ====
section
/-! SUPPORT. Every field of every update of the state, once (all by rfl), so that no proof unfolds an update. -/

namespace Sys2Proof.Machine

@[simp] theorem State.setMatcher_matcher (s : State) (v : Matcher) : (s.setMatcher v).matcher = v := rfl
@[simp] theorem State.setMatcher_encoder (s : State) (v : Matcher) : (s.setMatcher v).encoder = s.encoder := rfl
@[simp] theorem State.setMatcher_writer (s : State) (v : Matcher) : (s.setMatcher v).writer = s.writer := rfl
@[simp] theorem State.setMatcher_fault (s : State) (v : Matcher) : (s.setMatcher v).fault = s.fault := rfl
@[simp] theorem State.setMatcher_fin (s : State) (v : Matcher) : (s.setMatcher v).fin = s.fin := rfl
@[simp] theorem State.setMatcher_phase (s : State) (v : Matcher) : (s.setMatcher v).phase = s.phase := rfl
@[simp] theorem State.setMatcher_inbox (s : State) (v : Matcher) : (s.setMatcher v).inbox = s.inbox := rfl
@[simp] theorem State.setMatcher_samples (s : State) (v : Matcher) : (s.setMatcher v).samples = s.samples := rfl
@[simp] theorem State.setMatcher_earlier (s : State) (v : Matcher) : (s.setMatcher v).earlier = s.earlier := rfl
@[simp] theorem State.setMatcher_cuts (s : State) (v : Matcher) : (s.setMatcher v).cuts = s.cuts := rfl
@[simp] theorem State.setEncoder_matcher (s : State) (v : Encoder) : (s.setEncoder v).matcher = s.matcher := rfl
@[simp] theorem State.setEncoder_encoder (s : State) (v : Encoder) : (s.setEncoder v).encoder = v := rfl
@[simp] theorem State.setEncoder_writer (s : State) (v : Encoder) : (s.setEncoder v).writer = s.writer := rfl
@[simp] theorem State.setEncoder_fault (s : State) (v : Encoder) : (s.setEncoder v).fault = s.fault := rfl
@[simp] theorem State.setEncoder_fin (s : State) (v : Encoder) : (s.setEncoder v).fin = s.fin := rfl
@[simp] theorem State.setEncoder_phase (s : State) (v : Encoder) : (s.setEncoder v).phase = s.phase := rfl
@[simp] theorem State.setEncoder_inbox (s : State) (v : Encoder) : (s.setEncoder v).inbox = s.inbox := rfl
@[simp] theorem State.setEncoder_samples (s : State) (v : Encoder) : (s.setEncoder v).samples = s.samples := rfl
@[simp] theorem State.setEncoder_earlier (s : State) (v : Encoder) : (s.setEncoder v).earlier = s.earlier := rfl
@[simp] theorem State.setEncoder_cuts (s : State) (v : Encoder) : (s.setEncoder v).cuts = s.cuts := rfl
@[simp] theorem State.setWriter_matcher (s : State) (v : Writer) : (s.setWriter v).matcher = s.matcher := rfl
@[simp] theorem State.setWriter_encoder (s : State) (v : Writer) : (s.setWriter v).encoder = s.encoder := rfl
@[simp] theorem State.setWriter_writer (s : State) (v : Writer) : (s.setWriter v).writer = v := rfl
@[simp] theorem State.setWriter_fault (s : State) (v : Writer) : (s.setWriter v).fault = s.fault := rfl
@[simp] theorem State.setWriter_fin (s : State) (v : Writer) : (s.setWriter v).fin = s.fin := rfl
@[simp] theorem State.setWriter_phase (s : State) (v : Writer) : (s.setWriter v).phase = s.phase := rfl
@[simp] theorem State.setWriter_inbox (s : State) (v : Writer) : (s.setWriter v).inbox = s.inbox := rfl
@[simp] theorem State.setWriter_samples (s : State) (v : Writer) : (s.setWriter v).samples = s.samples := rfl
@[simp] theorem State.setWriter_earlier (s : State) (v : Writer) : (s.setWriter v).earlier = s.earlier := rfl
@[simp] theorem State.setWriter_cuts (s : State) (v : Writer) : (s.setWriter v).cuts = s.cuts := rfl
@[simp] theorem State.setFault_matcher (s : State) (v : FaultCode) : (s.setFault v).matcher = s.matcher := rfl
@[simp] theorem State.setFault_encoder (s : State) (v : FaultCode) : (s.setFault v).encoder = s.encoder := rfl
@[simp] theorem State.setFault_writer (s : State) (v : FaultCode) : (s.setFault v).writer = s.writer := rfl
@[simp] theorem State.setFault_fault (s : State) (v : FaultCode) : (s.setFault v).fault = v := rfl
@[simp] theorem State.setFault_fin (s : State) (v : FaultCode) : (s.setFault v).fin = s.fin := rfl
@[simp] theorem State.setFault_phase (s : State) (v : FaultCode) : (s.setFault v).phase = s.phase := rfl
@[simp] theorem State.setFault_inbox (s : State) (v : FaultCode) : (s.setFault v).inbox = s.inbox := rfl
@[simp] theorem State.setFault_samples (s : State) (v : FaultCode) : (s.setFault v).samples = s.samples := rfl
@[simp] theorem State.setFault_earlier (s : State) (v : FaultCode) : (s.setFault v).earlier = s.earlier := rfl
@[simp] theorem State.setFault_cuts (s : State) (v : FaultCode) : (s.setFault v).cuts = s.cuts := rfl
@[simp] theorem State.setFin_matcher (s : State) (v : Bool) : (s.setFin v).matcher = s.matcher := rfl
@[simp] theorem State.setFin_encoder (s : State) (v : Bool) : (s.setFin v).encoder = s.encoder := rfl
@[simp] theorem State.setFin_writer (s : State) (v : Bool) : (s.setFin v).writer = s.writer := rfl
@[simp] theorem State.setFin_fault (s : State) (v : Bool) : (s.setFin v).fault = s.fault := rfl
@[simp] theorem State.setFin_fin (s : State) (v : Bool) : (s.setFin v).fin = v := rfl
@[simp] theorem State.setFin_phase (s : State) (v : Bool) : (s.setFin v).phase = s.phase := rfl
@[simp] theorem State.setFin_inbox (s : State) (v : Bool) : (s.setFin v).inbox = s.inbox := rfl
@[simp] theorem State.setFin_samples (s : State) (v : Bool) : (s.setFin v).samples = s.samples := rfl
@[simp] theorem State.setFin_earlier (s : State) (v : Bool) : (s.setFin v).earlier = s.earlier := rfl
@[simp] theorem State.setFin_cuts (s : State) (v : Bool) : (s.setFin v).cuts = s.cuts := rfl
@[simp] theorem State.setPhase_matcher (s : State) (v : Phase) : (s.setPhase v).matcher = s.matcher := rfl
@[simp] theorem State.setPhase_encoder (s : State) (v : Phase) : (s.setPhase v).encoder = s.encoder := rfl
@[simp] theorem State.setPhase_writer (s : State) (v : Phase) : (s.setPhase v).writer = s.writer := rfl
@[simp] theorem State.setPhase_fault (s : State) (v : Phase) : (s.setPhase v).fault = s.fault := rfl
@[simp] theorem State.setPhase_fin (s : State) (v : Phase) : (s.setPhase v).fin = s.fin := rfl
@[simp] theorem State.setPhase_phase (s : State) (v : Phase) : (s.setPhase v).phase = v := rfl
@[simp] theorem State.setPhase_inbox (s : State) (v : Phase) : (s.setPhase v).inbox = s.inbox := rfl
@[simp] theorem State.setPhase_samples (s : State) (v : Phase) : (s.setPhase v).samples = s.samples := rfl
@[simp] theorem State.setPhase_earlier (s : State) (v : Phase) : (s.setPhase v).earlier = s.earlier := rfl
@[simp] theorem State.setPhase_cuts (s : State) (v : Phase) : (s.setPhase v).cuts = s.cuts := rfl
@[simp] theorem State.setInbox_matcher (s : State) (v : List HostInput) : (s.setInbox v).matcher = s.matcher := rfl
@[simp] theorem State.setInbox_encoder (s : State) (v : List HostInput) : (s.setInbox v).encoder = s.encoder := rfl
@[simp] theorem State.setInbox_writer (s : State) (v : List HostInput) : (s.setInbox v).writer = s.writer := rfl
@[simp] theorem State.setInbox_fault (s : State) (v : List HostInput) : (s.setInbox v).fault = s.fault := rfl
@[simp] theorem State.setInbox_fin (s : State) (v : List HostInput) : (s.setInbox v).fin = s.fin := rfl
@[simp] theorem State.setInbox_phase (s : State) (v : List HostInput) : (s.setInbox v).phase = s.phase := rfl
@[simp] theorem State.setInbox_inbox (s : State) (v : List HostInput) : (s.setInbox v).inbox = v := rfl
@[simp] theorem State.setInbox_samples (s : State) (v : List HostInput) : (s.setInbox v).samples = s.samples := rfl
@[simp] theorem State.setInbox_earlier (s : State) (v : List HostInput) : (s.setInbox v).earlier = s.earlier := rfl
@[simp] theorem State.setInbox_cuts (s : State) (v : List HostInput) : (s.setInbox v).cuts = s.cuts := rfl
@[simp] theorem State.setSamples_matcher (s : State) (v : List (BitVec 8)) : (s.setSamples v).matcher = s.matcher := rfl
@[simp] theorem State.setSamples_encoder (s : State) (v : List (BitVec 8)) : (s.setSamples v).encoder = s.encoder := rfl
@[simp] theorem State.setSamples_writer (s : State) (v : List (BitVec 8)) : (s.setSamples v).writer = s.writer := rfl
@[simp] theorem State.setSamples_fault (s : State) (v : List (BitVec 8)) : (s.setSamples v).fault = s.fault := rfl
@[simp] theorem State.setSamples_fin (s : State) (v : List (BitVec 8)) : (s.setSamples v).fin = s.fin := rfl
@[simp] theorem State.setSamples_phase (s : State) (v : List (BitVec 8)) : (s.setSamples v).phase = s.phase := rfl
@[simp] theorem State.setSamples_inbox (s : State) (v : List (BitVec 8)) : (s.setSamples v).inbox = s.inbox := rfl
@[simp] theorem State.setSamples_samples (s : State) (v : List (BitVec 8)) : (s.setSamples v).samples = v := rfl
@[simp] theorem State.setSamples_earlier (s : State) (v : List (BitVec 8)) : (s.setSamples v).earlier = s.earlier := rfl
@[simp] theorem State.setSamples_cuts (s : State) (v : List (BitVec 8)) : (s.setSamples v).cuts = s.cuts := rfl
@[simp] theorem State.setEarlier_matcher (s : State) (v : List SinkEvent) : (s.setEarlier v).matcher = s.matcher := rfl
@[simp] theorem State.setEarlier_encoder (s : State) (v : List SinkEvent) : (s.setEarlier v).encoder = s.encoder := rfl
@[simp] theorem State.setEarlier_writer (s : State) (v : List SinkEvent) : (s.setEarlier v).writer = s.writer := rfl
@[simp] theorem State.setEarlier_fault (s : State) (v : List SinkEvent) : (s.setEarlier v).fault = s.fault := rfl
@[simp] theorem State.setEarlier_fin (s : State) (v : List SinkEvent) : (s.setEarlier v).fin = s.fin := rfl
@[simp] theorem State.setEarlier_phase (s : State) (v : List SinkEvent) : (s.setEarlier v).phase = s.phase := rfl
@[simp] theorem State.setEarlier_inbox (s : State) (v : List SinkEvent) : (s.setEarlier v).inbox = s.inbox := rfl
@[simp] theorem State.setEarlier_samples (s : State) (v : List SinkEvent) : (s.setEarlier v).samples = s.samples := rfl
@[simp] theorem State.setEarlier_earlier (s : State) (v : List SinkEvent) : (s.setEarlier v).earlier = v := rfl
@[simp] theorem State.setEarlier_cuts (s : State) (v : List SinkEvent) : (s.setEarlier v).cuts = s.cuts := rfl
@[simp] theorem State.setCuts_matcher (s : State) (v : Nat) : (s.setCuts v).matcher = s.matcher := rfl
@[simp] theorem State.setCuts_encoder (s : State) (v : Nat) : (s.setCuts v).encoder = s.encoder := rfl
@[simp] theorem State.setCuts_writer (s : State) (v : Nat) : (s.setCuts v).writer = s.writer := rfl
@[simp] theorem State.setCuts_fault (s : State) (v : Nat) : (s.setCuts v).fault = s.fault := rfl
@[simp] theorem State.setCuts_fin (s : State) (v : Nat) : (s.setCuts v).fin = s.fin := rfl
@[simp] theorem State.setCuts_phase (s : State) (v : Nat) : (s.setCuts v).phase = s.phase := rfl
@[simp] theorem State.setCuts_inbox (s : State) (v : Nat) : (s.setCuts v).inbox = s.inbox := rfl
@[simp] theorem State.setCuts_samples (s : State) (v : Nat) : (s.setCuts v).samples = s.samples := rfl
@[simp] theorem State.setCuts_earlier (s : State) (v : Nat) : (s.setCuts v).earlier = s.earlier := rfl
@[simp] theorem State.setCuts_cuts (s : State) (v : Nat) : (s.setCuts v).cuts = v := rfl

@[simp] theorem Matcher.setW_w (s : Matcher) (v : List Byte) : (s.setW v).w = v := rfl
@[simp] theorem Matcher.setW_la (s : Matcher) (v : List Byte) : (s.setW v).la = s.la := rfl
@[simp] theorem Matcher.setW_cb (s : Matcher) (v : List Byte) : (s.setW v).cb = s.cb := rfl
@[simp] theorem Matcher.setW_cpos (s : Matcher) (v : List Byte) : (s.setW v).cpos = s.cpos := rfl
@[simp] theorem Matcher.setW_sb (s : Matcher) (v : List Byte) : (s.setW v).sb = s.sb := rfl
@[simp] theorem Matcher.setLa_w (s : Matcher) (v : List Byte) : (s.setLa v).w = s.w := rfl
@[simp] theorem Matcher.setLa_la (s : Matcher) (v : List Byte) : (s.setLa v).la = v := rfl
@[simp] theorem Matcher.setLa_cb (s : Matcher) (v : List Byte) : (s.setLa v).cb = s.cb := rfl
@[simp] theorem Matcher.setLa_cpos (s : Matcher) (v : List Byte) : (s.setLa v).cpos = s.cpos := rfl
@[simp] theorem Matcher.setLa_sb (s : Matcher) (v : List Byte) : (s.setLa v).sb = s.sb := rfl
@[simp] theorem Matcher.setCb_w (s : Matcher) (v : List Byte) : (s.setCb v).w = s.w := rfl
@[simp] theorem Matcher.setCb_la (s : Matcher) (v : List Byte) : (s.setCb v).la = s.la := rfl
@[simp] theorem Matcher.setCb_cb (s : Matcher) (v : List Byte) : (s.setCb v).cb = v := rfl
@[simp] theorem Matcher.setCb_cpos (s : Matcher) (v : List Byte) : (s.setCb v).cpos = s.cpos := rfl
@[simp] theorem Matcher.setCb_sb (s : Matcher) (v : List Byte) : (s.setCb v).sb = s.sb := rfl
@[simp] theorem Matcher.setCpos_w (s : Matcher) (v : Nat) : (s.setCpos v).w = s.w := rfl
@[simp] theorem Matcher.setCpos_la (s : Matcher) (v : Nat) : (s.setCpos v).la = s.la := rfl
@[simp] theorem Matcher.setCpos_cb (s : Matcher) (v : Nat) : (s.setCpos v).cb = s.cb := rfl
@[simp] theorem Matcher.setCpos_cpos (s : Matcher) (v : Nat) : (s.setCpos v).cpos = v := rfl
@[simp] theorem Matcher.setCpos_sb (s : Matcher) (v : Nat) : (s.setCpos v).sb = s.sb := rfl
@[simp] theorem Matcher.setSb_w (s : Matcher) (v : List Symbol) : (s.setSb v).w = s.w := rfl
@[simp] theorem Matcher.setSb_la (s : Matcher) (v : List Symbol) : (s.setSb v).la = s.la := rfl
@[simp] theorem Matcher.setSb_cb (s : Matcher) (v : List Symbol) : (s.setSb v).cb = s.cb := rfl
@[simp] theorem Matcher.setSb_cpos (s : Matcher) (v : List Symbol) : (s.setSb v).cpos = s.cpos := rfl
@[simp] theorem Matcher.setSb_sb (s : Matcher) (v : List Symbol) : (s.setSb v).sb = v := rfl

@[simp] theorem Encoder.setIsLast_isLast (s : Encoder) (v : Bool) : (s.setIsLast v).isLast = v := rfl
@[simp] theorem Encoder.setIsLast_fl (s : Encoder) (v : Bool) : (s.setIsLast v).fl = s.fl := rfl
@[simp] theorem Encoder.setIsLast_fd (s : Encoder) (v : Bool) : (s.setIsLast v).fd = s.fd := rfl
@[simp] theorem Encoder.setIsLast_node (s : Encoder) (v : Bool) : (s.setIsLast v).node = s.node := rfl
@[simp] theorem Encoder.setIsLast_pq (s : Encoder) (v : Bool) : (s.setIsLast v).pq = s.pq := rfl
@[simp] theorem Encoder.setIsLast_tl (s : Encoder) (v : Bool) : (s.setIsLast v).tl = s.tl := rfl
@[simp] theorem Encoder.setIsLast_td (s : Encoder) (v : Bool) : (s.setIsLast v).td = s.td := rfl
@[simp] theorem Encoder.setIsLast_draws (s : Encoder) (v : Bool) : (s.setIsLast v).draws = s.draws := rfl
@[simp] theorem Encoder.setFl_isLast (s : Encoder) (v : List (BitVec 32)) : (s.setFl v).isLast = s.isLast := rfl
@[simp] theorem Encoder.setFl_fl (s : Encoder) (v : List (BitVec 32)) : (s.setFl v).fl = v := rfl
@[simp] theorem Encoder.setFl_fd (s : Encoder) (v : List (BitVec 32)) : (s.setFl v).fd = s.fd := rfl
@[simp] theorem Encoder.setFl_node (s : Encoder) (v : List (BitVec 32)) : (s.setFl v).node = s.node := rfl
@[simp] theorem Encoder.setFl_pq (s : Encoder) (v : List (BitVec 32)) : (s.setFl v).pq = s.pq := rfl
@[simp] theorem Encoder.setFl_tl (s : Encoder) (v : List (BitVec 32)) : (s.setFl v).tl = s.tl := rfl
@[simp] theorem Encoder.setFl_td (s : Encoder) (v : List (BitVec 32)) : (s.setFl v).td = s.td := rfl
@[simp] theorem Encoder.setFl_draws (s : Encoder) (v : List (BitVec 32)) : (s.setFl v).draws = s.draws := rfl
@[simp] theorem Encoder.setFd_isLast (s : Encoder) (v : List (BitVec 32)) : (s.setFd v).isLast = s.isLast := rfl
@[simp] theorem Encoder.setFd_fl (s : Encoder) (v : List (BitVec 32)) : (s.setFd v).fl = s.fl := rfl
@[simp] theorem Encoder.setFd_fd (s : Encoder) (v : List (BitVec 32)) : (s.setFd v).fd = v := rfl
@[simp] theorem Encoder.setFd_node (s : Encoder) (v : List (BitVec 32)) : (s.setFd v).node = s.node := rfl
@[simp] theorem Encoder.setFd_pq (s : Encoder) (v : List (BitVec 32)) : (s.setFd v).pq = s.pq := rfl
@[simp] theorem Encoder.setFd_tl (s : Encoder) (v : List (BitVec 32)) : (s.setFd v).tl = s.tl := rfl
@[simp] theorem Encoder.setFd_td (s : Encoder) (v : List (BitVec 32)) : (s.setFd v).td = s.td := rfl
@[simp] theorem Encoder.setFd_draws (s : Encoder) (v : List (BitVec 32)) : (s.setFd v).draws = s.draws := rfl
@[simp] theorem Encoder.setNode_isLast (s : Encoder) (v : List Node) : (s.setNode v).isLast = s.isLast := rfl
@[simp] theorem Encoder.setNode_fl (s : Encoder) (v : List Node) : (s.setNode v).fl = s.fl := rfl
@[simp] theorem Encoder.setNode_fd (s : Encoder) (v : List Node) : (s.setNode v).fd = s.fd := rfl
@[simp] theorem Encoder.setNode_node (s : Encoder) (v : List Node) : (s.setNode v).node = v := rfl
@[simp] theorem Encoder.setNode_pq (s : Encoder) (v : List Node) : (s.setNode v).pq = s.pq := rfl
@[simp] theorem Encoder.setNode_tl (s : Encoder) (v : List Node) : (s.setNode v).tl = s.tl := rfl
@[simp] theorem Encoder.setNode_td (s : Encoder) (v : List Node) : (s.setNode v).td = s.td := rfl
@[simp] theorem Encoder.setNode_draws (s : Encoder) (v : List Node) : (s.setNode v).draws = s.draws := rfl
@[simp] theorem Encoder.setPq_isLast (s : Encoder) (v : List Nat) : (s.setPq v).isLast = s.isLast := rfl
@[simp] theorem Encoder.setPq_fl (s : Encoder) (v : List Nat) : (s.setPq v).fl = s.fl := rfl
@[simp] theorem Encoder.setPq_fd (s : Encoder) (v : List Nat) : (s.setPq v).fd = s.fd := rfl
@[simp] theorem Encoder.setPq_node (s : Encoder) (v : List Nat) : (s.setPq v).node = s.node := rfl
@[simp] theorem Encoder.setPq_pq (s : Encoder) (v : List Nat) : (s.setPq v).pq = v := rfl
@[simp] theorem Encoder.setPq_tl (s : Encoder) (v : List Nat) : (s.setPq v).tl = s.tl := rfl
@[simp] theorem Encoder.setPq_td (s : Encoder) (v : List Nat) : (s.setPq v).td = s.td := rfl
@[simp] theorem Encoder.setPq_draws (s : Encoder) (v : List Nat) : (s.setPq v).draws = s.draws := rfl
@[simp] theorem Encoder.setTl_isLast (s : Encoder) (v : List Code) : (s.setTl v).isLast = s.isLast := rfl
@[simp] theorem Encoder.setTl_fl (s : Encoder) (v : List Code) : (s.setTl v).fl = s.fl := rfl
@[simp] theorem Encoder.setTl_fd (s : Encoder) (v : List Code) : (s.setTl v).fd = s.fd := rfl
@[simp] theorem Encoder.setTl_node (s : Encoder) (v : List Code) : (s.setTl v).node = s.node := rfl
@[simp] theorem Encoder.setTl_pq (s : Encoder) (v : List Code) : (s.setTl v).pq = s.pq := rfl
@[simp] theorem Encoder.setTl_tl (s : Encoder) (v : List Code) : (s.setTl v).tl = v := rfl
@[simp] theorem Encoder.setTl_td (s : Encoder) (v : List Code) : (s.setTl v).td = s.td := rfl
@[simp] theorem Encoder.setTl_draws (s : Encoder) (v : List Code) : (s.setTl v).draws = s.draws := rfl
@[simp] theorem Encoder.setTd_isLast (s : Encoder) (v : List Code) : (s.setTd v).isLast = s.isLast := rfl
@[simp] theorem Encoder.setTd_fl (s : Encoder) (v : List Code) : (s.setTd v).fl = s.fl := rfl
@[simp] theorem Encoder.setTd_fd (s : Encoder) (v : List Code) : (s.setTd v).fd = s.fd := rfl
@[simp] theorem Encoder.setTd_node (s : Encoder) (v : List Code) : (s.setTd v).node = s.node := rfl
@[simp] theorem Encoder.setTd_pq (s : Encoder) (v : List Code) : (s.setTd v).pq = s.pq := rfl
@[simp] theorem Encoder.setTd_tl (s : Encoder) (v : List Code) : (s.setTd v).tl = s.tl := rfl
@[simp] theorem Encoder.setTd_td (s : Encoder) (v : List Code) : (s.setTd v).td = v := rfl
@[simp] theorem Encoder.setTd_draws (s : Encoder) (v : List Code) : (s.setTd v).draws = s.draws := rfl
@[simp] theorem Encoder.setDraws_isLast (s : Encoder) (v : Nat) : (s.setDraws v).isLast = s.isLast := rfl
@[simp] theorem Encoder.setDraws_fl (s : Encoder) (v : Nat) : (s.setDraws v).fl = s.fl := rfl
@[simp] theorem Encoder.setDraws_fd (s : Encoder) (v : Nat) : (s.setDraws v).fd = s.fd := rfl
@[simp] theorem Encoder.setDraws_node (s : Encoder) (v : Nat) : (s.setDraws v).node = s.node := rfl
@[simp] theorem Encoder.setDraws_pq (s : Encoder) (v : Nat) : (s.setDraws v).pq = s.pq := rfl
@[simp] theorem Encoder.setDraws_tl (s : Encoder) (v : Nat) : (s.setDraws v).tl = s.tl := rfl
@[simp] theorem Encoder.setDraws_td (s : Encoder) (v : Nat) : (s.setDraws v).td = s.td := rfl
@[simp] theorem Encoder.setDraws_draws (s : Encoder) (v : Nat) : (s.setDraws v).draws = v := rfl

@[simp] theorem Writer.setPend_pend (s : Writer) (v : List Bool) : (s.setPend v).pend = v := rfl
@[simp] theorem Writer.setPend_out (s : Writer) (v : List Bool) : (s.setPend v).out = s.out := rfl
@[simp] theorem Writer.setPend_answers (s : Writer) (v : List Bool) : (s.setPend v).answers = s.answers := rfl
@[simp] theorem Writer.setPend_draws (s : Writer) (v : List Bool) : (s.setPend v).draws = s.draws := rfl
@[simp] theorem Writer.setOut_pend (s : Writer) (v : List SinkEvent) : (s.setOut v).pend = s.pend := rfl
@[simp] theorem Writer.setOut_out (s : Writer) (v : List SinkEvent) : (s.setOut v).out = v := rfl
@[simp] theorem Writer.setOut_answers (s : Writer) (v : List SinkEvent) : (s.setOut v).answers = s.answers := rfl
@[simp] theorem Writer.setOut_draws (s : Writer) (v : List SinkEvent) : (s.setOut v).draws = s.draws := rfl
@[simp] theorem Writer.setAnswers_pend (s : Writer) (v : List SinkAnswer) : (s.setAnswers v).pend = s.pend := rfl
@[simp] theorem Writer.setAnswers_out (s : Writer) (v : List SinkAnswer) : (s.setAnswers v).out = s.out := rfl
@[simp] theorem Writer.setAnswers_answers (s : Writer) (v : List SinkAnswer) : (s.setAnswers v).answers = v := rfl
@[simp] theorem Writer.setAnswers_draws (s : Writer) (v : List SinkAnswer) : (s.setAnswers v).draws = s.draws := rfl
@[simp] theorem Writer.setDraws_pend (s : Writer) (v : Nat) : (s.setDraws v).pend = s.pend := rfl
@[simp] theorem Writer.setDraws_out (s : Writer) (v : Nat) : (s.setDraws v).out = s.out := rfl
@[simp] theorem Writer.setDraws_answers (s : Writer) (v : Nat) : (s.setDraws v).answers = s.answers := rfl
@[simp] theorem Writer.setDraws_draws (s : Writer) (v : Nat) : (s.setDraws v).draws = v := rfl

end Sys2Proof.Machine
end

