-- ==== Sys2Proof/Laws/Ops.lean ====
section
/-! SUPPORT. What each shared operation of Machine/Ops.lean can do, said once. -/

namespace Sys2Proof.Machine

/-! ### Operations that may raise a fault -/

@[simp] theorem Res.andThen_ok {α : Type} (a : α) (f : α → Res α) : (Res.ok a).andThen f = f a := rfl
@[simp] theorem Res.andThen_stop {α : Type} (c : FaultCode) (a : α) (f : α → Res α) :
    (Res.stop c a).andThen f = .stop c a := rfl
@[simp] theorem Res.map_ok {α β : Type} (a : α) (f : α → β) : (Res.ok a).map f = .ok (f a) := rfl
@[simp] theorem Res.map_stop {α β : Type} (c : FaultCode) (a : α) (f : α → β) :
    (Res.stop c a).map f = .stop c (f a) := rfl
@[simp] theorem Res.state_ok {α : Type} (a : α) : (Res.ok a).state = a := rfl
@[simp] theorem Res.state_stop {α : Type} (c : FaultCode) (a : α) : (Res.stop c a).state = a := rfl

theorem Res.andThen_assoc {α : Type} (r : Res α) (f g : α → Res α) :
    (r.andThen f).andThen g = r.andThen fun a => (f a).andThen g := by
  cases r <;> rfl

/-- A sequence completes exactly when both parts do. -/
theorem Res.andThen_eq_ok {α : Type} {r : Res α} {f : α → Res α} {b : α} :
    r.andThen f = .ok b ↔ ∃ a, r = .ok a ∧ f a = .ok b := by
  cases r <;> simp [Res.andThen]

/-- A sequence stops where its first part stops, or else where the second does. -/
theorem Res.andThen_eq_stop {α : Type} {r : Res α} {f : α → Res α} {c : FaultCode} {b : α} :
    r.andThen f = .stop c b ↔ r = .stop c b ∨ ∃ a, r = .ok a ∧ f a = .stop c b := by
  cases r <;> simp [Res.andThen]

/-- If each part of a sequence relates what it got to what it left, and the
relation composes, the sequence does so too. -/
theorem Res.andThen_state {α : Type} {R : α → α → Prop} (trans : ∀ a b c, R a b → R b c → R a c)
    {x : α} {r : Res α} {f : α → Res α} (hr : R x r.state) (hf : ∀ a, r = .ok a → R a (f a).state) :
    R x (r.andThen f).state := by
  cases r with
  | ok a => exact trans _ _ _ hr (hf a rfl)
  | stop c a => exact hr

@[simp] theorem settle_ok (s : State) : settle (.ok s) = .next s := rfl
@[simp] theorem settle_stop (c : FaultCode) (s : State) : settle (.stop c s) = .next (raise c s) := rfl

/-- However an operation ends, the machine has a next state (R260). -/
theorem settle_next (r : Res State) : ∃ t, settle r = .next t := by
  cases r <;> exact ⟨_, rfl⟩

/-- The fault entry, with FAULT = 0 (R284). -/
theorem raise_of_none {c : FaultCode} {s : State} (h : s.fault = .fNone) :
    raise c s = (s.setFault c).setPhase .halt := by
  simp [raise, h]

/-- FAULT is never overwritten (R284). -/
theorem raise_of_fault {c : FaultCode} {s : State} (h : s.fault ≠ .fNone) : raise c s = s := by
  simp [raise, h]

@[simp] theorem raise_matcher (c : FaultCode) (s : State) : (raise c s).matcher = s.matcher := by
  unfold raise; split <;> rfl
@[simp] theorem raise_encoder (c : FaultCode) (s : State) : (raise c s).encoder = s.encoder := by
  unfold raise; split <;> rfl
@[simp] theorem raise_writer (c : FaultCode) (s : State) : (raise c s).writer = s.writer := by
  unfold raise; split <;> rfl
@[simp] theorem raise_fin (c : FaultCode) (s : State) : (raise c s).fin = s.fin := by
  unfold raise; split <;> rfl
@[simp] theorem raise_inbox (c : FaultCode) (s : State) : (raise c s).inbox = s.inbox := by
  unfold raise; split <;> rfl
@[simp] theorem raise_samples (c : FaultCode) (s : State) : (raise c s).samples = s.samples := by
  unfold raise; split <;> rfl

@[simp] theorem raise_earlier (c : FaultCode) (s : State) : (raise c s).earlier = s.earlier := by
  unfold raise; split <;> rfl
@[simp] theorem raise_cuts (c : FaultCode) (s : State) : (raise c s).cuts = s.cuts := by
  unfold raise; split <;> rfl

/-! ### Accepting a command -/

/-- A faulted CORE discards a command (R252). -/
theorem command_faulted {b : Bool} {f : State → Res State} {s : State} (h : s.fault ≠ .fNone) :
    command b f s = .next s := by
  simp [command, h]

/-- With FIN = 1 a command not marked for it raises F_CMD (R253). -/
theorem command_finished {f : State → Res State} {s : State} (h : s.fault = .fNone) (hf : s.fin = true) :
    command false f s = .next (raise .fCmd s) := by
  simp [command, h, hf]

/-- Otherwise the command's own rule runs (R253). -/
theorem command_runs {b : Bool} {f : State → Res State} {s : State} (h : s.fault = .fNone)
    (hf : s.fin = false ∨ b = true) : command b f s = settle (f s) := by
  rcases hf with hf | hf <;> simp [command, h, hf]

/-- Everything command admission can answer (R252, R253). -/
theorem command_cases (b : Bool) (f : State → Res State) (s : State) :
    (s.fault ≠ .fNone ∧ command b f s = .next s) ∨
    (s.fault = .fNone ∧ s.fin = true ∧ b = false ∧ command b f s = .next (raise .fCmd s)) ∨
    (s.fault = .fNone ∧ (s.fin = false ∨ b = true) ∧ command b f s = settle (f s)) := by
  by_cases h : s.fault = .fNone
  · cases hf : s.fin <;> cases b <;> simp [command, h, hf]
  · exact .inl ⟨h, command_faulted h⟩

/-- Everything a unit operation presented by itself can answer. -/
theorem unitOp_cases (f : State → Res State) (s : State) :
    (s.fault ≠ .fNone ∧ unitOp f s = .next s) ∨ (s.fault = .fNone ∧ unitOp f s = settle (f s)) := by
  by_cases h : s.fault = .fNone
  · exact .inr ⟨h, by simp [unitOp, h]⟩
  · exact .inl ⟨h, by simp [unitOp, h]⟩

theorem unitOp_runs {f : State → Res State} {s : State} (h : s.fault = .fNone) : unitOp f s = settle (f s) := by
  simp [unitOp, h]

theorem unitOp_faulted {f : State → Res State} {s : State} (h : s.fault ≠ .fNone) : unitOp f s = .next s := by
  simp [unitOp, h]

theorem command_next (b : Bool) (f : State → Res State) (s : State) : ∃ t, command b f s = .next t := by
  rcases command_cases b f s with ⟨-, h⟩ | ⟨-, -, -, h⟩ | ⟨-, -, h⟩
  · exact ⟨_, h⟩
  · exact ⟨_, h⟩
  · rw [h]; exact settle_next _

theorem unitOp_next (f : State → Res State) (s : State) : ∃ t, unitOp f s = .next t := by
  rcases unitOp_cases f s with ⟨-, h⟩ | ⟨-, h⟩
  · exact ⟨_, h⟩
  · rw [h]; exact settle_next _

/-- A rejected word: no effect in a faulted CORE or on the status port, else its fault (R101, R102). -/
theorem refuseWord_next (r : Reject) (s : State) : ∃ t, refuseWord r s = .next t := by
  unfold refuseWord
  split
  · exact ⟨_, rfl⟩
  · exact unitOp_next _ _

/-! ### The parameter CHUNK_MAX and the window -/

/-- The constraint of D3, at its lower end. -/
theorem chunkMax_pos : 0 < Config.chunkMax := by
  have := Config.chunkMaxBelow.isLt
  simp only [Config.chunkMax]
  omega

/-- The constraint of D3, at its upper end. -/
theorem chunkMax_lt : Config.chunkMax + 2 < 2 ^ 32 := by
  simp only [Config.chunkMax]
  omega

/-- The window never exceeds its capacity after an append (R23, R67). -/
theorem winAppend_length (w bs : List Byte) : (winAppend w bs).length = min (w.length + bs.length) wCap := by
  simp only [winAppend, List.length_drop, List.length_append]
  omega

/-- Two appends are one append of the joined bytes: the window is the most recent bytes of everything appended. -/
theorem winAppend_append (w as bs : List Byte) : winAppend (winAppend w as) bs = winAppend w (as ++ bs) := by
  have key : ∀ (l m : List Byte) (n : Nat),
      (l.drop (l.length - n) ++ m).drop ((l.drop (l.length - n) ++ m).length - n) =
        (l ++ m).drop ((l ++ m).length - n) := by
    intro l m n
    have h : l.drop (l.length - n) ++ m = (l ++ m).drop (l.length - n) := by
      rw [List.drop_append_of_le_length (by omega)]
    rw [h, List.drop_drop]
    congr 1
    simp only [List.length_drop, List.length_append]
    omega
  simpa [winAppend, List.append_assoc] using key (w ++ as) bs wCap

/-! ### The sink -/

@[simp] theorem dropAnswer_pend (w : Writer) : w.dropAnswer.pend = w.pend := by
  unfold Writer.dropAnswer; split <;> rfl
@[simp] theorem dropAnswer_out (w : Writer) : w.dropAnswer.out = w.out := by
  unfold Writer.dropAnswer; split <;> rfl

/-- Everything an offer to the sink can do (R70, R71, R285): the event is in OUT, or F_WRITE and OUT as before. -/
theorem offer_cases (ev : SinkEvent) (w : Writer) :
    (w.nextAnswer = .ok ∧ offer ev w = .ok (w.dropAnswer.setOut (w.out ++ [ev]))) ∨
    (w.nextAnswer = .fail ∧ offer ev w = .stop .fWrite w.dropAnswer) := by
  unfold offer
  cases h : w.nextAnswer
  · exact .inl ⟨rfl, rfl⟩
  · exact .inr ⟨rfl, rfl⟩

/-- When the sink's next answer is given, it is used. -/
theorem nextAnswer_of_cons {w : Writer} {a : SinkAnswer} {rest : List SinkAnswer} (h : w.answers = a :: rest) :
    w.nextAnswer = a ∧ w.dropAnswer = w.setAnswers rest := by
  constructor <;> simp [Writer.nextAnswer, Writer.dropAnswer, h]

/-- An offer the sink takes. -/
theorem offer_ok {ev : SinkEvent} {w : Writer} {rest : List SinkAnswer} (h : w.answers = .ok :: rest) :
    offer ev w = .ok ((w.setAnswers rest).setOut (w.out ++ [ev])) := by
  obtain ⟨h1, h2⟩ := nextAnswer_of_cons h
  simp [offer, h1, h2]

/-- An offer the sink fails. -/
theorem offer_fail {ev : SinkEvent} {w : Writer} {rest : List SinkAnswer} (h : w.answers = .fail :: rest) :
    offer ev w = .stop .fWrite (w.setAnswers rest) := by
  obtain ⟨h1, h2⟩ := nextAnswer_of_cons h
  simp [offer, h1, h2]

/-! ### Operations of the writer on the whole state -/

theorem onWriter_ok {f : Writer → Res Writer} {s : State} {w : Writer} (h : f s.writer = .ok w) :
    onWriter f s = .ok (s.setWriter w) := by
  simp [onWriter, h]

theorem onWriter_stop {f : Writer → Res Writer} {s : State} {c : FaultCode} {w : Writer}
    (h : f s.writer = .stop c w) : onWriter f s = .stop c (s.setWriter w) := by
  simp [onWriter, h]

/-- An operation of the writer changes the writer alone. -/
theorem onWriter_state (f : Writer → Res Writer) (s : State) :
    (onWriter f s).state = s.setWriter (f s.writer).state := by
  unfold onWriter
  cases f s.writer <;> rfl

end Sys2Proof.Machine
end

