-- ==== Sys2Proof/Laws/Huffman.lean ====
section
/-! SUPPORT. The tree builder and the walk: the sizes of the arena, the queue and the code table. -/

namespace Sys2Proof.Machine

theorem queueInsert_length (node : List Node) (i : Nat) (q : List Nat) :
    (queueInsert node i q).length = q.length + 1 := by
  induction q with
  | nil => rfl
  | cons j js ih => unfold queueInsert; split <;> simp [ih]

/-- An insertion adds its index and no other (R161). -/
theorem mem_queueInsert (node : List Node) (i k : Nat) (q : List Nat) :
    k ∈ queueInsert node i q ↔ k = i ∨ k ∈ q := by
  induction q with
  | nil => simp [queueInsert]
  | cons j js ih =>
    unfold queueInsert
    split
    · simp
    · simp only [List.mem_cons, ih]
      exact or_left_comm

@[simp] theorem add_node (a : Arena) (n : Node) : (a.add n).node = a.node ++ [n] := rfl
@[simp] theorem add_pq_length (a : Arena) (n : Node) : (a.add n).pq.length = a.pq.length + 1 :=
  queueInsert_length _ _ _

/-- The leaves: as many as the table has nonzero slots, all of them queued (R161). -/
theorem addLeaves_sizes (fs : List (BitVec 32)) (sym : Nat) (a : Arena) :
    (addLeaves fs sym a).node.length = a.node.length + (fs.filter (· ≠ 0)).length ∧
    (addLeaves fs sym a).pq.length = a.pq.length + (fs.filter (· ≠ 0)).length := by
  induction fs generalizing sym a with
  | nil => simp [addLeaves]
  | cons f fs ih =>
    unfold addLeaves
    by_cases h : f = 0
    · simpa [h] using ih (sym + 1) a
    · obtain ⟨h1, h2⟩ := ih (sym + 1) (a.add (.leaf sym (f.setWidth 33) sym))
      have hfs : ((f :: fs).filter (· ≠ 0)).length = (fs.filter (· ≠ 0)).length + 1 := by
        rw [List.filter_cons_of_pos (by simpa using h), List.length_cons]
      rw [if_pos h, hfs, h1, h2, add_node, add_pq_length, List.length_append, List.length_singleton]
      exact ⟨by omega, by omega⟩

/-- The merges: each takes one node off the queue and adds one record (R161). -/
theorem mergeAll_sizes (alphabet fuel k : Nat) (a : Arena) (hf : a.pq.length ≤ fuel + 1) (hq : 1 ≤ a.pq.length) :
    (mergeAll alphabet fuel k a).pq.length = 1 ∧
    (mergeAll alphabet fuel k a).node.length + 1 = a.node.length + a.pq.length := by
  induction fuel generalizing k a with
  | zero => simp only [mergeAll]; omega
  | succ fuel ih =>
    unfold mergeAll
    split
    · rename_i i j rest e
      have hl : a.pq.length = rest.length + 2 := by rw [e]; rfl
      obtain ⟨h1, h2⟩ := ih (k + 1) ({ a with pq := rest }.add
        (.internal i j ((nodeAt a.node i).weight + (nodeAt a.node j).weight) (alphabet + k)))
        (by simp only [add_pq_length]; omega) (by simp only [add_pq_length]; omega)
      refine ⟨h1, ?_⟩
      rw [h2]
      simp only [add_node, add_pq_length, List.length_append, List.length_singleton]
      omega
    · rename_i e
      have : a.pq.length < 2 := by
        rcases hp : a.pq with _ | ⟨i, _ | ⟨j, rest⟩⟩
        · simp
        · simp
        · exact absurd hp (e i j rest)
      omega

/-- A walk writes slots of the table and never changes its size (R166). -/
@[simp] theorem visit_length (node : List Node) (fuel i : Nat) (path : BitVec 128) (depth : Nat) (t : List Code) :
    (visit node fuel i path depth t).length = t.length := by
  induction fuel generalizing i path depth t with
  | zero => rfl
  | succ fuel ih =>
    unfold visit
    split
    · exact List.length_set
    · rw [ih, ih]

@[simp] theorem huffWalk_length (node : List Node) (root alphabet : Nat) :
    (huffWalk node root alphabet).length = alphabet := by
  simp [huffWalk]

@[simp] theorem codesOf_length (freqs : List (BitVec 32)) (alphabet : Nat) :
    (codesOf freqs alphabet).length = alphabet := by
  simp [codesOf]

end Sys2Proof.Machine
end

