-- ==== Sys2Proof/Laws/Matcher.lean ====
section
/-! SUPPORT. The matcher: bounds of a match, what a refill moves, and that each step consumes at least one byte. -/

namespace Sys2Proof.Machine

/-! ### One match -/

/-- Extending never shortens a match, and stays within the lookahead and within 258 (R131). -/
theorem matchExtend_bounds (w la : List Byte) (start fuel len : Nat) (h1 : len ≤ la.length) (h2 : len ≤ lCap) :
    len ≤ matchExtend w la start fuel len ∧ matchExtend w la start fuel len ≤ la.length ∧
      matchExtend w la start fuel len ≤ lCap := by
  induction fuel generalizing len with
  | zero => exact ⟨Nat.le_refl _, h1, h2⟩
  | succ fuel ih =>
    unfold matchExtend
    split
    · rename_i h
      obtain ⟨i1, i2, i3⟩ := ih (len + 1) h.1 h.2.1
      exact ⟨by omega, i2, i3⟩
    · exact ⟨Nat.le_refl _, h1, h2⟩

/-- Every byte of an extension agrees (R131). -/
theorem matchExtend_agrees (w la : List Byte) (start fuel len : Nat)
    (h : ∀ j, j < len → srcByte w la (start + j) = la.getD j 0) :
    ∀ j, j < matchExtend w la start fuel len → srcByte w la (start + j) = la.getD j 0 := by
  induction fuel generalizing len with
  | zero => exact h
  | succ fuel ih =>
    unfold matchExtend
    split
    · rename_i hc
      refine ih (len + 1) fun j hj => ?_
      by_cases e : j = len
      · subst e; exact hc.2.2
      · exact h j (by omega)
    · exact h

/-- With fuel for the whole lookahead an extension ends only where its loop condition fails (R131). -/
theorem matchExtend_maximal (w la : List Byte) (start fuel len : Nat) (hf : la.length ≤ fuel + len) :
    let r := matchExtend w la start fuel len
    ¬ (r < la.length ∧ r < lCap ∧ srcByte w la (start + r) = la.getD r 0) := by
  induction fuel generalizing len with
  | zero => intro r h; simp only [r, matchExtend] at h; omega
  | succ fuel ih =>
    unfold matchExtend
    split
    · exact ih (len + 1) (by omega)
    · assumption

theorem matchLength_le (w la : List Byte) (start : Nat) :
    matchLength w la start ≤ la.length ∧ matchLength w la start ≤ lCap := by
  obtain ⟨-, h⟩ := matchExtend_bounds w la start la.length 0 (Nat.zero_le _) (Nat.zero_le _)
  exact h

/-- What a best match is: none yet, or a distance inside the window with the match length of its start (R131). -/
def Best.FoundIn (w la : List Byte) (best : Best) : Prop :=
  best.len = 0 ∨ (1 ≤ best.dist ∧ best.dist ≤ w.length ∧ best.len = matchLength w la (w.length - best.dist))

/-- One turn of the scan: only a strictly longer match overwrites (R132). -/
def Best.turn (w la : List Byte) (start : Nat) (best : Best) : Best :=
  if matchLength w la start > best.len then ⟨matchLength w la start, w.length - start⟩ else best

theorem matchScan_succ (w la : List Byte) (start : Nat) (best : Best) :
    matchScan w la (start + 1) best =
      if (best.turn w la start).len = la.length then best.turn w la start
      else matchScan w la start (best.turn w la start) := rfl

theorem Best.turn_found {w la : List Byte} {start : Nat} {best : Best} (h : start < w.length)
    (hb : best.FoundIn w la) : (best.turn w la start).FoundIn w la := by
  unfold Best.turn
  split
  · refine .inr ⟨by simp only; omega, by simp only; omega, ?_⟩
    simp only
    congr 1
    omega
  · exact hb

/-- A turn leaves the longer of the two matches (R132). -/
theorem Best.turn_len (w la : List Byte) (start : Nat) (best : Best) :
    (best.turn w la start).len = max best.len (matchLength w la start) := by
  unfold Best.turn
  split
  · simp only; omega
  · omega

/-- The scan's answer is a match of the window (R131, R132). -/
theorem matchScan_found (w la : List Byte) (k : Nat) (best : Best) (hk : k ≤ w.length)
    (hb : best.FoundIn w la) : (matchScan w la k best).FoundIn w la := by
  induction k generalizing best with
  | zero => exact hb
  | succ start ih =>
    rw [matchScan_succ]
    split
    · exact Best.turn_found (by omega) hb
    · exact ih _ (by omega) (Best.turn_found (by omega) hb)

/-- The scan never answers a shorter match than it started with (R132). -/
theorem matchScan_le (w la : List Byte) (k : Nat) (best : Best) : best.len ≤ (matchScan w la k best).len := by
  induction k generalizing best with
  | zero => exact Nat.le_refl _
  | succ start ih =>
    have := best.turn_len w la start
    rw [matchScan_succ]
    split
    · omega
    · have := ih (best.turn w la start)
      omega

/-- Everything `MATCH_FIND` can answer (R131): the head as a literal, or a pointer within the window and the lookahead,
of length 3 to 258. -/
theorem matchFind_cases (w la : List Byte) :
    matchFind w la = (.lit ((la.headD 0).setWidth 16), 1) ∨
    ∃ d l, 1 ≤ d ∧ d ≤ w.length ∧ 3 ≤ l ∧ l ≤ la.length ∧ l ≤ 258 ∧ l = matchLength w la (w.length - d) ∧
      matchFind w la = (.ptr (BitVec.ofNat 16 d) (BitVec.ofNat 16 l), l) := by
  have hf := matchScan_found w la w.length ⟨0, 0⟩ (Nat.le_refl _) (.inl rfl)
  unfold matchFind
  simp only
  split
  · exact .inl rfl
  · rename_i h
    rcases hf with h0 | ⟨h1, h2, h3⟩
    · simp [h0, minMatch] at h
    · obtain ⟨b1, b2⟩ := matchLength_le w la (w.length - (matchScan w la w.length ⟨0, 0⟩).dist)
      simp only [minMatch, lCap] at *
      exact .inr ⟨_, _, h1, h2, by omega, by omega, by omega, h3, rfl⟩

/-- A symbol covers at least one byte and no more than the lookahead holds (R134). -/
theorem matchFind_covers (w la : List Byte) (h : 1 ≤ la.length) :
    1 ≤ (matchFind w la).2 ∧ (matchFind w la).2 ≤ la.length := by
  rcases matchFind_cases w la with e | ⟨d, l, -, -, h3, h4, -, -, e⟩
  · rw [e]; exact ⟨Nat.le_refl _, h⟩
  · rw [e]; exact ⟨by simp only; omega, h4⟩

/-- Every symbol the matcher makes is legal (R102). -/
theorem matchFind_legal (w la : List Byte) (hw : w.length ≤ 32768) : (matchFind w la).1.legal = true := by
  rcases matchFind_cases w la with e | ⟨d, l, h1, h2, h3, -, h5, -, e⟩
  · rw [e]
    have := ((la.headD 0)).isLt
    simp only [Symbol.legal, BitVec.toNat_setWidth]
    exact decide_eq_true (.inl (by omega))
  · rw [e]
    simp only [Symbol.legal, pointerInRange, BitVec.toNat_ofNat]
    simp only [Nat.mod_eq_of_lt (show d < 2 ^ 16 by omega), Nat.mod_eq_of_lt (show l < 2 ^ 16 by omega)]
    simp
    omega

/-! ### Refill and step -/

@[simp] theorem refill_w (m : Matcher) : (refill m).w = m.w := rfl
@[simp] theorem refill_cb (m : Matcher) : (refill m).cb = m.cb := rfl
@[simp] theorem refill_sb (m : Matcher) : (refill m).sb = m.sb := rfl

/-- The bytes not classified yet: the lookahead, then the unread chunk (R135). -/
def Matcher.todo (m : Matcher) : List Byte := m.la ++ m.cb.drop m.cpos

/-- A refill moves bytes and loses none (R135). -/
theorem refill_todo (m : Matcher) : (refill m).todo = m.todo := by
  simp only [Matcher.todo, refill, Matcher.setLa, Matcher.setCpos]
  rw [List.append_assoc]
  congr 1
  rw [← List.drop_drop]
  exact List.take_append_drop _ _

/-- After a refill the lookahead holds 258 bytes or the chunk has no unread byte (R135). -/
theorem refill_full (m : Matcher) (hc : m.cpos ≤ m.cb.length) (hl : m.la.length ≤ lCap) :
    (refill m).cpos ≤ m.cb.length ∧ (refill m).la.length ≤ lCap ∧
      ((refill m).la.length = lCap ∨ (refill m).cpos = m.cb.length) := by
  simp only [refill, Matcher.setLa, Matcher.setCpos, List.length_append, List.length_take, List.length_drop]
  omega

/-- What a step writes, for any classification: the symbol joins SB, the covered bytes leave LA for the window (R134). -/
theorem classify_eq (m : Matcher) : classify m = {
    w := winAppend m.w (m.la.take (matchFind m.w m.la).2)
    la := m.la.drop (matchFind m.w m.la).2, cb := m.cb, cpos := m.cpos, sb := m.sb ++ [(matchFind m.w m.la).1] } := rfl

@[simp] theorem classify_cb (m : Matcher) : (classify m).cb = m.cb := by
  rw [classify_eq]
@[simp] theorem classify_cpos (m : Matcher) : (classify m).cpos = m.cpos := by
  rw [classify_eq]

/-- The lookahead after a refill is the first 258 bytes of what is still to do (R24, R135). -/
theorem refill_la (m : Matcher) (hl : m.la.length ≤ lCap) : (refill m).la = m.todo.take lCap := by
  simp only [refill, Matcher.setLa, Matcher.setCpos, Matcher.todo]
  rw [List.take_append, List.take_of_length_le hl]
  congr 1
  rw [List.take_eq_take_iff, List.length_drop]
  omega

/-- A step classifies the head of what is still to do (R134): the symbol and the count are those `MATCH_FIND` gives for its
first 258 bytes; that many bytes, at least one, pass into the window, and the symbol passes into SB. -/
theorem matchStep_spec (m : Matcher) (hc : m.cpos ≤ m.cb.length) (hl : m.la.length ≤ lCap) (ht : m.todo ≠ []) :
    let r := matchFind m.w (m.todo.take lCap)
    1 ≤ r.2 ∧ r.2 ≤ m.todo.length ∧ (matchStep m).sb = m.sb ++ [r.1] ∧
      (matchStep m).w = winAppend m.w (m.todo.take r.2) ∧ (matchStep m).todo = m.todo.drop r.2 ∧
      (matchStep m).cb = m.cb ∧ (matchStep m).cpos ≤ m.cb.length ∧ (matchStep m).la.length ≤ lCap := by
  intro r
  obtain ⟨f1, f2, -⟩ := refill_full m hc hl
  have hla := refill_la m hl
  have hpos : 0 < m.todo.length := List.length_pos_iff.mpr ht
  obtain ⟨c1, c2⟩ : 1 ≤ r.2 ∧ r.2 ≤ (m.todo.take lCap).length :=
    matchFind_covers m.w _ (by simp only [List.length_take, lCap]; omega)
  have hstep : matchStep m = { refill m with
      w := winAppend m.w ((m.todo.take lCap).take r.2), la := (m.todo.take lCap).drop r.2, sb := m.sb ++ [r.1] } := by
    rw [matchStep, classify_eq, refill_w, refill_sb, hla]
  clear_value r
  rw [List.length_take] at c2
  rw [hstep]
  refine ⟨c1, by omega, rfl, ?_, ?_, rfl, f1, ?_⟩
  · simp only
    rw [List.take_take, Nat.min_eq_left (by omega)]
  · simp only [Matcher.todo, refill_cb]
    rw [← List.drop_append_of_le_length (by rw [List.length_take]; exact c2)]
    congr 1
    rw [← Matcher.todo, ← hla]
    exact refill_todo m
  · simp only [List.length_drop, List.length_take]
    omega

@[simp] theorem matchStep_cb (m : Matcher) : (matchStep m).cb = m.cb := by
  rw [matchStep, classify_cb, refill_cb]

/-- The matcher never writes the chunk (R136). -/
@[simp] theorem matchLoop_cb (fuel : Nat) (m : Matcher) : (matchLoop fuel m).cb = m.cb := by
  induction fuel generalizing m with
  | zero => rfl
  | succ fuel ih =>
    unfold matchLoop
    split
    · rw [ih, matchStep_cb]
    · rfl

@[simp] theorem matchChunk_cb (m : Matcher) : (matchChunk m).cb = m.cb := by simp [matchChunk]

/-- The loop's condition is that something is still to do (R136). -/
theorem todo_eq_nil_iff (m : Matcher) : m.todo = [] ↔ ¬ (m.la.length > 0 ∨ m.cpos < m.cb.length) := by
  rw [← List.length_eq_zero_iff]
  simp only [Matcher.todo, List.length_append, List.length_drop]
  omega

/-- A property that every step keeps holds when the loop ends, and then nothing is left to do (R136). -/
theorem matchLoop_induct {P : Matcher → Prop}
    (step : ∀ m, P m → m.cpos ≤ m.cb.length → m.la.length ≤ lCap → m.todo ≠ [] → P (matchStep m))
    (fuel : Nat) (m : Matcher) (hp : P m) (hc : m.cpos ≤ m.cb.length) (hl : m.la.length ≤ lCap)
    (hf : m.todo.length ≤ fuel) :
    P (matchLoop fuel m) ∧ (matchLoop fuel m).la = [] ∧ (matchLoop fuel m).cpos = m.cb.length := by
  have done : ∀ m : Matcher, m.cpos ≤ m.cb.length → m.todo = [] → m.la = [] ∧ m.cpos = m.cb.length := by
    intro m hc h
    rw [todo_eq_nil_iff] at h
    exact ⟨List.length_eq_zero_iff.mp (by omega), by omega⟩
  induction fuel generalizing m with
  | zero => exact ⟨hp, done m hc (List.length_eq_zero_iff.mp (by omega))⟩
  | succ fuel ih =>
    unfold matchLoop
    split
    · rename_i h
      have ht : m.todo ≠ [] := fun e => (todo_eq_nil_iff m).mp e h
      obtain ⟨n1, n2, -, -, htodo, hcb, hcpos, hla⟩ := matchStep_spec m hc hl ht
      have := ih (matchStep m) (step m hp hc hl ht) (by rw [hcb]; exact hcpos) hla
        (by rw [htodo, List.length_drop]; omega)
      rwa [hcb] at this
    · rename_i h
      exact ⟨hp, done m hc ((todo_eq_nil_iff m).mpr h)⟩

end Sys2Proof.Machine
end

