-- ==== Sys2Proof/Laws/Writer.lean ====
section
/-! SUPPORT. The bit-level writer: bytes and their bits, appending a run of bits, and what a write can do. -/

namespace Sys2Proof.Machine

theorem bytesOf_append (a b : List SinkEvent) : bytesOf (a ++ b) = bytesOf a ++ bytesOf b := by
  induction a with
  | nil => rfl
  | cons ev rest ih => cases ev <;> simp [bytesOf, ih]

@[simp] theorem bytesOf_map_byte (bs : List Byte) : bytesOf (bs.map .byte) = bs := by
  induction bs with
  | nil => rfl
  | cons b bs ih => simp [bytesOf, ih]

theorem bytesBits_append (a b : List Byte) : bytesBits (a ++ b) = bytesBits a ++ bytesBits b := by
  induction a with
  | nil => rfl
  | cons x xs ih => simp [bytesBits, ih]

@[simp] theorem byteBits_length (b : Byte) : (byteBits b).length = 8 := rfl

theorem bytesBits_length (bs : List Byte) : (bytesBits bs).length = 8 * bs.length := by
  induction bs with
  | nil => rfl
  | cons b bs ih => simp only [bytesBits, List.length_append, byteBits_length, List.length_cons, ih]; omega

@[simp] theorem msbFirst_length (v : BitVec 128) (n : Nat) : (msbFirst v n).length = n := by
  induction n with
  | zero => rfl
  | succ n ih => simp [msbFirst, ih]

/-- Packing eight bits and reading them back gives the bits (R69). -/
theorem byteBits_packByte (a b c d e f g h : Bool) :
    byteBits (packByte [a, b, c, d, e, f, g, h]) = [a, b, c, d, e, f, g, h] := by
  revert a b c d e f g h
  decide

/-- Eight bits, whatever list holds them, are read back from their byte (R69). -/
theorem byteBits_packByte_of_length {p : List Bool} (hp : p.length = 8) : byteBits (packByte p) = p := by
  match p, hp with
  | [a, b, c, d, e, f, g, h], _ => exact byteBits_packByte a b c d e f g h

/-- Fewer than eight bits are read back with zeros below them (R232). -/
theorem packByte_pad (p : List Bool) (n : Nat) : packByte (p ++ List.replicate n false) = packByte p := by
  have zeros : ∀ (n weight : Nat), packBits weight (List.replicate n false) = 0 := by
    intro n
    induction n with
    | zero => intro weight; rfl
    | succ n ih => intro weight; simp [List.replicate_succ, packBits, ih]
  have key : ∀ (p : List Bool) (weight : Nat),
      packBits weight (p ++ List.replicate n false) = packBits weight p := by
    intro p
    induction p with
    | nil => intro weight; simpa [packBits] using zeros n weight
    | cons b p ih => intro weight; simp [packBits, ih]
  unfold packByte
  rw [key]

/-- Bits appended in two runs (R233). -/
theorem pushBits_append (as bs : List Bool) (w : Writer) :
    pushBits (as ++ bs) w = (pushBits as w).andThen (pushBits bs) := by
  induction as generalizing w with
  | nil => rfl
  | cons a as ih =>
    simp only [List.cons_append, pushBits, Res.andThen_assoc]
    congr 1
    funext w'
    exact ih w'

/-- A write of at most 128 bits is its bits appended (R231). -/
theorem wrWrite_eq {bits : BitVec 128} {count : Nat} {w : Writer} (h : count ≤ 128) :
    wrWrite bits count w = pushBits (msbFirst bits count) w := by
  have : ¬ wrMax < count := by simp only [wrMax]; omega
  simp [wrWrite, this]

theorem wrWrite_over {bits : BitVec 128} {count : Nat} {w : Writer} (h : 128 < count) :
    wrWrite bits count w = .stop .fRange w := by
  simp [wrWrite, wrMax, h]

/-- One bit appended: it joins PEND, or completes a byte that is offered to the sink (R231). -/
theorem pushBit_cases (b : Bool) (w : Writer) :
    (w.pend.length ≠ 7 ∧ pushBit b w = .ok (w.setPend (w.pend ++ [b]))) ∨
    (w.pend.length = 7 ∧ pushBit b w = offer (.byte (packByte (w.pend ++ [b]))) (w.setPend [])) := by
  unfold pushBit sinkByte
  by_cases h : w.pend.length = 7 <;> simp [h]

/-- What a run of bits can do to the writer, whatever the sink answers: with at most 7 bits pending before, at most 7
are pending after, only bytes join OUT, and the only fault is F_WRITE (R31, R231, R285). -/
theorem pushBits_state (bits : List Bool) (w : Writer) (hw : w.pend.length ≤ 7) :
    (pushBits bits w).state.pend.length ≤ 7 ∧
    (∃ bytes : List Byte, (pushBits bits w).state.out = w.out ++ bytes.map .byte) ∧
    ∀ c w', pushBits bits w = .stop c w' → c = .fWrite ∧ w'.pend = [] := by
  induction bits generalizing w with
  | nil => exact ⟨hw, ⟨[], by simp [pushBits]⟩, fun c w' h => by simp [pushBits] at h⟩
  | cons b bs ih =>
    simp only [pushBits]
    rcases pushBit_cases b w with ⟨h7, h⟩ | ⟨h7, h⟩
    · rw [h, Res.andThen_ok]
      have hw' : (w.setPend (w.pend ++ [b])).pend.length ≤ 7 := by simp; omega
      exact ih _ hw'
    · rcases offer_cases (.byte (packByte (w.pend ++ [b]))) (w.setPend []) with ⟨-, ho⟩ | ⟨-, ho⟩
      · rw [h, ho, Res.andThen_ok]
        have hp : ((w.setPend []).dropAnswer.setOut ((w.setPend []).out ++
            [.byte (packByte (w.pend ++ [b]))])).pend.length ≤ 7 := by simp
        obtain ⟨h1, ⟨bytes, h2⟩, h3⟩ := ih _ hp
        exact ⟨h1, ⟨packByte (w.pend ++ [b]) :: bytes, by rw [h2]; simp⟩, h3⟩
      · rw [h, ho, Res.andThen_stop]
        exact ⟨by simp, ⟨[], by simp⟩, fun c w' hc => by cases hc; simp⟩

/-- A sink that is going to take some bytes takes them one by one. -/
theorem sinkTakes_succ {w : Writer} {n : Nat} (h : w.sinkTakes (n + 1)) :
    ∃ rest, w.answers = .ok :: rest ∧ ∀ w' : Writer, w'.answers = rest → w'.sinkTakes n := by
  obtain ⟨rest, h⟩ := h
  exact ⟨List.replicate n .ok ++ rest, by simpa [List.replicate_succ] using h, fun w' hw' => ⟨rest, hw'⟩⟩

theorem sinkTakes_zero (w : Writer) : w.sinkTakes 0 := ⟨w.answers, rfl⟩

theorem sinkTakes_mono {w : Writer} {m n : Nat} (h : w.sinkTakes n) (hm : m ≤ n) : w.sinkTakes m := by
  obtain ⟨rest, h⟩ := h
  refine ⟨List.replicate (n - m) .ok ++ rest, ?_⟩
  rw [h, ← List.append_assoc, List.replicate_append_replicate]
  congr 2
  omega

/-- A run of bits with a sink that takes every byte due: exactly these bits join the stream (R230, R231). -/
theorem pushBits_appends (bits : List Bool) (w : Writer) (hw : w.pend.length ≤ 7)
    (hs : w.sinkTakes (w.bytesDue bits)) : ∃ w', pushBits bits w = .ok w' ∧ w.Appended w' bits := by
  induction bits generalizing w with
  | nil =>
    refine ⟨w, rfl, by simp, ?_, ⟨[], by simp⟩, ?_, rfl⟩
    · simp only [List.length_nil]; omega
    · have : w.bytesDue [] = 0 := by simp only [Writer.bytesDue, List.length_nil]; omega
      simp [this]
  | cons b bs ih =>
    rcases pushBit_cases b w with ⟨h7, h⟩ | ⟨h7, h⟩
    · have hw' : (w.setPend (w.pend ++ [b])).pend.length ≤ 7 := by simp; omega
      have hdue : (w.setPend (w.pend ++ [b])).bytesDue bs = w.bytesDue (b :: bs) := by
        simp only [Writer.bytesDue, Writer.setPend_pend, List.length_append, List.length_cons, List.length_nil]
        congr 1; omega
      have hs' : (w.setPend (w.pend ++ [b])).sinkTakes ((w.setPend (w.pend ++ [b])).bytesDue bs) := by
        rw [hdue]; exact hs
      obtain ⟨w', h1, h2, h3, h4, h5, h6⟩ := ih _ hw' hs'
      refine ⟨w', by simp only [pushBits, h, Res.andThen_ok, h1], ?_, ?_, h4, ?_, h6⟩
      · rw [h2]; simp [Writer.streamBits]
      · rw [h3]; simp only [Writer.setPend_pend, List.length_append, List.length_cons, List.length_nil]
        congr 1; omega
      · rw [h5, hdue]; rfl
    · have hdue : w.bytesDue (b :: bs) = bs.length / 8 + 1 := by
        simp only [Writer.bytesDue, List.length_cons]; omega
      rw [hdue] at hs
      obtain ⟨rest, ha, hrest⟩ := sinkTakes_succ hs
      have hoff := offer_ok (ev := .byte (packByte (w.pend ++ [b]))) (w := w.setPend []) (rest := rest)
        (by simpa using ha)
      generalize hv : ((w.setPend []).setAnswers rest).setOut ((w.setPend []).out ++
        [.byte (packByte (w.pend ++ [b]))]) = v at hoff
      have hvp : v.pend = [] := by rw [← hv]; rfl
      have hva : v.answers = rest := by rw [← hv]; rfl
      have hvo : v.out = w.out ++ [.byte (packByte (w.pend ++ [b]))] := by rw [← hv]; rfl
      have hvd : v.draws = w.draws := by rw [← hv]; rfl
      have hvdue : v.bytesDue bs = bs.length / 8 := by simp [Writer.bytesDue, hvp]
      obtain ⟨w', h1, h2, h3, ⟨bytes, h4⟩, h5, h6⟩ := ih v (by simp [hvp]) (by rw [hvdue]; exact hrest v hva)
      refine ⟨w', by simp only [pushBits, h, hoff, Res.andThen_ok, h1], ?_, ?_, ?_, ?_, ?_⟩
      · rw [h2]
        simp only [Writer.streamBits, hvo, hvp, bytesOf_append, bytesBits_append, bytesOf, bytesBits,
          byteBits_packByte_of_length (p := w.pend ++ [b]) (by simp [h7])]
        simp
      · rw [h3, hvp]; simp only [List.length_nil, List.length_cons]; omega
      · exact ⟨packByte (w.pend ++ [b]) :: bytes, by rw [h4, hvo]; simp⟩
      · rw [h5, hva, hvdue, hdue, ha]; rfl
      · rw [h6, hvd]

/-- Appending in two runs that each append exactly their bits appends exactly both. -/
theorem Writer.Appended.trans {w v u : Writer} {as bs : List Bool} (h1 : w.Appended v as) (h2 : v.Appended u bs) :
    w.Appended u (as ++ bs) := by
  obtain ⟨a1, a2, ⟨x, a3⟩, a4, a5⟩ := h1
  obtain ⟨b1, b2, ⟨y, b3⟩, b4, b5⟩ := h2
  refine ⟨by rw [b1, a1, List.append_assoc], ?_, ⟨x ++ y, by rw [b3, a3]; simp⟩, ?_, by rw [b5, a5]⟩
  · rw [b2, a2]; simp only [List.length_append]; omega
  · rw [b4, a4, List.drop_drop]
    congr 1
    simp only [Writer.bytesDue, List.length_append, a2]
    omega

/-- What a write can do, whatever the sink answers (R231). -/
theorem wrWrite_state (bits : BitVec 128) (count : Nat) (w : Writer) (hw : w.pend.length ≤ 7) :
    (wrWrite bits count w).state.pend.length ≤ 7 ∧
    (∃ bytes : List Byte, (wrWrite bits count w).state.out = w.out ++ bytes.map .byte) ∧
    ∀ c w', wrWrite bits count w = .stop c w' → c = .fWrite ∨ (c = .fRange ∧ 128 < count) := by
  by_cases h : count ≤ 128
  · rw [wrWrite_eq h]
    obtain ⟨h1, h2, h3⟩ := pushBits_state (msbFirst bits count) w hw
    exact ⟨h1, h2, fun c w' hc => .inl (h3 c w' hc).1⟩
  · rw [wrWrite_over (by omega)]
    exact ⟨hw, ⟨[], by simp⟩, fun c w' hc => by cases hc; exact .inr ⟨rfl, by omega⟩⟩

/-! ### The bound of R37 on a length from outside a block (U21) -/

theorem withinBound_le {len : BitVec 8} {f : State → Res State} {s : State} (h : len.toNat ≤ 45) :
    withinBound len f s = f s := by
  have : ¬ lenBound < len.toNat := by simp only [lenBound]; omega
  simp [withinBound, this]

theorem withinBound_over {len : BitVec 8} {f : State → Res State} {s : State} (h : 45 < len.toNat) :
    withinBound len f s = .stop .fRange s := by
  simp [withinBound, lenBound, h]

/-- Everything the check can do: refuse with the state unchanged, or run the body. -/
theorem withinBound_cases (len : BitVec 8) (f : State → Res State) (s : State) :
    (45 < len.toNat ∧ withinBound len f s = .stop .fRange s) ∨ (len.toNat ≤ 45 ∧ withinBound len f s = f s) := by
  rcases Nat.lt_or_ge 45 len.toNat with h | h
  · exact .inl ⟨h, withinBound_over h⟩
  · exact .inr ⟨h, withinBound_le h⟩

/-! ### The code of an id presented by itself (R30, U8) -/

theorem freeRowCode_len (n slot : Nat) : (freeRowCode n slot).len.toNat ≤ 45 := by
  have := (Config.rowCodeLen n slot).isLt
  simp only [freeRowCode, BitVec.toNat_ofNat]
  omega

/-- Where a block has written the tables a code is theirs and nothing is drawn. -/
theorem codes_held {s : State} (h : s.holdsCodes = true) :
    (∀ id, s.llCode id = codeAt s.encoder.tl id) ∧ (∀ k, s.dCode k = codeAt s.encoder.td k) ∧ s.drawn = s := by
  simp [State.llCode, State.dCode, State.drawn, h]

/-- Where no block has written them a code is a free value, whatever the tables hold, and the counter advances. -/
theorem codes_free {s : State} (h : s.holdsCodes = false) :
    (∀ id, s.llCode id = freeRowCode s.encoder.draws id) ∧ (∀ k, s.dCode k = freeRowCode s.encoder.draws (287 + k)) ∧
    s.drawn = s.setEncoder (s.encoder.setDraws (s.encoder.draws + 1)) := by
  simp [State.llCode, State.dCode, State.drawn, h, nLL]

/-- Taking a code changes the counter of draws alone. -/
theorem drawn_eq (s : State) : s.drawn = s.setEncoder (s.encoder.setDraws s.drawn.encoder.draws) := by
  unfold State.drawn
  split <;> rfl

@[simp] theorem drawn_writer (s : State) : s.drawn.writer = s.writer := by rw [drawn_eq]; rfl
@[simp] theorem drawn_matcher (s : State) : s.drawn.matcher = s.matcher := by rw [drawn_eq]; rfl
@[simp] theorem drawn_fault (s : State) : s.drawn.fault = s.fault := by rw [drawn_eq]; rfl

end Sys2Proof.Machine
end

