-- ==== Sys2Proof/Laws/Encoder.lean ====
section
/-! SUPPORT. The block encoder: which elements each of its parts can change, whether it completes or faults. -/

namespace Sys2Proof.Machine

/-! ### Counting -/

/-- Counting writes the two frequency tables, keeps their sizes, and touches nothing else (R201). -/
theorem countLoop_state (sb : List Symbol) (e : Encoder) :
    ∃ fl fd, (countLoop sb e).state = (e.setFl fl).setFd fd ∧ fl.length = e.fl.length ∧ fd.length = e.fd.length := by
  induction sb generalizing e with
  | nil => exact ⟨e.fl, e.fd, rfl, rfl, rfl⟩
  | cons sym sb ih =>
    unfold countLoop
    split
    · obtain ⟨fl, fd, h1, h2, h3⟩ := ih (countSymbol sym e)
      refine ⟨fl, fd, ?_, ?_, ?_⟩
      · rw [h1]; cases sym <;> rfl
      · rw [h2]; cases sym <;> simp [countSymbol, bump]
      · rw [h3]; cases sym <;> simp [countSymbol, bump]
    · exact ⟨e.fl, e.fd, rfl, rfl, rfl⟩

/-- Only an illegal symbol stops the count, and with F_RANGE (R102, R201). -/
theorem countLoop_stop {sb : List Symbol} {e e' : Encoder} {c : FaultCode} (h : countLoop sb e = .stop c e') :
    c = .fRange ∧ ∃ sym ∈ sb, sym.legal = false := by
  induction sb generalizing e with
  | nil => simp [countLoop] at h
  | cons sym sb ih =>
    unfold countLoop at h
    split at h
    · obtain ⟨h1, s, h2, h3⟩ := ih h
      exact ⟨h1, s, List.mem_cons_of_mem _ h2, h3⟩
    · rename_i hl
      simp only [Res.stop.injEq] at h
      exact ⟨h.1.symm, sym, List.mem_cons_self, by simpa using hl⟩

/-- Counting legal symbols completes (R201). -/
theorem countLoop_ok {sb : List Symbol} (h : ∀ sym ∈ sb, sym.legal = true) (e : Encoder) :
    ∃ e', countLoop sb e = .ok e' := by
  cases hr : countLoop sb e with
  | ok e' => exact ⟨e', rfl⟩
  | stop c e' =>
    obtain ⟨-, sym, hm, hl⟩ := countLoop_stop hr
    rw [h sym hm] at hl
    cases hl

/-! ### Scratch without a specified value -/

/-- The shapes of free scratch (R28 to R30, R60). -/
theorem freeScratch_shape (b : Bool) (n : Nat) :
    (freeScratch b n).fl.length = 287 ∧ (freeScratch b n).fd.length = 30 ∧ (freeScratch b n).node.length ≤ 573 ∧
      (freeScratch b n).tl.length = 287 ∧ (freeScratch b n).td.length = 30 := by
  refine ⟨?_, ?_, ?_, ?_, ?_⟩ <;> simp only [freeScratch, List.length_map, List.length_range, nLL, nD]
  exact Nat.min_le_right _ _

@[simp] theorem freeScratch_isLast (b : Bool) (n : Nat) : (freeScratch b n).isLast = b := rfl
@[simp] theorem freeScratch_draws (b : Bool) (n : Nat) : (freeScratch b n).draws = n + 1 := rfl

/-! ### Writing -/

/-- From at most 7 pending bits, a write leaves at most 7 pending, adds only bytes to OUT, and raises only F_WRITE or
F_RANGE (R31, R231). -/
def Writer.Wrote (w : Writer) (r : Res Writer) : Prop :=
  w.pend.length ≤ 7 → r.state.pend.length ≤ 7 ∧ (∃ bytes : List Byte, r.state.out = w.out ++ bytes.map .byte) ∧
    ∀ c w', r = .stop c w' → c = .fWrite ∨ c = .fRange

theorem Writer.wrote_ok (w : Writer) : w.Wrote (.ok w) :=
  fun h => ⟨h, ⟨[], by simp⟩, fun c w' e => by cases e⟩

theorem Writer.wrote_range (w : Writer) : w.Wrote (.stop .fRange w) :=
  fun h => ⟨h, ⟨[], by simp⟩, fun c w' e => by cases e; exact .inr rfl⟩

theorem Writer.Wrote.andThen {w : Writer} {r : Res Writer} {f : Writer → Res Writer} (h : w.Wrote r)
    (hf : ∀ v : Writer, v.Wrote (f v)) : w.Wrote (r.andThen f) := by
  intro hw
  obtain ⟨h1, ⟨x, h2⟩, h3⟩ := h hw
  cases r with
  | stop c v => exact ⟨h1, ⟨x, h2⟩, h3⟩
  | ok v =>
    obtain ⟨g1, ⟨y, g2⟩, g3⟩ := hf v h1
    exact ⟨g1, ⟨x ++ y, by rw [Res.andThen_ok, g2, show v.out = _ from h2]; simp⟩, g3⟩

theorem wrWrite_wrote (bits : BitVec 128) (count : Nat) (w : Writer) : w.Wrote (wrWrite bits count w) := by
  intro hw
  obtain ⟨h1, h2, h3⟩ := wrWrite_state bits count w hw
  exact ⟨h1, h2, fun c w' e => (h3 c w' e).imp id And.left⟩

theorem writeCode_wrote (c : Code) (w : Writer) : w.Wrote (writeCode c w) := wrWrite_wrote _ _ _
theorem writeExtra_wrote (x n : Nat) (w : Writer) : w.Wrote (writeExtra x n w) := wrWrite_wrote _ _ _
theorem writeCodeExtra_wrote (c : Code) (x n : Nat) (w : Writer) : w.Wrote (writeCodeExtra c x n w) :=
  (writeCode_wrote c w).andThen (writeExtra_wrote x n)
theorem writeField_wrote (l : BitVec 8) (w : Writer) : w.Wrote (writeField l w) := wrWrite_wrote _ _ _
theorem writeLiteral_wrote (tl : List Code) (v : Nat) (w : Writer) : w.Wrote (writeLiteral tl v w) :=
  writeCode_wrote _ _
theorem writeLength_wrote (tl : List Code) (k x : Nat) (w : Writer) : w.Wrote (writeLength tl k x w) :=
  writeCodeExtra_wrote _ _ _ w
theorem writeDistance_wrote (td : List Code) (k x : Nat) (w : Writer) : w.Wrote (writeDistance td k x w) :=
  writeCodeExtra_wrote _ _ _ w

theorem writeLens_wrote (cs : List Code) (w : Writer) : w.Wrote (writeLens cs w) := by
  induction cs generalizing w with
  | nil => exact w.wrote_ok
  | cons c cs ih => exact (writeField_wrote _ w).andThen ih

theorem encHeader_wrote (tl td : List Code) (w : Writer) : w.Wrote (encHeader tl td w) :=
  (writeLens_wrote tl w).andThen (writeLens_wrote td)

theorem writeSymbol_wrote (tl td : List Code) (sym : Symbol) (w : Writer) : w.Wrote (writeSymbol tl td sym w) := by
  cases sym with
  | lit v => exact writeLiteral_wrote _ _ _
  | ptr d l =>
    simp only [writeSymbol]
    split
    · exact (writeLength_wrote _ _ _ w).andThen (writeDistance_wrote _ _ _)
    · exact w.wrote_range

/-! ### The block -/

/-- The parts of the state an encoder phase never touches (R36: each element is written by its own unit). -/
def State.SameOutside (s t : State) : Prop :=
  t.matcher.w = s.matcher.w ∧ t.matcher.la = s.matcher.la ∧ t.matcher.cb = s.matcher.cb ∧
    t.matcher.cpos = s.matcher.cpos ∧ t.encoder.isLast = s.encoder.isLast ∧ t.encoder.draws = s.encoder.draws ∧
    t.fault = s.fault ∧ t.fin = s.fin ∧ t.inbox = s.inbox ∧ t.samples = s.samples ∧ t.earlier = s.earlier ∧
    t.cuts = s.cuts

theorem State.SameOutside.refl (s : State) : s.SameOutside s := 
  ⟨rfl, rfl, rfl, rfl, rfl, rfl, rfl, rfl, rfl, rfl, rfl, rfl⟩

theorem State.SameOutside.trans {a b c : State} (h : a.SameOutside b) (g : b.SameOutside c) : a.SameOutside c := by
  obtain ⟨h1, h2, h3, h4, h5, h6, h7, h8, h9, h10, h11, h12⟩ := h
  obtain ⟨g1, g2, g3, g4, g5, g6, g7, g8, g9, g10, g11, g12⟩ := g
  exact ⟨g1.trans h1, g2.trans h2, g3.trans h3, g4.trans h4, g5.trans h5, g6.trans h6, g7.trans h7, g8.trans h8,
    g9.trans h9, g10.trans h10, g11.trans h11, g12.trans h12⟩

theorem State.SameOutside.andThen {s : State} {r : Res State} {f : State → Res State} (h : s.SameOutside r.state)
    (hf : ∀ t, r = .ok t → t.SameOutside (f t).state) : s.SameOutside (r.andThen f).state := by
  cases r with
  | ok t => exact h.trans (hf t rfl)
  | stop c t => exact h

theorem onWriter_same (f : Writer → Res Writer) (s : State) : s.SameOutside (onWriter f s).state := by
  rw [onWriter_state]
  exact State.SameOutside.refl s

/-- Emission changes SB and the writer alone (R204). -/
theorem emitLoop_same (sb : List Symbol) (s : State) : s.SameOutside (emitLoop sb s).state := by
  induction sb generalizing s with
  | nil => exact .refl s
  | cons sym sb ih =>
    exact State.SameOutside.andThen (onWriter_same _ (s.setMatcher (s.matcher.setSb sb))) fun t _ => ih t

theorem encEmit_same (s : State) : s.SameOutside (encEmit s).state := by
  refine State.SameOutside.andThen (emitLoop_same _ s) fun t _ => ?_
  split
  · exact onWriter_same _ t
  · exact .refl t

/-- A block changes SB, the encoder's tables, the writer and PHASE alone, even where it faults (R206, R284). -/
theorem encBlock_same (s : State) : s.SameOutside (encBlock s).state := by
  refine State.SameOutside.andThen ?_ fun t _ => State.SameOutside.andThen ?_ fun u _ =>
    State.SameOutside.andThen (onWriter_same _ (u.setPhase .header)) fun v _ => encEmit_same (v.setPhase .emit)
  · obtain ⟨fl, fd, h, -, -⟩ := countLoop_state s.matcher.sb
      ((s.encoder.setFl (List.replicate nLL 0)).setFd (List.replicate nD 0))
    have key : ∃ fl fd, (encCount s.matcher.sb s.encoder).state = (s.encoder.setFl fl).setFd fd := by
      unfold encCount
      cases hr : countLoop s.matcher.sb ((s.encoder.setFl (List.replicate nLL 0)).setFd (List.replicate nD 0)) with
      | stop c e => rw [hr] at h; exact ⟨fl, fd, h⟩
      | ok e =>
        rw [hr] at h
        have he : e = _ := h
        rw [Res.andThen_ok, Res.state_ok, he]
        split
        · exact ⟨_, fd, rfl⟩
        · exact ⟨fl, fd, rfl⟩
    obtain ⟨fl, fd, h⟩ := key
    cases hr : encCount s.matcher.sb s.encoder with
    | ok e => rw [hr] at h; have he : e = _ := h; rw [he]; exact .refl s
    | stop c e => rw [hr] at h; have he : e = _ := h; rw [he]; exact .refl s
  · exact .refl t

/-- The end of a chunk, completed or stopped: what each leaves. A stopped one leaves ISLAST and the chunk as the command set
them (R284); a completed one leaves CB empty and is back in IDLE (R256, R257). -/
theorem endChunk_state (last : Bool) (s : State) :
    let m := matchChunk (((s.matcher.setSb []).setLa []).setCpos 0)
    (endChunk last s).state.fault = s.fault ∧ (endChunk last s).state.fin = s.fin ∧
    (endChunk last s).state.inbox = s.inbox ∧ (endChunk last s).state.samples = s.samples ∧
    (endChunk last s).state.earlier = s.earlier ∧ (endChunk last s).state.cuts = s.cuts ∧
    (endChunk last s).state.matcher.w = m.w ∧ (endChunk last s).state.matcher.la = m.la ∧
    (∀ c t, endChunk last s = .stop c t → t.encoder.isLast = last ∧ t.matcher.cb = s.matcher.cb ∧ t.matcher.cpos = m.cpos) ∧
    (∀ t, endChunk last s = .ok t → t.matcher.cb = [] ∧ t.matcher.cpos = 0 ∧ t.phase = .idle) := by
  intro m
  have h := encBlock_same (((s.setPhase .matching).setEncoder (s.encoder.setIsLast last)).setMatcher m)
  obtain ⟨h1, h2, h3, h4, h5, -, h7, h8, h9, h10, h11, h12⟩ := h
  have e : endChunk last s =
      (encBlock (((s.setPhase .matching).setEncoder (s.encoder.setIsLast last)).setMatcher m)).andThen fun s =>
        .ok (((s.setMatcher ((s.matcher.setCb []).setCpos 0)).setEncoder (releaseScratch s.encoder)).setPhase .idle) := rfl
  have hm : m.cb = s.matcher.cb := matchChunk_cb _
  rw [e]
  clear_value m
  revert h1 h2 h3 h4 h5 h7 h8 h9 h10 h11 h12
  cases encBlock (((s.setPhase .matching).setEncoder (s.encoder.setIsLast last)).setMatcher m) with
  | ok t =>
    intro h1 h2 h3 h4 h5 h7 h8 h9 h10 h11 h12
    refine ⟨h7, h8, h9, h10, h11, h12, h1, h2, ?_, ?_⟩
    · intro c u hu
      cases hu
    · intro u hu
      cases hu
      exact ⟨rfl, rfl, rfl⟩
  | stop c t =>
    intro h1 h2 h3 h4 h5 h7 h8 h9 h10 h11 h12
    refine ⟨h7, h8, h9, h10, h11, h12, h1, h2, ?_, ?_⟩
    · intro c u hu
      cases hu
      exact ⟨h5, Eq.trans h3 hm, h4⟩
    · intro u hu
      cases hu

/-! ### Scratch is written before it is read (R30, R38, U8) -/

/-- An encoder with the frequency tables and ISLAST of another. -/
def Encoder.countedAs (e x : Encoder) : Encoder := ((e.setFl x.fl).setFd x.fd).setIsLast x.isLast

theorem countLoop_countedAs (e : Encoder) (sb : List Symbol) (x : Encoder) :
    countLoop sb (e.countedAs x) = (countLoop sb x).map e.countedAs := by
  induction sb generalizing x with
  | nil => rfl
  | cons sym sb ih =>
    have hc : countSymbol sym (e.countedAs x) = e.countedAs (countSymbol sym x) := by cases sym <;> rfl
    unfold countLoop
    split
    · rw [hc, ih]
    · rfl

/-- `ENC_COUNT` reads ISLAST and no other element of the encoder that it has not written. -/
theorem encCount_countedAs (e x : Encoder) (sb : List Symbol) (h : e.isLast = x.isLast) :
    encCount sb e = (encCount sb x).map e.countedAs := by
  have h0 : (e.setFl (List.replicate nLL 0)).setFd (List.replicate nD 0) =
      e.countedAs ((x.setFl (List.replicate nLL 0)).setFd (List.replicate nD 0)) := by
    cases e; cases x; cases h; rfl
  unfold encCount
  rw [h0, countLoop_countedAs]
  cases countLoop sb ((x.setFl (List.replicate nLL 0)).setFd (List.replicate nD 0)) with
  | stop c y => rfl
  | ok y =>
    have hl : (e.countedAs y).isLast = y.isLast := rfl
    simp only [Res.map_ok, Res.andThen_ok, hl]
    split <;> rfl

/-- `ENC_BUILD` reads the frequency tables and overwrites the rest. -/
theorem encBuild_countedAs (e x : Encoder) : encBuild (e.countedAs x) = (encBuild x).setDraws e.draws := rfl

/-- Emission does not read the counter of draws. -/
theorem encEmit_draws (n : Nat) (s : State) :
    encEmit (s.setEncoder (s.encoder.setDraws n)) =
      (encEmit s).map (fun t => t.setEncoder (t.encoder.setDraws n)) := by
  have write : ∀ (f : Writer → Res Writer) (s : State), onWriter f (s.setEncoder (s.encoder.setDraws n)) =
      (onWriter f s).map (fun t => t.setEncoder (t.encoder.setDraws n)) := by
    intro f s
    unfold onWriter
    simp only [State.setEncoder_writer]
    cases f s.writer <;> rfl
  have loop : ∀ (sb : List Symbol) (s : State), emitLoop sb (s.setEncoder (s.encoder.setDraws n)) =
      (emitLoop sb s).map (fun t => t.setEncoder (t.encoder.setDraws n)) := by
    intro sb
    induction sb with
    | nil => intro s; rfl
    | cons sym sb ih =>
      intro s
      have hw := write (writeSymbol s.encoder.tl s.encoder.td sym) (s.setMatcher (s.matcher.setSb sb))
      unfold emitLoop
      refine (congrArg (fun r => Res.andThen r (emitLoop sb)) hw).trans ?_
      cases onWriter (writeSymbol s.encoder.tl s.encoder.td sym) (s.setMatcher (s.matcher.setSb sb)) with
      | stop c t => rfl
      | ok t => exact ih t
  unfold encEmit
  rw [State.setEncoder_matcher, loop]
  cases emitLoop s.matcher.sb s with
  | stop c t => rfl
  | ok t =>
    show (if t.encoder.isLast then onWriter (writeLiteral t.encoder.tl eos) (t.setEncoder (t.encoder.setDraws n))
      else .ok (t.setEncoder (t.encoder.setDraws n))) = _
    simp only [Res.andThen_ok]
    by_cases hl : t.encoder.isLast = true
    · rw [if_pos hl, if_pos hl]
      exact write _ t
    · rw [if_neg hl, if_neg hl]
      rfl

/-- `ENC_BLOCK` reads ISLAST and no other element of the encoder that it has not written: from an encoder of another content
it leaves the same state but for the encoder (R38). -/
theorem encBlock_scratch (s : State) (e x : Encoder) (h : e.isLast = s.encoder.isLast) :
    (encBlock (s.setEncoder e)).map (State.setEncoder · x) = (encBlock s).map (State.setEncoder · x) := by
  unfold encBlock
  simp only [State.setEncoder_matcher, State.setEncoder_encoder, encCount_countedAs e s.encoder s.matcher.sb h]
  cases encCount s.matcher.sb s.encoder with
  | stop c y => rfl
  | ok y =>
    let s1 : State := (((s.setPhase .count).setEncoder y).setPhase .build).setEncoder (encBuild y)
    have e1 : ((((s.setEncoder e).setPhase .count).setEncoder (e.countedAs y)).setPhase .build).setEncoder
        (encBuild (e.countedAs y)) = s1.setEncoder (s1.encoder.setDraws e.draws) := rfl
    show Res.map ((onWriter (encHeader (encBuild y).tl (encBuild y).td)
        ((s1.setEncoder (s1.encoder.setDraws e.draws)).setPhase .header)).andThen fun s => encEmit (s.setPhase .emit)) _ =
      Res.map ((onWriter (encHeader (encBuild y).tl (encBuild y).td) (s1.setPhase .header)).andThen
        fun s => encEmit (s.setPhase .emit)) _
    clear_value s1
    unfold onWriter
    simp only [State.setPhase_writer, State.setEncoder_writer]
    cases encHeader (encBuild y).tl (encBuild y).td s1.writer with
    | stop c w => rfl
    | ok w =>
      simp only [Res.map_ok, Res.andThen_ok]
      have hd := encEmit_draws e.draws (((s1.setPhase .header).setWriter w).setPhase .emit)
      refine (congrArg (Res.map · (State.setEncoder · x)) hd).trans ?_
      cases encEmit (((s1.setPhase .header).setWriter w).setPhase .emit) <;> rfl

/-- The end of a chunk depends on no element of the encoder it starts from (R38). -/
theorem endChunk_scratch (last : Bool) (s : State) (e x : Encoder) :
    (endChunk last (s.setEncoder e)).map (State.setEncoder · x) = (endChunk last s).map (State.setEncoder · x) := by
  let b : State := ((s.setPhase .matching).setEncoder (s.encoder.setIsLast last)).setMatcher
    (matchChunk (((s.matcher.setSb []).setLa []).setCpos 0))
  have h := encBlock_scratch b (e.setIsLast last) x rfl
  show Res.map ((encBlock (b.setEncoder (e.setIsLast last))).andThen _) _ = Res.map ((encBlock b).andThen _) _
  clear_value b
  revert h
  cases encBlock (b.setEncoder (e.setIsLast last)) <;> cases encBlock b <;> simp only [Res.map_ok, Res.map_stop,
    Res.andThen_ok, Res.andThen_stop, Res.ok.injEq, Res.stop.injEq, reduceCtorEq, imp_self]
  rename_i u v
  intro h
  have hu : ∀ u : State, (((u.setMatcher ((u.matcher.setCb []).setCpos 0)).setEncoder (releaseScratch u.encoder)).setPhase
      .idle).setEncoder x = ((u.setEncoder x).setMatcher (((u.setEncoder x).matcher.setCb []).setCpos 0)).setPhase .idle :=
    fun _ => rfl
  rw [hu, hu, h]

end Sys2Proof.Machine
end

