-- ==== Sys2Proof/Laws/PerInstr.lean ====
section
/-! SUPPORT. The statement per instruction: the encoder puts each row in a word of the row's own format (R107). One
lemma per constructor. -/

namespace Sys2Proof.Laws.FormatKept

/-- The format of an instruction's word is the format of its row. -/
def Statement (i : Instr) : Prop := (encode i).format = i.format

theorem nop : Statement .nop := rfl
theorem push (b : BitVec 8) : Statement (.push b) := rfl
theorem endc : Statement .endc := rfl
theorem ends : Statement .ends := rfl
theorem flush : Statement .flush := rfl
theorem rderr : Statement .rderr := rfl
theorem symLit (v : BitVec 8) : Statement (.symLit v) := rfl
theorem symEob : Statement .symEob := rfl
theorem symEos : Statement .symEos := rfl
theorem symPtr (d l : BitVec 16) : Statement (.symPtr d l) := rfl
theorem llLiteral (v : BitVec 8) : Statement (.llLiteral v) := rfl
theorem llEob : Statement .llEob := rfl
theorem llLen0 : Statement .llLen0 := rfl
theorem llLen1 : Statement .llLen1 := rfl
theorem llLen2 : Statement .llLen2 := rfl
theorem llLen3 : Statement .llLen3 := rfl
theorem llLen4 : Statement .llLen4 := rfl
theorem llLen5 : Statement .llLen5 := rfl
theorem llLen6 : Statement .llLen6 := rfl
theorem llLen7 : Statement .llLen7 := rfl
theorem llLen8 (x : BitVec 1) : Statement (.llLen8 x) := rfl
theorem llLen9 (x : BitVec 1) : Statement (.llLen9 x) := rfl
theorem llLen10 (x : BitVec 1) : Statement (.llLen10 x) := rfl
theorem llLen11 (x : BitVec 1) : Statement (.llLen11 x) := rfl
theorem llLen12 (x : BitVec 2) : Statement (.llLen12 x) := rfl
theorem llLen13 (x : BitVec 2) : Statement (.llLen13 x) := rfl
theorem llLen14 (x : BitVec 2) : Statement (.llLen14 x) := rfl
theorem llLen15 (x : BitVec 2) : Statement (.llLen15 x) := rfl
theorem llLen16 (x : BitVec 3) : Statement (.llLen16 x) := rfl
theorem llLen17 (x : BitVec 3) : Statement (.llLen17 x) := rfl
theorem llLen18 (x : BitVec 3) : Statement (.llLen18 x) := rfl
theorem llLen19 (x : BitVec 3) : Statement (.llLen19 x) := rfl
theorem llLen20 (x : BitVec 4) : Statement (.llLen20 x) := rfl
theorem llLen21 (x : BitVec 4) : Statement (.llLen21 x) := rfl
theorem llLen22 (x : BitVec 4) : Statement (.llLen22 x) := rfl
theorem llLen23 (x : BitVec 4) : Statement (.llLen23 x) := rfl
theorem llLen24 (x : BitVec 5) : Statement (.llLen24 x) := rfl
theorem llLen25 (x : BitVec 5) : Statement (.llLen25 x) := rfl
theorem llLen26 (x : BitVec 5) : Statement (.llLen26 x) := rfl
theorem llLen27 (x : BitVec 5) : Statement (.llLen27 x) := rfl
theorem llLen28 : Statement .llLen28 := rfl
theorem llEos : Statement .llEos := rfl
theorem dDist0 : Statement .dDist0 := rfl
theorem dDist1 : Statement .dDist1 := rfl
theorem dDist2 : Statement .dDist2 := rfl
theorem dDist3 : Statement .dDist3 := rfl
theorem dDist4 (x : BitVec 1) : Statement (.dDist4 x) := rfl
theorem dDist5 (x : BitVec 1) : Statement (.dDist5 x) := rfl
theorem dDist6 (x : BitVec 2) : Statement (.dDist6 x) := rfl
theorem dDist7 (x : BitVec 2) : Statement (.dDist7 x) := rfl
theorem dDist8 (x : BitVec 3) : Statement (.dDist8 x) := rfl
theorem dDist9 (x : BitVec 3) : Statement (.dDist9 x) := rfl
theorem dDist10 (x : BitVec 4) : Statement (.dDist10 x) := rfl
theorem dDist11 (x : BitVec 4) : Statement (.dDist11 x) := rfl
theorem dDist12 (x : BitVec 5) : Statement (.dDist12 x) := rfl
theorem dDist13 (x : BitVec 5) : Statement (.dDist13 x) := rfl
theorem dDist14 (x : BitVec 6) : Statement (.dDist14 x) := rfl
theorem dDist15 (x : BitVec 6) : Statement (.dDist15 x) := rfl
theorem dDist16 (x : BitVec 7) : Statement (.dDist16 x) := rfl
theorem dDist17 (x : BitVec 7) : Statement (.dDist17 x) := rfl
theorem dDist18 (x : BitVec 8) : Statement (.dDist18 x) := rfl
theorem dDist19 (x : BitVec 8) : Statement (.dDist19 x) := rfl
theorem dDist20 (x : BitVec 9) : Statement (.dDist20 x) := rfl
theorem dDist21 (x : BitVec 9) : Statement (.dDist21 x) := rfl
theorem dDist22 (x : BitVec 10) : Statement (.dDist22 x) := rfl
theorem dDist23 (x : BitVec 10) : Statement (.dDist23 x) := rfl
theorem dDist24 (x : BitVec 11) : Statement (.dDist24 x) := rfl
theorem dDist25 (x : BitVec 11) : Statement (.dDist25 x) := rfl
theorem dDist26 (x : BitVec 12) : Statement (.dDist26 x) := rfl
theorem dDist27 (x : BitVec 12) : Statement (.dDist27 x) := rfl
theorem dDist28 (x : BitVec 13) : Statement (.dDist28 x) := rfl
theorem dDist29 (x : BitVec 13) : Statement (.dDist29 x) := rfl
theorem hdrField (l : BitVec 8) : Statement (.hdrField l) := rfl
theorem status (f : BitVec 1) (n c : BitVec 3) : Statement (.status f n c) := rfl

end Sys2Proof.Laws.FormatKept
end

