-- ==== Sys2Proof/Laws/Step.lean ====
section
/-! SUPPORT. What a step takes from the inbox, and the words placed for it. -/

namespace Sys2Proof.Machine

/-- Every word is accepted while `cmd_ready` is held (R90). -/
theorem acceptsNow_of_ready {s : State} (w : PortWord) (h : s.cmdReady = true) : acceptsNow w s = true := by
  simp [acceptsNow, h]

/-- The status word can be sampled in any phase (R35, R318). -/
theorem acceptsNow_sts (w : BitVec 8) (s : State) : acceptsNow (.sts w) s = true := by
  simp [acceptsNow, PortWord.format]

theorem cmdReady_iff (s : State) : s.cmdReady = true ↔ s.phase = .idle ∨ s.phase = .halt := by
  simp [State.cmdReady]

theorem fetch_nil {s : State} (h : s.inbox = []) : fetch s = .idle := by
  simp [fetch, h]

theorem fetch_rst {s : State} {rest : List HostInput} (h : s.inbox = .rst :: rest) :
    fetch s = .reset (s.setInbox rest) := by
  simp [fetch, h]

/-- A word the step takes, read by the decoder. -/
theorem fetch_word {s : State} {w : PortWord} {rest : List HostInput} (h : s.inbox = .word w :: rest)
    (ha : acceptsNow w s = true) :
    fetch s = match decode w with
      | .instr i => .run i (s.setInbox rest)
      | .reject r => .reject r (s.setInbox rest) := by
  have ha' : acceptsNow w (s.setInbox rest) = true := ha
  have e : fetch s = fetchWord w (s.setInbox rest) := by simp [fetch, h]
  cases hd : decode w <;> simp [e, fetchWord, ha', hd]

/-- What a step does with an instruction it has fetched. -/
theorem step_of_fetch_run {s t : State} {i : Instr} (h : fetch s = .run i t) : step s = exec i t := by
  simp [step, h]

/-- What a step does with a rejected word. -/
theorem step_of_fetch_reject {s t : State} {r : Reject} (h : fetch s = .reject r t) : step s = refuseWord r t := by
  simp [step, h]

/-- Everything a rejected word can do to a CORE without fault (R101, R102). -/
theorem refuseWord_cases (r : Reject) (s : State) :
    (r = .reservedStatusBit ∧ refuseWord r s = .next s) ∨
    (∃ c, Reject.fault? r = some c ∧ (c = .fCmd ∨ c = .fRange) ∧
      refuseWord r s = unitOp (fun s => .stop c s) s) := by
  cases r
  all_goals first
    | exact .inl ⟨rfl, rfl⟩
    | exact .inr ⟨_, rfl, .inl rfl, rfl⟩
    | exact .inr ⟨_, rfl, .inr rfl, rfl⟩

@[simp] theorem present_inbox (w : PortWord) (s : State) : (present w s).inbox = .word w :: s.inbox := rfl
@[simp] theorem present_phase (w : PortWord) (s : State) : (present w s).phase = s.phase := rfl
@[simp] theorem present_setInbox (w : PortWord) (s : State) : (present w s).setInbox s.inbox = s := rfl

theorem fetch_cut {s : State} {w : PortWord} {rest : List HostInput} (h : s.inbox = .cut w :: rest) :
    fetch s = .cut w (s.setInbox rest) := by
  simp [fetch, h]

/-! ### Reset -/

/-- After `rst` every element of R41 has its value, OUT has moved to the record of what stays delivered, and the model's own
inputs, records and counters are as they were (R310, R311). -/
theorem applyReset_eq (s : State) :
    (applyReset s).matcher = State.reset.matcher ∧ (applyReset s).fault = .fNone ∧ (applyReset s).fin = false ∧
    (applyReset s).phase = .idle ∧ (applyReset s).writer.pend = [] ∧ (applyReset s).writer.out = [] ∧
    (applyReset s).encoder = freeScratch false s.encoder.draws ∧ (applyReset s).inbox = s.inbox ∧
    (applyReset s).samples = s.samples ∧ (applyReset s).earlier = s.earlier ++ s.writer.out ∧
    (applyReset s).cuts = s.cuts ∧ (applyReset s).writer.answers = s.writer.answers ∧
    (applyReset s).writer.draws = s.writer.draws :=
  ⟨rfl, rfl, rfl, rfl, rfl, rfl, rfl, rfl, rfl, rfl, rfl, rfl, rfl⟩

/-- A command cut short (R311): the state is that of `rst` from a state in which a number of the command's sink events, at
most all of them, have been delivered, each for one answer of the sink. -/
theorem abandon_eq (s whole : State) : ∃ n, n ≤ (whole.writer.out.drop s.writer.out.length).length ∧
    (abandon s whole).earlier =
      whole.earlier ++ (s.writer.out ++ (whole.writer.out.drop s.writer.out.length).take n) ∧
    (abandon s whole).writer.answers = s.writer.answers.drop n ∧ (abandon s whole).cuts = s.cuts + 1 ∧
    (abandon s whole).inbox = whole.inbox ∧ (abandon s whole).samples = whole.samples ∧
    (abandon s whole).matcher = State.reset.matcher ∧ (abandon s whole).encoder.isLast = false ∧
    (abandon s whole).writer.pend = [] ∧ (abandon s whole).writer.out = [] ∧ (abandon s whole).fault = .fNone ∧
    (abandon s whole).fin = false ∧ (abandon s whole).phase = .idle :=
  ⟨min (Config.abandonPoint s.cuts) _, Nat.min_le_right _ _, rfl, rfl, rfl, rfl, rfl, rfl, rfl, rfl, rfl, rfl, rfl, rfl⟩

end Sys2Proof.Machine
end

