-- ==== Sys2Proof/Machine/Script.lean ====
section
/-! DEFINITION. The command script of R105 and the pseudo-commands of R106: text to host commands, "each line is one
host command" but for the pseudo-commands. No step uses it: a script is what a host sends, in order. -/

namespace Sys2Proof.Machine

/-- The data of a line: a text, or a list of numbers (R106). -/
inductive ScriptData where
  | text (cs : List Char)
  | numbers (ns : List Nat)
deriving DecidableEq, Repr

/-- A line of a script (R105, R106). -/
inductive ScriptLine where
  | command (i : Instr)
  | data (d : ScriptData)
  | chunk (d : ScriptData)
  | final (d : ScriptData)
  | rep (n : Nat) (b : BitVec 8)
  /-- A line without a word, no command (log 21). -/
  | blank
deriving DecidableEq, Repr

/-- The bytes of a datum: a character's ASCII code, or a number 0 to 255; anything else is no data (R105, R106). -/
def bytesOfNumbers : List Nat → Option (List Byte)
  | [] => some []
  | n :: ns => if n ≤ 255 then (bytesOfNumbers ns).map (BitVec.ofNat 8 n :: ·) else none

/-- The bytes of a text: ASCII only (R106). -/
def bytesOfText : List Char → Option (List Byte)
  | [] => some []
  | c :: cs => if c.toNat ≤ 127 then (bytesOfText cs).map (BitVec.ofNat 8 c.toNat :: ·) else none

/-- The bytes of a datum. -/
def ScriptData.bytes : ScriptData → Option (List Byte)
  | .text cs => bytesOfText cs
  | .numbers ns => bytesOfNumbers ns

/-- One `PUSH` per byte, in order (R106). -/
def pushAll (bs : List Byte) : List Instr := bs.map Instr.push

/-- The expansion of a line (R106): `CHUNK` ends with `ENDC`, `FINAL` with `ENDS` then `FLUSH`. -/
def ScriptLine.expand : ScriptLine → Option (List Instr)
  | .command i => some [i]
  | .data d => d.bytes.map pushAll
  | .chunk d => d.bytes.map fun bs => pushAll bs ++ [.endc]
  | .final d => d.bytes.map fun bs => pushAll bs ++ [.ends, .flush]
  | .rep n b => some (pushAll (List.replicate n b))
  | .blank => some []

/-! ### Reading the text -/

/-- A double quote. -/
def quoteChar : Char := Char.ofNat 34

/-- What separates the words of a line: space, tab, carriage return, and the comma between numbers (log 21). -/
def isGap (c : Char) : Bool := decide (c = ' ' ∨ c = Char.ofNat 9 ∨ c = Char.ofNat 13 ∨ c = ',')

/-- The lines of a text. -/
def splitLines : List Char → List (List Char)
  | [] => [[]]
  | c :: cs =>
    match splitLines cs with
    | [] => [[c]]
    | l :: ls => if c = Char.ofNat 10 then [] :: l :: ls else (c :: l) :: ls

/-- A line without its comment: from a semicolon outside a quoted text to the end (R105; log 21). -/
def stripComment : Bool → List Char → List Char
  | _, [] => []
  | quoted, c :: cs =>
    if c = quoteChar then c :: stripComment (!quoted) cs
    else if c = ';' ∧ quoted = false then []
    else c :: stripComment quoted cs

/-- A word of a line, or a quoted text. -/
inductive Token where
  | word (cs : List Char)
  | text (cs : List Char)
deriving DecidableEq, Repr

/-- Where the reading of a line stands: between words, inside a word, inside a quoted text. -/
inductive LexMode where
  | gap
  | word (acc : List Char)
  | text (acc : List Char)
deriving DecidableEq, Repr

/-- The words of a line; `none` if a quoted text does not end. -/
def lexLine : List Char → LexMode → Option (List Token)
  | [], .gap => some []
  | [], .word acc => some [.word acc.reverse]
  | [], .text _ => none
  | c :: cs, .gap =>
    if isGap c then lexLine cs .gap
    else if c = quoteChar then lexLine cs (.text [])
    else lexLine cs (.word [c])
  | c :: cs, .word acc =>
    if isGap c then (lexLine cs .gap).map (.word acc.reverse :: ·) else lexLine cs (.word (c :: acc))
  | c :: cs, .text acc =>
    if c = quoteChar then (lexLine cs .gap).map (.text acc.reverse :: ·) else lexLine cs (.text (c :: acc))

/-- The value of a digit in a base. -/
def digitValue (base : Nat) (c : Char) : Option Nat :=
  let n := c.toNat
  let v := if 48 ≤ n ∧ n ≤ 57 then n - 48
    else if 97 ≤ n ∧ n ≤ 102 then n - 87
    else if 65 ≤ n ∧ n ≤ 70 then n - 55
    else base
  if v < base then some v else none

/-- The value of digits in a base, most significant first. -/
def digitsValue (base : Nat) : List Char → Nat → Option Nat
  | [], acc => some acc
  | c :: cs, acc =>
    match digitValue base c with
    | some v => digitsValue base cs (acc * base + v)
    | none => none

/-- A number, decimal or `0x` hexadecimal (R105). -/
def readNumber : List Char → Option Nat
  | [] => none
  | '0' :: 'x' :: c :: cs => digitsValue 16 (c :: cs) 0
  | cs => digitsValue 10 cs 0

/-- The numbers a list of words spells. -/
def readNumbers : List Token → Option (List Nat)
  | [] => some []
  | .word w :: rest =>
    match readNumber w, readNumbers rest with
    | some n, some ns => some (n :: ns)
    | _, _ => none
  | .text _ :: _ => none

/-- The data that follows a pseudo-command: one quoted text, or a list of numbers (R106). R106 writes empty data as a quoted
empty text; that no data at all, a list of no numbers, is empty data too, and that a text beside anything else is no data, are
the model's choice (DESIGN CHOICE, log 21). -/
def readData : List Token → Option ScriptData
  | [.text cs] => some (.text cs)
  | ts => (readNumbers ts).map .numbers

/-- A number 0 to 255 as a byte (R105). -/
def readByte (w : List Char) : Option (BitVec 8) :=
  match readNumber w with
  | some n => if n ≤ 255 then some (BitVec.ofNat 8 n) else none
  | none => none

/-- A line of the script from its words (R105, R106); mnemonics are case-sensitive capitals. R105 does not speak of a line
without a word, empty or a comment alone: that it is no command is the model's choice (DESIGN CHOICE, log 21). -/
def readLine : List Token → Option ScriptLine
  | [] => some .blank
  | .text _ :: _ => none
  | .word m :: args =>
    if m = "PUSH".toList then
      match args with
      | [.word w] => (readByte w).map fun b => .command (.push b)
      | _ => none
    else if m = "DATA".toList then (readData args).map .data
    else if m = "CHUNK".toList then (readData args).map .chunk
    else if m = "FINAL".toList then (readData args).map .final
    else if m = "REP".toList then
      match args with
      | [.word n, .word b] =>
        match readNumber n, readByte b with
        | some n, some b => some (.rep n b)
        | _, _ => none
      | _ => none
    else if args ≠ [] then none
    else if m = "NOP".toList then some (.command .nop)
    else if m = "ENDC".toList then some (.command .endc)
    else if m = "ENDS".toList then some (.command .ends)
    else if m = "FLUSH".toList then some (.command .flush)
    else if m = "RDERR".toList then some (.command .rderr)
    else none

/-- One line assembled. -/
def assembleLine (line : List Char) : Option (List Instr) :=
  match lexLine (stripComment false line) .gap with
  | some ts => (readLine ts).bind ScriptLine.expand
  | none => none

/-- Lines assembled in order, "executed top to bottom" (R105). -/
def assembleLines : List (List Char) → Option (List Instr)
  | [] => some []
  | l :: ls =>
    match assembleLine l, assembleLines ls with
    | some is, some js => some (is ++ js)
    | _, _ => none

/-- A script assembled to the host commands it sends (R105, R106). -/
def assemble (script : List Char) : Option (List Instr) := assembleLines (splitLines script)

/-- The words of a script (R100, R105). -/
def scriptWords (script : List Char) : Option (List PortWord) := (assemble script).map (List.map encode)

end Sys2Proof.Machine
end

