-- ==== Sys2Proof/Tests/Slice0.lean ====
section
/-! SUPPORT. This package's own tests. Words are written out from 30_encoding.md; expected results are those of
95_test_vectors.md, named in each comment, or are worked by hand from a rule. Then a named witness for the hypotheses of
each obligation that has any. -/

namespace Sys2Proof.Tests

open Sys2Proof.Machine

/-! ### Helpers -/

/-- The next state of an outcome. -/
def nextOf : Host.Outcome State Fault Refusal → Option State
  | .next s => some s
  | .fault _ => none
  | .refused _ => none

/-- The next state, or the state after reset where there is none; used where `nextOf` is not the point. -/
def after (o : Host.Outcome State Fault Refusal) : State := (nextOf o).getD State.reset

/-- A state whose sink is going to give these answers. -/
def withAnswers (l : List SinkAnswer) (s : State) : State := s.setWriter (s.writer.setAnswers l)

/-- The state after reset with a sink that takes the next `n` requests. -/
def fresh (n : Nat) : State := withAnswers (List.replicate n .ok) State.reset

/-- The state after reset with a chunk in the chunk buffer. -/
def holding (cb : List Byte) (n : Nat) : State := (fresh n).setMatcher ((fresh n).matcher.setCb cb)

/-- A state in which a block with these slots of the two code tables is being emitted. -/
def withCodes (ll d : List (Nat × Code)) (s : State) : State :=
  (s.setPhase .emit).setEncoder ((s.encoder.setTl (ll.foldl (fun t p => t.set p.1 p.2) s.encoder.tl)).setTd
    (d.foldl (fun t p => t.set p.1 p.2) s.encoder.td))

/-- The writer with these bits pending. -/
def pending (bits : List Bool) (s : State) : State := s.setWriter (s.writer.setPend bits)

/-- ASCII text as bytes. -/
def ascii (t : String) : List Byte := t.toList.map fun c => BitVec.ofNat 8 c.toNat

/-- The nonzero bytes of a list, with their positions. -/
def nonzero : Nat → List Byte → List (Nat × Nat)
  | _, [] => []
  | n, b :: bs => if b = 0 then nonzero (n + 1) bs else (n, b.toNat) :: nonzero (n + 1) bs

/-- What a host sees of a state: how many bytes are out, the nonzero ones, the pending bits and STATUS. -/
def view (s : State) : Nat × List (Nat × Nat) × List Bool × Nat :=
  (s.outBytes.length, nonzero 0 s.outBytes, s.writer.pend, s.status.toNat)

/-- Two bits of OUT: `1` and `0` of the spec's bit strings. -/
def bits (t : String) : List Bool := t.toList.map fun c => decide (c = '1')

/-! ### WellFormed: each check refuses an ill-formed instruction -/

theorem test_wf_pointer_distance_zero : Instr.wellFormed (.symPtr 0 3) = false := by decide
theorem test_wf_pointer_distance_above : Instr.wellFormed (.symPtr 32769 3) = false := by decide
theorem test_wf_pointer_length_below : Instr.wellFormed (.symPtr 1 2) = false := by decide
theorem test_wf_pointer_length_above : Instr.wellFormed (.symPtr 1 259) = false := by decide
theorem test_wf_pointer_bounds :
    Instr.wellFormed (.symPtr 1 3) = true ∧ Instr.wellFormed (.symPtr 32768 258) = true := by decide
theorem test_wf_offset_31_of_length_code_27 :
    Instr.wellFormed (.llLen27 31) = false ∧ Instr.wellFormed (.llLen27 30) = true := by decide

/-! ### Decoding: words written out from the encodings of 30_encoding.md -/

/-- R90, R100: `op` in bits 15:12. -/
theorem test_decode_cmd :
    decode (.cmd 0b0000000000000000) = .instr .nop ∧ decode (.cmd 0b0001000001100001) = .instr (.push 0x61) ∧
    decode (.cmd 0b0001000000000000) = .instr (.push 0) ∧ decode (.cmd 0b0001000011111111) = .instr (.push 255) ∧
    decode (.cmd 0b0010000000000000) = .instr .endc ∧ decode (.cmd 0b0011000000000000) = .instr .ends ∧
    decode (.cmd 0b0100000000000000) = .instr .flush ∧ decode (.cmd 0b0101000000000000) = .instr .rderr := by decide

/-- R101, vectors K3 to K6. -/
theorem test_decode_cmd_illegal :
    decode (.cmd 0x6000) = .reject .reservedOp ∧ decode (.cmd 0xFFFF) = .reject .reservedOp ∧
    decode (.cmd 0x1161) = .reject .reservedBits ∧ decode (.cmd 0x2001) = .reject .strayData ∧
    decode (.cmd 0x0100) = .reject .reservedBits ∧ decode (.cmd 0x0001) = .reject .strayData := by decide

/-- R93: `tag` in bit 32, `hi` in bits 31:16, `lo` in bits 15:0. -/
theorem test_decode_sym :
    decode (.sym 0b000000000000000000000000001100001) = .instr (.symLit 0x61) ∧
    decode (.sym 0b000000000000000000000000011111111) = .instr (.symLit 255) ∧
    decode (.sym 0b000000000000000000000000100000000) = .instr .symEob ∧
    decode (.sym 0b000000000000000000000000100011110) = .instr .symEos ∧
    decode (.sym 0b100000000000000010000000000001001) = .instr (.symPtr 1 9) ∧
    decode (.sym 0b110000000000000000000000100000010) = .instr (.symPtr 32768 258) := by decide

/-- R102. -/
theorem test_decode_sym_reserved :
    decode (.sym 257) = .reject .reservedSymbol ∧ decode (.sym 285) = .reject .reservedSymbol ∧
    decode (.sym 287) = .reject .reservedSymbol ∧ decode (.sym 0x000010061) = .reject .reservedSymbol ∧
    decode (.sym 0x100000003) = .reject .reservedSymbol ∧ decode (.sym 0x180010003) = .reject .reservedSymbol ∧
    decode (.sym 0x100010002) = .reject .reservedSymbol ∧ decode (.sym 0x100010103) = .reject .reservedSymbol := by
  decide

/-- R94: the ids of literals, end-of-block and end-of-stream. -/
theorem test_decode_literal_ids :
    decode (.llid 0b000000000 0) = .instr (.llLiteral 0) ∧
    decode (.llid 0b011111111 0) = .instr (.llLiteral 255) ∧
    decode (.llid 0b100000000 0) = .instr .llEob ∧
    decode (.llid 0b100011110 0) = .instr .llEos ∧
    decode (.llid 0b100011111 0) = .reject .noSuchId ∧
    decode (.llid 0b100000000 1) = .reject .extraOutOfRange := by decide

/-- R94, R192: id 257 + k, with the greatest offset the extra bits hold and the code has. -/
theorem test_decode_length_ids_0_to_9 :
    decode (.llid 0b100000001 0) = .instr .llLen0 ∧
    decode (.llid 0b100000010 0) = .instr .llLen1 ∧
    decode (.llid 0b100000011 0) = .instr .llLen2 ∧
    decode (.llid 0b100000100 0) = .instr .llLen3 ∧
    decode (.llid 0b100000101 0) = .instr .llLen4 ∧
    decode (.llid 0b100000110 0) = .instr .llLen5 ∧
    decode (.llid 0b100000111 0) = .instr .llLen6 ∧
    decode (.llid 0b100001000 0) = .instr .llLen7 ∧
    decode (.llid 0b100001001 1) = .instr (.llLen8 1) ∧
    decode (.llid 0b100001010 1) = .instr (.llLen9 1) := by decide

/-- R94, R192: id 257 + k, with the greatest offset the extra bits hold and the code has. -/
theorem test_decode_length_ids_10_to_19 :
    decode (.llid 0b100001011 1) = .instr (.llLen10 1) ∧
    decode (.llid 0b100001100 1) = .instr (.llLen11 1) ∧
    decode (.llid 0b100001101 3) = .instr (.llLen12 3) ∧
    decode (.llid 0b100001110 3) = .instr (.llLen13 3) ∧
    decode (.llid 0b100001111 3) = .instr (.llLen14 3) ∧
    decode (.llid 0b100010000 3) = .instr (.llLen15 3) ∧
    decode (.llid 0b100010001 7) = .instr (.llLen16 7) ∧
    decode (.llid 0b100010010 7) = .instr (.llLen17 7) ∧
    decode (.llid 0b100010011 7) = .instr (.llLen18 7) ∧
    decode (.llid 0b100010100 7) = .instr (.llLen19 7) := by decide

/-- R94, R192: id 257 + k, with the greatest offset the extra bits hold and the code has. -/
theorem test_decode_length_ids_20_to_28 :
    decode (.llid 0b100010101 15) = .instr (.llLen20 15) ∧
    decode (.llid 0b100010110 15) = .instr (.llLen21 15) ∧
    decode (.llid 0b100010111 15) = .instr (.llLen22 15) ∧
    decode (.llid 0b100011000 15) = .instr (.llLen23 15) ∧
    decode (.llid 0b100011001 31) = .instr (.llLen24 31) ∧
    decode (.llid 0b100011010 31) = .instr (.llLen25 31) ∧
    decode (.llid 0b100011011 31) = .instr (.llLen26 31) ∧
    decode (.llid 0b100011100 30) = .instr (.llLen27 30) ∧
    decode (.llid 0b100011101 0) = .instr .llLen28 := by decide

/-- R95, R193: id k, with the greatest offset the extra bits hold. -/
theorem test_decode_distance_ids_0_to_9 :
    decode (.did 0b00000 0) = .instr .dDist0 ∧
    decode (.did 0b00001 0) = .instr .dDist1 ∧
    decode (.did 0b00010 0) = .instr .dDist2 ∧
    decode (.did 0b00011 0) = .instr .dDist3 ∧
    decode (.did 0b00100 1) = .instr (.dDist4 1) ∧
    decode (.did 0b00101 1) = .instr (.dDist5 1) ∧
    decode (.did 0b00110 3) = .instr (.dDist6 3) ∧
    decode (.did 0b00111 3) = .instr (.dDist7 3) ∧
    decode (.did 0b01000 7) = .instr (.dDist8 7) ∧
    decode (.did 0b01001 7) = .instr (.dDist9 7) := by decide

/-- R95, R193: id k, with the greatest offset the extra bits hold. -/
theorem test_decode_distance_ids_10_to_19 :
    decode (.did 0b01010 15) = .instr (.dDist10 15) ∧
    decode (.did 0b01011 15) = .instr (.dDist11 15) ∧
    decode (.did 0b01100 31) = .instr (.dDist12 31) ∧
    decode (.did 0b01101 31) = .instr (.dDist13 31) ∧
    decode (.did 0b01110 63) = .instr (.dDist14 63) ∧
    decode (.did 0b01111 63) = .instr (.dDist15 63) ∧
    decode (.did 0b10000 127) = .instr (.dDist16 127) ∧
    decode (.did 0b10001 127) = .instr (.dDist17 127) ∧
    decode (.did 0b10010 255) = .instr (.dDist18 255) ∧
    decode (.did 0b10011 255) = .instr (.dDist19 255) := by decide

/-- R95, R193: id k, with the greatest offset the extra bits hold. -/
theorem test_decode_distance_ids_20_to_29 :
    decode (.did 0b10100 511) = .instr (.dDist20 511) ∧
    decode (.did 0b10101 511) = .instr (.dDist21 511) ∧
    decode (.did 0b10110 1023) = .instr (.dDist22 1023) ∧
    decode (.did 0b10111 1023) = .instr (.dDist23 1023) ∧
    decode (.did 0b11000 2047) = .instr (.dDist24 2047) ∧
    decode (.did 0b11001 2047) = .instr (.dDist25 2047) ∧
    decode (.did 0b11010 4095) = .instr (.dDist26 4095) ∧
    decode (.did 0b11011 4095) = .instr (.dDist27 4095) ∧
    decode (.did 0b11100 8191) = .instr (.dDist28 8191) ∧
    decode (.did 0b11101 8191) = .instr (.dDist29 8191) := by decide

/-- R95, R98, R194: ids and offsets that do not exist. -/
theorem test_decode_ids_reject :
    decode (.did 0b11110 0) = .reject .noSuchId ∧ decode (.did 0b11111 0) = .reject .noSuchId ∧
    decode (.did 4 2) = .reject .extraOutOfRange ∧ decode (.llid 265 2) = .reject .extraOutOfRange ∧
    decode (.llid 284 31) = .reject .extraOutOfRange := by decide

/-- R91, R96: FIN in bit 7, NBITS in bits 5:3, FAULT in bits 2:0. -/
theorem test_decode_header_and_status :
    decode (.hdr 0b00000010) = .instr (.hdrField 2) ∧ decode (.sts 0b10010100) = .instr (.status 1 2 4) ∧
    decode (.sts 0b01000000) = .reject .reservedStatusBit := by decide

/-- The words of spec/opcode_table.json, in the bit numbering of its rows. -/
theorem test_table_words :
    decodeTableWord 16 0x1061 = some (.push 0x61) ∧ decodeTableWord 40 0x100010009 = some (.symPtr 1 9) ∧
    decodeTableWord 33 286 = some .symEos ∧ decodeTableWord 9 265 = some (.llLen8 0) ∧
    decodeTableWord 16 265 = some (.llLen8 0) ∧ decodeTableWord 8 29 = some (.dDist29 0) ∧
    decodeTableWord 5 29 = some (.dDist29 0) ∧ decodeTableWord 16 0x6000 = none := by decide

/-! ### Commands, one step each -/

/-- Vector K1. -/
theorem test_nop : nextOf (step (present (.cmd 0x0000) State.reset)) = some State.reset := rfl

/-- Vector K2: the byte pushed is the word's data. -/
theorem test_push :
    step (present (.cmd 0x1061) State.reset) =
      .next (State.reset.setMatcher (State.reset.matcher.setCb [0x61])) := by
  have e : step (present (.cmd 0x1061) State.reset) = execPush 0x61 State.reset := rfl
  have h : ¬ State.reset.matcher.cb.length = Config.chunkMax := Nat.ne_of_lt chunkMax_pos
  rw [e, execPush, command_runs rfl (.inl rfl), if_neg h]
  rfl

/-- Vectors K12 and P8: `PUSH` after the end is refused. -/
theorem test_push_after_end :
    ((after (step (present (.cmd 0x1000) (State.reset.setFin true)))).status = 0x84) := by decide

/-- Program P3, block 1: the output and the state after its `ENDC`. -/
theorem test_endc :
    let t := after (step (present (.cmd 0x2000) (holding (ascii "abcabc") 400)))
    view t = (318, [(97, 3), (98, 3), (99, 2), (256, 2), (257, 2), (317, 0x7C)], [false, true, true, false], 0x20) ∧
      t.matcher.w = ascii "abcabc" ∧ t.matcher.cb = [] ∧ t.phase = .idle := by decide +kernel

/-- Program P5 and vector E4: an empty non-final block. -/
theorem test_endc_empty : view (after (step (present (.cmd 0x2000) (fresh 317)))) = (317, [], [], 0) := by
  decide +kernel

/-- Program P1: the output after its `ENDS`. -/
theorem test_ends :
    let t := after (step (present (.cmd 0x3000) (holding (ascii "aaaaaaaaaa") 400)))
    view t = (318, [(97, 2), (256, 2), (263, 2), (286, 2), (317, 0x1B)], [], 0x80) ∧
      t.matcher.w = ascii "aaaaaaaaaa" ∧ t.matcher.cb = [] := by decide +kernel

/-- Vector K14: the sink fails the first header byte. -/
theorem test_ends_sink_failure :
    let t := after (step (present (.cmd 0x3000) (withAnswers [.fail] State.reset)))
    view t = (0, [], [], 0x02) ∧ t.phase = .halt := by decide +kernel

/-- Vector K7: `FLUSH` before any data. -/
theorem test_flush_empty :
    let t := after (step (present (.cmd 0x4000) (fresh 1)))
    t.writer.out = [.flushMark] ∧ t.status = 0x00 := by decide

/-- Program P2: `FLUSH` after its `ENDS`, bits `01` pending. -/
theorem test_flush_pads :
    let t := after (step (present (.cmd 0x4000) ((pending (bits "01") (fresh 2)).setFin true)))
    t.writer.out = [.byte 0x40, .flushMark] ∧ t.status = 0x80 := by decide

/-- Vector K8. -/
theorem test_rderr :
    let t := after (step (present (.cmd 0x5000) State.reset))
    t.status = 0x01 ∧ t.phase = .halt ∧ t.faultOut = true := by decide

/-- Vector K9: a faulted CORE ignores an illegal word too. -/
theorem test_faulted_ignores :
    (after (step (present (.cmd 0x6000) (raise .fRead State.reset)))).status = 0x01 := by decide

/-- Vectors K3 and K6: an illegal word. -/
theorem test_illegal_word :
    (after (step (present (.cmd 0x6000) State.reset))).status = 0x04 ∧
    (after (step (present (.cmd 0xFFFF) State.reset))).phase = .halt := by decide

/-- R310, R311: reset, also out of HALT; what was delivered stays delivered. -/
theorem test_reset_input :
    let s := (raise .fRead (State.reset.setFin true)).setWriter (State.reset.writer.setOut [.byte 7])
    let t := after (step (s.setInbox [.rst]))
    t.status = 0x00 ∧ t.phase = .idle ∧ t.writer.out = [] ∧ t.earlier = [.byte 7] := by decide

/-- R311: a `FLUSH` cut short. Bits `01` are pending; the sink may have had nothing, the padded byte, or that and the flush
request, and whichever it was OUT starts empty. -/
theorem test_reset_during_command :
    let t := after (step ((pending (bits "01") (fresh 2)).setInbox [.cut (.cmd 0x4000)]))
    (t.earlier = [] ∨ t.earlier = [.byte 0x40] ∨ t.earlier = [.byte 0x40, .flushMark]) ∧ t.writer.out = [] ∧
      t.writer.pend = [] ∧ t.phase = .idle := by
  intro t
  have e : t.earlier = List.take (min (Config.abandonPoint 0) 2) [SinkEvent.byte 0x40, .flushMark] := rfl
  refine ⟨?_, rfl, rfl, rfl⟩
  rw [e]
  have h : min (Config.abandonPoint 0) 2 ≤ 2 := Nat.min_le_right _ _
  generalize min (Config.abandonPoint 0) 2 = n at h
  match n, h with
  | 0, _ => exact .inl rfl
  | 1, _ => exact .inr (.inl rfl)
  | 2, _ => exact .inr (.inr rfl)

/-! ### Symbol words (R93) -/

/-- What a symbol that fits does. -/
theorem pushSymbol_reset {sym : Symbol} (h : sym.legal = true) :
    pushSymbol sym State.reset = .ok (State.reset.setMatcher (State.reset.matcher.setSb [sym])) :=
  if_pos ⟨h, Nat.zero_le _⟩

theorem test_sym_lit :
    step (present (.sym 0x061) State.reset) =
      .next (State.reset.setMatcher (State.reset.matcher.setSb [.lit 0x61])) := by
  have e : step (present (.sym 0x061) State.reset) = execSymLit 0x61 State.reset := rfl
  rw [e, execSymLit, unitOp_runs rfl, pushSymbol_reset (by decide)]
  rfl

/-- The sentinel is value 256 (R93). -/
theorem test_sym_eob :
    execSymEob State.reset = .next (State.reset.setMatcher (State.reset.matcher.setSb [.lit 256])) := by
  rw [execSymEob, unitOp_runs rfl, pushSymbol_reset (by decide)]
  rfl

/-- The end-of-stream id is value 286 (R93). -/
theorem test_sym_eos :
    execSymEos State.reset = .next (State.reset.setMatcher (State.reset.matcher.setSb [.lit 286])) := by
  rw [execSymEos, unitOp_runs rfl, pushSymbol_reset (by decide)]
  rfl

/-- A pointer's distance and length are not exchanged (R93). -/
theorem test_sym_ptr :
    execSymPtr 32768 3 State.reset = .next (State.reset.setMatcher (State.reset.matcher.setSb [.ptr 32768 3])) := by
  rw [execSymPtr, unitOp_runs rfl, pushSymbol_reset (by decide)]
  rfl

/-! ### Ids, the header field, status -/

/-- The stream after a row, from a state with these codes. -/
def streamOf (ll d : List (Nat × Code)) (i : Instr) : List Bool :=
  (after (exec i (withCodes ll d (fresh 20)))).writer.streamBits

/-- Codes by R97: bit `len - 1` first; vector E6 has the codes of 255, 256 and 286. -/
theorem test_literal_ids :
    let tl : List (Nat × Code) := [(255, ⟨0b01, 2⟩), (256, ⟨0b11, 2⟩), (286, ⟨0b0, 1⟩)]
    streamOf tl [] (.llLiteral 255) = bits "01" ∧ streamOf tl [] .llEob = bits "11" ∧
      streamOf tl [] .llEos = bits "0" := by decide +kernel

/-- The code of id 257 + k, then the offset in the extra bits of R192 (R98, R99). -/
theorem test_length_ids_0_to_9 :
    streamOf [(257, ⟨0b01, 2⟩)] [] .llLen0 = bits "01" ∧
    streamOf [(258, ⟨0b01, 2⟩)] [] .llLen1 = bits "01" ∧
    streamOf [(259, ⟨0b01, 2⟩)] [] .llLen2 = bits "01" ∧
    streamOf [(260, ⟨0b01, 2⟩)] [] .llLen3 = bits "01" ∧
    streamOf [(261, ⟨0b01, 2⟩)] [] .llLen4 = bits "01" ∧
    streamOf [(262, ⟨0b01, 2⟩)] [] .llLen5 = bits "01" ∧
    streamOf [(263, ⟨0b01, 2⟩)] [] .llLen6 = bits "01" ∧
    streamOf [(264, ⟨0b01, 2⟩)] [] .llLen7 = bits "01" ∧
    streamOf [(265, ⟨0b01, 2⟩)] [] (.llLen8 1) = bits "011" ∧
    streamOf [(266, ⟨0b01, 2⟩)] [] (.llLen9 1) = bits "011" := by decide +kernel

/-- The code of id 257 + k, then the offset in the extra bits of R192 (R98, R99). -/
theorem test_length_ids_10_to_19 :
    streamOf [(267, ⟨0b01, 2⟩)] [] (.llLen10 1) = bits "011" ∧
    streamOf [(268, ⟨0b01, 2⟩)] [] (.llLen11 1) = bits "011" ∧
    streamOf [(269, ⟨0b01, 2⟩)] [] (.llLen12 3) = bits "0111" ∧
    streamOf [(270, ⟨0b01, 2⟩)] [] (.llLen13 3) = bits "0111" ∧
    streamOf [(271, ⟨0b01, 2⟩)] [] (.llLen14 3) = bits "0111" ∧
    streamOf [(272, ⟨0b01, 2⟩)] [] (.llLen15 3) = bits "0111" ∧
    streamOf [(273, ⟨0b01, 2⟩)] [] (.llLen16 7) = bits "01111" ∧
    streamOf [(274, ⟨0b01, 2⟩)] [] (.llLen17 7) = bits "01111" ∧
    streamOf [(275, ⟨0b01, 2⟩)] [] (.llLen18 7) = bits "01111" ∧
    streamOf [(276, ⟨0b01, 2⟩)] [] (.llLen19 7) = bits "01111" := by decide +kernel

/-- The code of id 257 + k, then the offset in the extra bits of R192 (R98, R99). -/
theorem test_length_ids_20_to_28 :
    streamOf [(277, ⟨0b01, 2⟩)] [] (.llLen20 15) = bits "011111" ∧
    streamOf [(278, ⟨0b01, 2⟩)] [] (.llLen21 15) = bits "011111" ∧
    streamOf [(279, ⟨0b01, 2⟩)] [] (.llLen22 15) = bits "011111" ∧
    streamOf [(280, ⟨0b01, 2⟩)] [] (.llLen23 15) = bits "011111" ∧
    streamOf [(281, ⟨0b01, 2⟩)] [] (.llLen24 31) = bits "0111111" ∧
    streamOf [(282, ⟨0b01, 2⟩)] [] (.llLen25 31) = bits "0111111" ∧
    streamOf [(283, ⟨0b01, 2⟩)] [] (.llLen26 31) = bits "0111111" ∧
    streamOf [(284, ⟨0b01, 2⟩)] [] (.llLen27 30) = bits "0111110" ∧
    streamOf [(285, ⟨0b01, 2⟩)] [] .llLen28 = bits "01" := by decide +kernel

/-- The code of id k, then the offset in the extra bits of R193 (R98, R99). -/
theorem test_distance_ids_0_to_9 :
    streamOf [] [(0, ⟨0b01, 2⟩)] .dDist0 = bits "01" ∧
    streamOf [] [(1, ⟨0b01, 2⟩)] .dDist1 = bits "01" ∧
    streamOf [] [(2, ⟨0b01, 2⟩)] .dDist2 = bits "01" ∧
    streamOf [] [(3, ⟨0b01, 2⟩)] .dDist3 = bits "01" ∧
    streamOf [] [(4, ⟨0b01, 2⟩)] (.dDist4 1) = bits "011" ∧
    streamOf [] [(5, ⟨0b01, 2⟩)] (.dDist5 1) = bits "011" ∧
    streamOf [] [(6, ⟨0b01, 2⟩)] (.dDist6 2) = bits "0110" ∧
    streamOf [] [(7, ⟨0b01, 2⟩)] (.dDist7 2) = bits "0110" ∧
    streamOf [] [(8, ⟨0b01, 2⟩)] (.dDist8 6) = bits "01110" ∧
    streamOf [] [(9, ⟨0b01, 2⟩)] (.dDist9 6) = bits "01110" := by decide +kernel

/-- The code of id k, then the offset in the extra bits of R193 (R98, R99). -/
theorem test_distance_ids_10_to_19 :
    streamOf [] [(10, ⟨0b01, 2⟩)] (.dDist10 14) = bits "011110" ∧
    streamOf [] [(11, ⟨0b01, 2⟩)] (.dDist11 14) = bits "011110" ∧
    streamOf [] [(12, ⟨0b01, 2⟩)] (.dDist12 30) = bits "0111110" ∧
    streamOf [] [(13, ⟨0b01, 2⟩)] (.dDist13 30) = bits "0111110" ∧
    streamOf [] [(14, ⟨0b01, 2⟩)] (.dDist14 62) = bits "01111110" ∧
    streamOf [] [(15, ⟨0b01, 2⟩)] (.dDist15 62) = bits "01111110" ∧
    streamOf [] [(16, ⟨0b01, 2⟩)] (.dDist16 126) = bits "011111110" ∧
    streamOf [] [(17, ⟨0b01, 2⟩)] (.dDist17 126) = bits "011111110" ∧
    streamOf [] [(18, ⟨0b01, 2⟩)] (.dDist18 254) = bits "0111111110" ∧
    streamOf [] [(19, ⟨0b01, 2⟩)] (.dDist19 254) = bits "0111111110" := by decide +kernel

/-- The code of id k, then the offset in the extra bits of R193 (R98, R99). -/
theorem test_distance_ids_20_to_29 :
    streamOf [] [(20, ⟨0b01, 2⟩)] (.dDist20 510) = bits "01111111110" ∧
    streamOf [] [(21, ⟨0b01, 2⟩)] (.dDist21 510) = bits "01111111110" ∧
    streamOf [] [(22, ⟨0b01, 2⟩)] (.dDist22 1022) = bits "011111111110" ∧
    streamOf [] [(23, ⟨0b01, 2⟩)] (.dDist23 1022) = bits "011111111110" ∧
    streamOf [] [(24, ⟨0b01, 2⟩)] (.dDist24 2046) = bits "0111111111110" ∧
    streamOf [] [(25, ⟨0b01, 2⟩)] (.dDist25 2046) = bits "0111111111110" ∧
    streamOf [] [(26, ⟨0b01, 2⟩)] (.dDist26 4094) = bits "01111111111110" ∧
    streamOf [] [(27, ⟨0b01, 2⟩)] (.dDist27 4094) = bits "01111111111110" ∧
    streamOf [] [(28, ⟨0b01, 2⟩)] (.dDist28 8190) = bits "011111111111110" ∧
    streamOf [] [(29, ⟨0b01, 2⟩)] (.dDist29 8190) = bits "011111111111110" := by decide +kernel

/-- Program P4, `Ptr(6, 6)`: code 260, then distance code 4 with offset 1; vector E1: offset 8191 of code 29. -/
theorem test_pointer_parts :
    streamOf [(260, ⟨0b100, 3⟩)] [] .llLen3 = bits "100" ∧ streamOf [] [(4, ⟨0b1, 1⟩)] (.dDist4 1) = bits "11" ∧
    streamOf [] [(29, ⟨0, 0⟩)] (.dDist29 8191) = bits "1111111111111" := by decide +kernel

/-- Offset 31 of length code 27 is refused (R194). -/
theorem test_length_code_27_offset_31 : (after (exec (.llLen27 31) (fresh 20))).status = 0x05 := by decide

/-- Vector W12, first write: a header field is one byte. -/
theorem test_header_field : (after (exec (.hdrField 2) (fresh 1))).writer.out = [.byte 0x02] := by decide

/-- Header values above 45 cannot occur, and are refused (R103, U21). -/
theorem test_header_field_46 :
    (after (exec (.hdrField 45) (fresh 1))).writer.out = [.byte 45] ∧ (after (exec (.hdrField 46) (fresh 1))).status = 0x05 ∧
    (after (exec (.hdrField 46) (fresh 1))).writer.out = [] := by decide

/-- A header field with 4 bits pending is split over two bytes, as in program P3. -/
theorem test_header_field_unaligned :
    let t := after (exec (.hdrField 0) (pending (bits "0110") (fresh 1)))
    t.writer.out = [.byte 0x60] ∧ t.writer.pend = bits "0000" := by decide

/-- Vectors K10 and K15: the words the host reads. -/
theorem test_status :
    (after (exec (.status 0 0 0) (pending (bits "01") ((raise .fCmd State.reset).setFin true)))).samples = [0x94] ∧
    (after (exec (.status 0 0 0) ((raise .fWrite State.reset).setFin true))).samples = [0x82] := by decide

/-! ### The matcher (95_test_vectors.md part 2 section A) -/

/-- Vectors M1, M4, M5 and M6. -/
theorem test_match_short :
    chunkSymbols [] [] = [.lit 256] ∧
    chunkSymbols [] (ascii "aaa") = [.lit 0x61, .lit 0x61, .lit 0x61, .lit 256] ∧
    chunkSymbols [] (ascii "aaaa") = [.lit 0x61, .ptr 1 3, .lit 256] ∧
    chunkSymbols [] (ascii "abab") = [.lit 0x61, .lit 0x62, .lit 0x61, .lit 0x62, .lit 256] := by decide +kernel

/-- Vectors M11 and M12: the nearer of equals, the farther if strictly longer. -/
theorem test_match_choice :
    chunkSymbols [] (ascii "abcXabcYabc") =
      [.lit 0x61, .lit 0x62, .lit 0x63, .lit 0x58, .ptr 4 3, .lit 0x59, .ptr 4 3, .lit 256] ∧
    chunkSymbols [] (ascii "abcdXabcYabcd") =
      [.lit 0x61, .lit 0x62, .lit 0x63, .lit 0x64, .lit 0x58, .ptr 5 3, .lit 0x59, .ptr 9 4, .lit 256] := by
  decide +kernel

/-- Vectors M16 and M17: the longest pointer. -/
theorem test_match_longest :
    chunkSymbols [] (List.replicate 260 0x61) = [.lit 0x61, .ptr 1 258, .lit 0x61, .lit 256] ∧
    chunkSymbols [] (List.replicate 262 0x61) = [.lit 0x61, .ptr 1 258, .ptr 1 3, .lit 256] := by decide +kernel

/-- Vectors M19, M21 and M22: the window carried over a chunk end, and no lookahead across it. -/
theorem test_match_window :
    chunkSymbols (ascii "abcabc") (ascii "abcabc") = [.ptr 3 6, .lit 256] ∧
    chunkSymbols (ascii "ab") (ascii "cabc") = [.lit 0x63, .ptr 3 3, .lit 256] ∧
    chunkSymbols (ascii "xyzxy") (ascii "z") = [.lit 0x7A, .lit 256] := by decide +kernel

/-! ### The Huffman builder (part 2 section B) -/

/-- The codes of an alphabet as stream strings (R97). -/
def streams (freqs : List Nat) : List (List Bool) :=
  (codesOf (freqs.map (BitVec.ofNat 32)) freqs.length).map codeBits

/-- Vectors H1 to H4: no code, one leaf, the smaller weight left, a leaf before an internal node. -/
theorem test_huffman_small :
    streams [0, 0, 0, 0] = [[], [], [], []] ∧ streams [0, 0, 7, 0] = [[], [], [], []] ∧
    streams [3, 5] = [bits "0", bits "1"] ∧ streams [1, 1, 2] = [bits "01", bits "11", bits "0"] := by decide +kernel

/-- Vectors H6 and H8. -/
theorem test_huffman_shapes :
    streams [1, 3, 2, 2] = [bits "00", bits "11", bits "10", bits "01"] ∧
    streams [5, 9, 12, 13, 16, 45] =
      [bits "0011", bits "1011", bits "001", bits "101", bits "111", bits "0"] := by decide +kernel

/-- Vectors H10 and H11: ties, and ids of frequency zero. -/
theorem test_huffman_ties :
    streams [2, 2, 2, 2, 2] = [bits "011", bits "111", bits "00", bits "10", bits "01"] ∧
    streams [1, 0, 1, 0, 1] = [bits "01", [], bits "11", [], bits "0"] := by decide +kernel

/-! ### Maps, writer, block (part 2 sections C to E) -/

/-- Vectors T1, T2, T7, T12 and T16. -/
theorem test_maps :
    (lenMap 258, lenOffset 258 28) = (some 28, 0) ∧ (distMap 32768, distOffset 32768 29) = (some 29, 8191) ∧
    (lenMap 12, lenOffset 12 8) = (some 8, 1) ∧ (lenMap 257, lenOffset 257 27) = (some 27, 30) ∧
    (distMap 6, distOffset 6 4) = (some 4, 1) := by decide +kernel

/-- The writer after some writes, from reset with a sink that takes 20 requests. -/
def wrote : List (Nat × Nat) → Res Writer → Res Writer
  | [], r => r
  | (v, n) :: rest, r => wrote rest (r.andThen (wrWrite (BitVec.ofNat 128 v) n))

/-- Vectors W2, W4 and W6: bytes leave as soon as full, only the low-order bits count, splits do not matter. -/
theorem test_writer :
    (wrote [(0x1FF, 9)] (.ok (fresh 20).writer)).state.streamBits = bits "111111111" ∧
    (wrote [(0xFF, 4)] (.ok (fresh 20).writer)).state.pend = bits "1111" ∧
    (wrote [(0b1011, 4), (0b0011100, 7), (0b011110101, 9)] (.ok (fresh 20).writer)).state.out =
      [.byte 0xB3, .byte 0x8F] := by decide +kernel

/-- Vectors W13 and W14. -/
theorem test_writer_faults :
    wrWrite 0x1FF 9 (withAnswers [.fail] State.reset).writer = .stop .fWrite State.reset.writer ∧
    wrWrite 0x1FF 129 State.reset.writer = .stop .fRange State.reset.writer := by decide +kernel

/-- Vectors E1 and E6: the bits of a block after its header. -/
theorem test_block_payload :
    (blockBits [.ptr 32768 258, .lit 256] false).drop 2536 = bits "111111111111110" ∧
    (blockBits [.lit 0xFF, .lit 256] true).drop 2536 = bits "01110" := by decide +kernel

/-- Vector E3, through `ENC_BLOCK`. -/
theorem test_encode_block :
    let s := fresh 400
    let r := encBlock (s.setMatcher (s.matcher.setSb [.ptr 24576 257, .ptr 24577 227, .lit 256]))
    (r.state.outBytes.drop 317, r.state.writer.pend) = ([0xF9, 0xFF, 0xF8, 0x20, 0x00], bits "0") := by decide +kernel

/-! ### The end of a run (R262) -/

/-- Programs P3 and P5 are well-formed runs; vectors K10 and K12 are not. -/
theorem test_well_formed_run :
    wellFormedRun [.push 0x61, .endc, .push 0x61, .ends, .flush] = true ∧ wellFormedRun [.endc, .ends, .flush] = true ∧
    wellFormedRun [.ends, .ends] = false ∧ wellFormedRun [.ends, .flush, .push 0] = false := by decide

/-- The host samples STATUS at any time (R318; log 24), and a second `FLUSH` is no part of a run (R262). -/
theorem test_well_formed_run_samples :
    wellFormedRun [.status 0 0 0, .endc, .ends, .status 0 0 0, .flush, .status 0 0 0] = true ∧
    wellFormedRun [.ends, .flush, .flush] = false ∧ wellFormedRun [.status 0 0 0] = false := by decide

/-- Program P2 after its `FLUSH`, and vector K15. -/
theorem test_end_of_run :
    (after (exec .flush ((pending (bits "01") (fresh 2)).setFin true))).succeeded ∧
    (after (exec .flush (withAnswers [.fail] ((pending (bits "01") State.reset).setFin true)))).failed := by
  constructor
  · exact ⟨by decide, by decide, by decide⟩
  · show _ ≠ _
    decide

/-! ### Scripts (R105, R106) -/

/-- Programs P1 and P6, with a comment. -/
theorem test_script :
    assemble "FINAL \"aa\" ; two bytes".toList = some [.push 0x61, .push 0x61, .ends, .flush] ∧
    assemble "PUSH 0x61\nRDERR\nENDS\nFLUSH".toList = some [.push 0x61, .rderr, .ends, .flush] ∧
    assemble "REP 3 7".toList = some [.push 7, .push 7, .push 7] ∧
    assemble "CHUNK 1, 0x02".toList = some [.push 1, .push 2, .endc] ∧
    assemble "PUSH 256".toList = none := by decide +kernel

/-! ### Witnesses: states and operands that meet the hypotheses of each obligation that has any, clause by clause -/

/-- A sink that is going to take `n` requests takes any fewer. -/
theorem takes_of_answers {w : Writer} {k n : Nat} (h : w.answers = List.replicate n .ok) (hk : k ≤ n) :
    w.sinkTakes k := by
  refine ⟨List.replicate (n - k) .ok, ?_⟩
  rw [h, List.replicate_append_replicate]
  congr 1
  omega

theorem fresh_takes {k n : Nat} (h : k ≤ n) : (fresh n).writer.sinkTakes k := takes_of_answers rfl h

theorem fresh_matcher_inv (n : Nat) : (fresh n).matcher.Inv :=
  ⟨Nat.zero_le _, rfl, Nat.zero_le _, Nat.zero_le _, Nat.zero_le _, fun _ h => (List.not_mem_nil h).elim⟩

theorem fresh_encoder_inv (n : Nat) : (fresh n).encoder.Inv :=
  freeScratch_shape false 0

theorem fresh_fault_phase (n : Nat) :
    (fresh n).writer.pend.length ≤ 7 ∧ ((fresh n).phase = .idle ∨ (fresh n).phase = .halt) ∧
    ((fresh n).phase = .halt ↔ (fresh n).fault ≠ .fNone) ∧ (fresh n).fault ≠ .fOpen := by
  have h1 : (fresh n).writer.pend = [] := rfl
  have h2 : (fresh n).phase = .idle := rfl
  have h3 : (fresh n).fault = .fNone := rfl
  rw [h1, h2, h3]
  decide

theorem fresh_inv (n : Nat) : (fresh n).Inv := ⟨fresh_matcher_inv n, fresh_encoder_inv n, fresh_fault_phase n⟩

/-- The state after reset with one byte in the chunk buffer satisfies the invariant, CHUNK_MAX being at least 1. -/
theorem holding_inv (b : Byte) (n : Nat) : (holding [b] n).Inv := by
  obtain ⟨⟨h1, h2, -, -, h5, h6⟩, h⟩ := fresh_inv n
  exact ⟨⟨h1, h2, chunkMax_pos, Nat.zero_le _, h5, h6⟩, h⟩

/-- A state with a full chunk buffer. -/
def fullChunk : State := holding (List.replicate Config.chunkMax 0) 0

/-- A state with no cell left in the symbol buffer. -/
def fullSymbols : State :=
  State.reset.setMatcher (State.reset.matcher.setSb (List.replicate (Config.chunkMax + 1) (.lit 0)))

theorem test_hyp_EncodeOfDecodeIsTheWord :
    decode (.cmd 0x1061) = .instr (.push 0x61) ∧ decode (.sts 0xBF) = .instr (.status 1 7 7) := by decide

/-- Each clause of R101 at the edge of its range, in a state that accepts the word. -/
theorem test_hyp_IllegalCommandWordsAreRefused :
    let illegal := fun w : BitVec 16 => 6 ≤ (w.extractLsb' 12 4).toNat ∨ w.extractLsb' 8 4 ≠ 0 ∨
      (w.extractLsb' 0 8 ≠ 0 ∧ w.extractLsb' 12 4 ≠ 1)
    illegal 0x6000 ∧ illegal 0xF000 ∧ illegal 0x1100 ∧ illegal 0x0F00 ∧ illegal 0x0001 ∧ illegal 0x50FF ∧
    ¬ illegal 0x10FF ∧ ¬ illegal 0x5000 ∧
    (present (.cmd 0x6000) State.reset).inbox = .word (.cmd 0x6000) :: [] ∧
    (present (.cmd 0x6000) State.reset).cmdReady = true ∧ (present (.cmd 0x6000) State.reset).fault = .fNone := by
  decide

/-- The legal symbol words of R102. -/
abbrev legal (w : BitVec 33) : Prop :=
  (w.getLsbD 32 = false ∧ (w.extractLsb' 16 16).toNat = 0 ∧
    ((w.extractLsb' 0 16).toNat ≤ 256 ∨ (w.extractLsb' 0 16).toNat = 286)) ∨
  (w.getLsbD 32 = true ∧ 1 ≤ (w.extractLsb' 16 16).toNat ∧ (w.extractLsb' 16 16).toNat ≤ 32768 ∧
    3 ≤ (w.extractLsb' 0 16).toNat ∧ (w.extractLsb' 0 16).toNat ≤ 258)

/-- The edges of R102. -/
theorem test_hyp_ReservedSymbolWordsAreRefused :
    (¬ legal 257 ∧ ¬ legal 285 ∧ ¬ legal 287 ∧ ¬ legal 0x10000 ∧ ¬ legal 0x100000003 ∧ ¬ legal 0x180010003 ∧
      ¬ legal 0x100010002 ∧ ¬ legal 0x100010103) ∧ (legal 256 ∧ legal 286 ∧ legal 0x180000102) ∧
    (present (.sym 257) State.reset).inbox = .word (.sym 257) :: [] ∧
    (present (.sym 257) State.reset).cmdReady = true ∧ (present (.sym 257) State.reset).fault = .fNone :=
  ⟨⟨by decide, by decide, by decide, by decide, by decide, by decide, by decide, by decide⟩,
    ⟨by decide, by decide, by decide⟩, rfl, rfl, rfl⟩

theorem test_hyp_IdsThatDoNotExistAreRejected :
    287 ≤ (287 : BitVec 9).toNat ∧ 287 ≤ (511 : BitVec 9).toNat ∧ (286 : BitVec 9).toNat ≤ 286 ∧
    30 ≤ (30 : BitVec 5).toNat ∧ 30 ≤ (31 : BitVec 5).toNat ∧ (29 : BitVec 5).toNat ≤ 29 := by decide

/-- A rejected id, a rejected extra field, and a status word with bit 6 set, each waiting. -/
theorem test_hyp_IdsThatDoNotExistAreRejected_steps :
    (decode (.did 30 0) = .reject .noSuchId ∧ (present (.did 30 0) State.reset).inbox = .word (.did 30 0) :: [] ∧
      (present (.did 30 0) State.reset).cmdReady = true ∧ (present (.did 30 0) State.reset).fault = .fNone) ∧
    (decode (.llid 284 31) = .reject .extraOutOfRange ∧
      (after (step (present (.llid 284 31) State.reset))).fault = .fRange) ∧
    ((0x40 : BitVec 8).getLsbD 6 = true ∧ (present (.sts 0x40) State.reset).inbox = .word (.sts 0x40) :: []) := by
  decide

/-- A command word while `cmd_ready` is held, and the status word while it is not. -/
theorem test_hyp_StepRunsTheDecodedInstruction :
    ((present (.cmd 0x4000) State.reset).inbox = .word (.cmd 0x4000) :: [] ∧
      (present (.cmd 0x4000) State.reset).cmdReady = true ∧ decode (.cmd 0x4000) = .instr .flush) ∧
    ((present (.sts 0) (State.reset.setPhase .emit)).inbox = .word (.sts 0) :: [] ∧
      (present (.sts 0) (State.reset.setPhase .emit)).cmdReady = false ∧ (PortWord.sts 0).format = .sts ∧
      decode (.sts 0) = .instr (.status 0 0 0)) := by decide

theorem test_hyp_StepWithoutAcceptedWord :
    State.reset.inbox = [] ∧
    (let s := present (.cmd 0x0000) (State.reset.setPhase .matching)
     s.inbox = .word (.cmd 0x0000) :: [] ∧ (PortWord.cmd 0x0000).format ≠ .sts ∧ s.phase ≠ .idle ∧ s.phase ≠ .halt) := by
  decide

theorem test_hyp_ResetInputPutsEveryElementAtItsResetValue :
    (((raise .fRead State.reset).setFin true).setInbox [.rst]).inbox = .rst :: [] := by decide

/-- A step from a state within the invariant: nothing waiting, and a command. -/
theorem test_hyp_EveryStepKeepsTheInvariant :
    ((fresh 0).Inv ∧ step (fresh 0) = .next (fresh 0)) ∧
    ((present (.cmd 0x5000) (fresh 0)).Inv ∧
      step (present (.cmd 0x5000) (fresh 0)) = .next (((fresh 0).setFault .fRead).setPhase .halt)) :=
  ⟨⟨fresh_inv 0, rfl⟩, fresh_inv 0, rfl⟩

theorem test_hyp_EveryCommandCompletesOrFaults :
    State.reset.cmdReady = true ∧ (raise .fCmd State.reset).cmdReady = true := by decide

theorem test_hyp_RaiseTakesTheFault : (raise .fCmd State.reset).fault ≠ .fNone ∧ State.reset.fault = .fNone := by decide

theorem test_hyp_FaultedCoreIgnoresEveryCommandWord :
    let s := present (.cmd 0x3000) (raise .fRead State.reset)
    s.fault ≠ .fNone ∧ s.cmdReady = true ∧ s.inbox = .word (.cmd 0x3000) :: [] := by decide

theorem test_hyp_OnlyResetLeavesAFault :
    let s := present (.cmd 0x3000) (raise .fRead State.reset)
    s.fault ≠ .fNone ∧ s.inbox.head? ≠ some .rst ∧ (∀ w, s.inbox.head? ≠ some (.cut w)) ∧
      step s = .next (raise .fRead State.reset) := by
  refine ⟨by decide, by decide, fun w h => ?_, rfl⟩
  have e : some (HostInput.word (.cmd 0x3000)) = some (.cut w) := h
  cases e

theorem test_hyp_AdmissionOrder : (State.reset.setFin true).fault = .fNone ∧ (State.reset.setFin true).fin = true := by
  decide

/-- A command that leaves FIN, and an `ENDS` that sets it. -/
theorem test_hyp_OnlyEndsSetsFin :
    (nextOf (exec .nop State.reset)).map State.fin = some false ∧ (nextOf (exec .ends (fresh 400))).map State.fin = some true ∧
    (after (exec .ends (fresh 400))).fault = .fNone := by decide +kernel

/-- A row that raises each fault CORE can raise. -/
theorem test_hyp_OnlyTheNamedFaultsAreRaised :
    (after (exec .rderr State.reset)).fault = .fRead ∧ (after (exec .endc (State.reset.setFin true))).fault = .fCmd ∧
    (after (exec .flush (withAnswers [.fail] State.reset))).fault = .fWrite ∧
    (after (exec (.symPtr 0 3) State.reset)).fault = .fRange ∧ State.reset.fault = .fNone := by decide +kernel

/-- The clause within the invariant: an `ENDS` that faults there, and one that does not. -/
theorem test_hyp_OnlyTheNamedFaultsAreRaised_inv :
    ((withAnswers [.fail] (fresh 0)).Inv ∧ (after (exec .ends (withAnswers [.fail] (fresh 0)))).fault = .fWrite) ∧
    ((fresh 400).Inv ∧ (after (exec .ends (fresh 400))).fault = .fNone) :=
  ⟨⟨fresh_inv 0, by decide +kernel⟩, fresh_inv 400, by decide +kernel⟩

theorem test_hyp_OutIsAppendOnly : exec .nop (fresh 1) = .next (fresh 1) := rfl

/-- A failing run and the same command with a sink that does not fail. -/
theorem test_hyp_FailedOutputIsAnInitialPart :
    let s := withAnswers [.ok, .fail] (pending (bits "1") State.reset)
    (nextOf (exec .flush s)).isSome ∧
    (nextOf (exec .flush (s.setWriter (s.writer.setAnswers (List.replicate 2 .ok))))).isSome ∧
    (after (exec .flush (s.setWriter (s.writer.setAnswers (List.replicate 2 .ok))))).writer.draws = s.writer.draws ∧
    (after (exec .flush s)).fault = .fWrite := by decide +kernel

/-- The three clauses of R255. -/
theorem test_hyp_PushSuppliesOneByte :
    ((State.reset.setFin true).fault = .fNone ∧ (State.reset.setFin true).fin = true) ∧
    (fullChunk.fault = .fNone ∧ fullChunk.fin = false ∧ fullChunk.matcher.cb.length = Config.chunkMax) ∧
    (State.reset.fault = .fNone ∧ State.reset.fin = false ∧ State.reset.matcher.cb.length ≠ Config.chunkMax) :=
  ⟨⟨rfl, rfl⟩, ⟨rfl, rfl, List.length_replicate⟩, rfl, rfl, Nat.ne_of_lt chunkMax_pos⟩

theorem test_hyp_RderrRaisesFRead :
    (State.reset.fault = .fNone ∧ State.reset.fin = false) ∧
    ((State.reset.setFin true).fault = .fNone ∧ (State.reset.setFin true).fin = true) := by decide

/-- Nothing pending, and 1 and 7 bits pending. -/
theorem test_hyp_FlushPadsAndFlushesTheSink :
    ((fresh 1).writer.pend = [] ∧ (fresh 1).writer.sinkTakes 1) ∧
    (let s := pending (bits "1") (fresh 2)
     s.fault = .fNone ∧ s.writer.pend.length ≤ 7 ∧ s.writer.pend ≠ [] ∧ s.writer.sinkTakes 2) ∧
    (let s := pending (bits "1010101") (fresh 2)
     s.fault = .fNone ∧ s.writer.pend.length ≤ 7 ∧ s.writer.pend ≠ [] ∧ s.writer.sinkTakes 2) :=
  ⟨⟨rfl, [], rfl⟩, ⟨rfl, by decide, by decide, [], rfl⟩, rfl, by decide, by decide, [], rfl⟩

/-- The byte fails, the flush request fails with nothing pending, and the flush request fails after the byte. -/
theorem test_hyp_FlushStopsWhereTheSinkFails :
    (let s := withAnswers [.fail] (pending (bits "01") State.reset)
     s.fault = .fNone ∧ s.writer.pend.length ≤ 7 ∧ s.writer.sinkFailsAfter 0) ∧
    (withAnswers [.fail] State.reset).writer.sinkFailsAfter 0 ∧
    (let s := withAnswers [.ok, .fail] (pending (bits "01") State.reset)
     s.fault = .fNone ∧ s.writer.pend.length ≤ 7 ∧ s.writer.pend ≠ [] ∧ s.writer.sinkFailsAfter 1) :=
  ⟨⟨rfl, by decide, [], rfl⟩, ⟨[], rfl⟩, rfl, by decide, by decide, [], rfl⟩

/-- The bytes due of the blocks the witnesses below encode. -/
theorem bytesDue_empty_chunk (last : Bool) :
    (fresh 400).writer.bytesDue (blockBits (chunkSymbols [] []) last) = 317 := by
  cases last <;> decide +kernel

theorem bytesDue_one_byte : (fresh 400).writer.bytesDue (blockBits (chunkSymbols [] [0x61]) false) = 317 := by
  decide +kernel

/-- An empty chunk and a chunk of one byte. -/
theorem test_hyp_EndcEncodesTheChunk :
    ((fresh 400).Inv ∧ (fresh 400).fault = .fNone ∧ (fresh 400).fin = false ∧
      (fresh 400).writer.sinkTakes ((fresh 400).writer.bytesDue
        (blockBits (chunkSymbols (fresh 400).matcher.w (fresh 400).matcher.cb) false))) ∧
    (let s := holding [0x61] 400
     s.Inv ∧ s.fault = .fNone ∧ s.fin = false ∧
      s.writer.sinkTakes (s.writer.bytesDue (blockBits (chunkSymbols s.matcher.w s.matcher.cb) false))) := by
  refine ⟨⟨fresh_inv _, rfl, rfl, ?_⟩, holding_inv _ _, rfl, rfl, ?_⟩
  · show (fresh 400).writer.sinkTakes ((fresh 400).writer.bytesDue (blockBits (chunkSymbols [] []) false))
    rw [bytesDue_empty_chunk]
    exact fresh_takes (by omega)
  · show (fresh 400).writer.sinkTakes ((fresh 400).writer.bytesDue (blockBits (chunkSymbols [] [0x61]) false))
    rw [bytesDue_one_byte]
    exact fresh_takes (by omega)

theorem test_hyp_EndsEncodesTheLastChunk :
    (fresh 400).Inv ∧ (fresh 400).fault = .fNone ∧ (fresh 400).fin = false ∧
      (fresh 400).writer.sinkTakes ((fresh 400).writer.bytesDue
        (blockBits (chunkSymbols (fresh 400).matcher.w (fresh 400).matcher.cb) true)) := by
  refine ⟨fresh_inv _, rfl, rfl, ?_⟩
  show (fresh 400).writer.sinkTakes ((fresh 400).writer.bytesDue (blockBits (chunkSymbols [] []) true))
  rw [bytesDue_empty_chunk]
  exact fresh_takes (by omega)

/-- The state after reset with a sink that takes `j` requests and fails the next. -/
def failing (j : Nat) : State := withAnswers (List.replicate j .ok ++ [.fail]) State.reset

/-- The first and the last byte fails. -/
theorem test_hyp_ChunkEndStopsWhereTheSinkFails :
    ∀ last : Bool, ∀ j ∈ [0, 316], (failing j).Inv ∧ (failing j).fault = .fNone ∧ (failing j).fin = false ∧
      j < (failing j).writer.bytesDue (blockBits (chunkSymbols (failing j).matcher.w (failing j).matcher.cb) last) ∧
      (failing j).writer.sinkFailsAfter j := by
  intro last j hj
  have hdue : (failing j).writer.bytesDue (blockBits (chunkSymbols (failing j).matcher.w (failing j).matcher.cb) last)
      = 317 := bytesDue_empty_chunk last
  refine ⟨fresh_inv 0, rfl, rfl, ?_, [], rfl⟩
  rw [hdue]
  simp only [List.mem_cons, List.not_mem_nil, or_false] at hj
  omega

/-- A well-formed pointer, an ill-formed one, and a full symbol buffer. -/
theorem test_hyp_SymbolRowsPassIntoTheSymbolBuffer :
    (rowSymbol? (.symPtr 32768 258) = some (.ptr 32768 258) ∧ State.reset.fault = .fNone ∧
      Instr.wellFormed (.symPtr 32768 258) = true ∧ State.reset.matcher.sb.length ≤ Config.chunkMax) ∧
    (rowSymbol? (.symPtr 0 3) = some (.ptr 0 3) ∧ Instr.wellFormed (.symPtr 0 3) = false) ∧
    (rowSymbol? .symEob = some (.lit 256) ∧ fullSymbols.fault = .fNone ∧
      Config.chunkMax < fullSymbols.matcher.sb.length) := by
  refine ⟨⟨rfl, rfl, by decide, Nat.zero_le _⟩, ⟨rfl, by decide⟩, rfl, rfl, ?_⟩
  show Config.chunkMax < (List.replicate (Config.chunkMax + 1) (Symbol.lit 0)).length
  rw [List.length_replicate]
  omega

/-- The bytes a free code, alone or with at most 13 extra bits, completes on an aligned stream. -/
theorem free_due {w : Writer} {n slot x : Nat} (hw : w.pend = []) :
    w.bytesDue (codeBits (freeRowCode n slot)) ≤ 5 ∧
      ∀ m, m ≤ 13 → w.bytesDue (codeExtraBits (freeRowCode n slot) x m) ≤ 7 := by
  have h := freeRowCode_len n slot
  have hc : (codeBits (freeRowCode n slot)).length = (freeRowCode n slot).len.toNat := msbFirst_length _ _
  refine ⟨by simp only [Writer.bytesDue, hw, hc, List.length_nil]; omega, fun m hm => ?_⟩
  have he : (extraBits x m).length = m := msbFirst_length _ _
  simp only [Writer.bytesDue, codeExtraBits, List.length_append, hw, hc, he, List.length_nil]
  omega

/-- A zero-length code and one of the greatest length of a block that is being emitted, with 7 bits pending: 6 bytes. Then a
free code, where no block is. -/
theorem test_hyp_LiteralIdRowsWriteTheirCode :
    (let s := withCodes [(255, ⟨0, 0⟩)] [] (fresh 1)
     rowLiteralId? (.llLiteral 255) = some 255 ∧ s.fault = .fNone ∧ s.writer.pend.length ≤ 7 ∧
      (s.llCode 255).len.toNat ≤ 45 ∧ s.writer.sinkTakes (s.writer.bytesDue (codeBits (s.llCode 255)))) ∧
    (let s := pending (bits "1010101") (withCodes [(286, ⟨1, 45⟩)] [] (fresh 6))
     rowLiteralId? .llEos = some 286 ∧ s.fault = .fNone ∧ s.writer.pend.length ≤ 7 ∧
      (s.llCode 286).len.toNat ≤ 45 ∧ s.writer.sinkTakes (s.writer.bytesDue (codeBits (s.llCode 286)))) ∧
    (let s := fresh 5
     rowLiteralId? .llEob = some 256 ∧ s.fault = .fNone ∧ s.writer.pend.length ≤ 7 ∧
      (s.llCode 256).len.toNat ≤ 45 ∧ s.writer.sinkTakes (s.writer.bytesDue (codeBits (s.llCode 256)))) :=
  ⟨⟨rfl, rfl, by decide, by decide +kernel, takes_of_answers (n := 1) rfl (by decide +kernel)⟩,
    ⟨rfl, rfl, by decide, by decide +kernel, takes_of_answers (n := 6) rfl (by decide +kernel)⟩,
    rfl, rfl, by decide, freeRowCode_len _ _, takes_of_answers (n := 5) rfl ((free_due (x := 0) rfl).1)⟩

/-- The longest length with a code of 45 bits, offset 30 of code 27; then a free code, and the refused offset 31. -/
theorem test_hyp_LengthIdRowsWriteCodeAndExtraBits :
    (let s := withCodes [(284, ⟨1, 45⟩)] [] (fresh 6)
     Instr.lengthCode? (.llLen27 30) = some (27, 30) ∧ Instr.wellFormed (.llLen27 30) = true ∧ s.fault = .fNone ∧
      s.writer.pend.length ≤ 7 ∧ (s.llCode (257 + 27)).len.toNat ≤ 45 ∧
      s.writer.sinkTakes (s.writer.bytesDue (codeExtraBits (s.llCode (257 + 27)) 30 (lenExtra.getD 27 0)))) ∧
    (let s := fresh 7
     Instr.lengthCode? (.llLen27 30) = some (27, 30) ∧ Instr.wellFormed (.llLen27 30) = true ∧ s.fault = .fNone ∧
      s.writer.pend.length ≤ 7 ∧ (s.llCode (257 + 27)).len.toNat ≤ 45 ∧
      s.writer.sinkTakes (s.writer.bytesDue (codeExtraBits (s.llCode (257 + 27)) 30 (lenExtra.getD 27 0)))) ∧
    (fresh 0).fault = .fNone :=
  ⟨⟨rfl, by decide, rfl, by decide, by decide +kernel, takes_of_answers (n := 6) rfl (by decide +kernel)⟩,
    ⟨rfl, by decide, rfl, by decide, freeRowCode_len _ _, takes_of_answers (n := 7) rfl ((free_due rfl).2 _ (by decide))⟩,
    rfl⟩

/-- The longest distance with a code of 45 bits; then with a free code. -/
theorem test_hyp_DistanceIdRowsWriteCodeAndExtraBits :
    (let s := withCodes [] [(29, ⟨1, 45⟩)] (fresh 7)
     Instr.distanceCode? (.dDist29 8191) = some (29, 8191) ∧ s.fault = .fNone ∧ s.writer.pend.length ≤ 7 ∧
      (s.dCode 29).len.toNat ≤ 45 ∧
      s.writer.sinkTakes (s.writer.bytesDue (codeExtraBits (s.dCode 29) 8191 (distExtra.getD 29 0)))) ∧
    (let s := fresh 7
     Instr.distanceCode? (.dDist29 8191) = some (29, 8191) ∧ s.fault = .fNone ∧ s.writer.pend.length ≤ 7 ∧
      (s.dCode 29).len.toNat ≤ 45 ∧
      s.writer.sinkTakes (s.writer.bytesDue (codeExtraBits (s.dCode 29) 8191 (distExtra.getD 29 0)))) :=
  ⟨⟨rfl, rfl, by decide, by decide +kernel, takes_of_answers (n := 7) rfl (by decide +kernel)⟩,
    rfl, rfl, by decide, freeRowCode_len _ _, takes_of_answers (n := 7) rfl ((free_due rfl).2 _ (by decide))⟩

/-- The greatest value written, aligned and with 7 bits pending, and the least refused. -/
theorem test_hyp_HeaderFieldRowWritesEightBits :
    ((fresh 1).fault = .fNone ∧ (45 : BitVec 8).toNat ≤ 45 ∧ (fresh 1).writer.pend.length ≤ 7 ∧
      (fresh 1).writer.pend = [] ∧ (fresh 1).writer.sinkTakes 1) ∧
    (let s := pending (bits "1010101") (fresh 1)
     s.fault = .fNone ∧ (45 : BitVec 8).toNat ≤ 45 ∧ s.writer.pend.length ≤ 7 ∧ s.writer.sinkTakes 1) ∧
    (fresh 0).fault = .fNone ∧ 45 < (46 : BitVec 8).toNat :=
  ⟨⟨rfl, by decide, by decide, rfl, [], rfl⟩, ⟨rfl, by decide, by decide, [], rfl⟩, rfl, by decide⟩

/-- A code of 46 bits in each table. -/
theorem test_hyp_IdRowsRefuseAnOverlongCode :
    let s := withCodes [(0, ⟨0, 46⟩), (285, ⟨0, 46⟩)] [(0, ⟨0, 46⟩)] (fresh 0)
    s.fault = .fNone ∧ (rowLiteralId? (.llLiteral 0) = some 0 ∧ 45 < (s.llCode 0).len.toNat) ∧
    (Instr.lengthCode? .llLen28 = some (28, 0) ∧ 45 < (s.llCode (257 + 28)).len.toNat) ∧
    (Instr.distanceCode? .dDist0 = some (0, 0) ∧ 45 < (s.dCode 0).len.toNat) ∧
    (fresh 0).fault = .fNone ∧ (fresh 0).holdsCodes = false := by decide +kernel

theorem test_hyp_FramesOfTheCommands :
    Instr.format .flush = .cmd ∧ (nextOf (exec .flush (fresh 1))).isSome ∧ Instr.format (.push 0) = .cmd ∧
    exec (.push 0) (State.reset.setFin true) = .next (raise .fCmd (State.reset.setFin true)) :=
  ⟨rfl, rfl, rfl, rfl⟩

/-- A row of each of the other formats, with its next state. -/
theorem test_hyp_FramesOfTheOtherRows :
    (Instr.format (.symPtr 0 3) ≠ .cmd ∧ (nextOf (exec (.symPtr 0 3) (fresh 0))).isSome) ∧
    (Instr.format .llEob ≠ .cmd ∧ (nextOf (exec .llEob (fresh 0))).isSome) ∧
    (Instr.format .dDist0 ≠ .cmd ∧ (nextOf (exec .dDist0 (fresh 0))).isSome) ∧
    (Instr.format (.hdrField 1) ≠ .cmd ∧ (nextOf (exec (.hdrField 1) (fresh 1))).isSome) ∧
    (Instr.format (.status 0 0 0) ≠ .cmd ∧ (nextOf (exec (.status 0 0 0) (fresh 0))).isSome) ∧
    (fresh 0).holdsCodes = false := by
  have row : ∀ f s, (nextOf (unitOp f s)).isSome := fun f s => by
    obtain ⟨t, h⟩ := unitOp_next f s
    rw [h]; rfl
  exact ⟨⟨by decide, by simpa only [exec, execSymPtr] using row _ _⟩, ⟨by decide, by simpa only [exec, execLlEob] using row _ _⟩,
    ⟨by decide, by simpa only [exec, execDDist0] using row _ _⟩, ⟨by decide, by simpa only [exec, execHdrField] using row _ _⟩, ⟨by decide, rfl⟩, rfl⟩

/-- Counts 129, 128 and, with a failing sink, 9. -/
theorem test_hyp_WriteAppendsTheRequestedBits :
    (State.reset.writer.pend.length ≤ 7 ∧ 128 < 129) ∧
    (let w := (pending (bits "1010101") (fresh 16)).writer
     w.pend.length ≤ 7 ∧ 128 ≤ 128 ∧ w.sinkTakes (w.bytesDue (msbFirst 1 128))) ∧
    (let w := (failing 0).writer
     w.pend.length ≤ 7 ∧ 9 ≤ 128 ∧ 0 < w.bytesDue (msbFirst 0x1FF 9) ∧ w.sinkFailsAfter 0) := by
  refine ⟨⟨by decide, by decide⟩, ⟨by decide, by decide, takes_of_answers (n := 16) rfl (by decide +kernel)⟩, by decide, by decide, ?_, [], rfl⟩
  decide +kernel

theorem test_hyp_WriteMayBeSplit : 0 + 128 ≤ 128 ∧ 64 + 64 ≤ 128 ∧ 4 + 16 ≤ 128 := by decide

/-- No match: an empty window. A match of 3 at distance 2, no nearer one as long, none longer: window 1 2, lookahead 1 2 1. -/
theorem test_hyp_MatchFindTakesTheNearestLongestMatch :
    (([] : List Byte).length ≤ 32768 ∧ 1 ≤ ([7] : List Byte).length ∧ ([7] : List Byte).length ≤ 258 ∧
      ∀ start, ¬ agrees [] [7] start 3) ∧
    (let w : List Byte := [1, 2]
     let la : List Byte := [1, 2, 1]
     w.length ≤ 32768 ∧ 1 ≤ la.length ∧ la.length ≤ 258 ∧ agrees w la (w.length - 2) 3 ∧
      (∀ start l', agrees w la start l' → l' ≤ 3) ∧
      (∀ d', 1 ≤ d' → d' < 2 → ¬ agrees w la (w.length - d') 3)) := by
  refine ⟨⟨by decide, by decide, by decide, fun start h => Nat.not_lt_zero _ h.1⟩, by decide, by decide, by decide, ?_, ?_, ?_⟩
  · exact ⟨by decide, by decide, by decide⟩
  · exact fun start l' h => h.2.1
  · intro d' h1 h2 h
    obtain rfl : d' = 1 := by omega
    exact absurd (h.2.2 0 (by decide)) (by decide)

theorem test_hyp_MatchChunkConsumesTheChunk :
    let m : Matcher := { w := [1, 2], la := [], cb := [1, 2, 1], cpos := 0, sb := [] }
    m.sb = [] ∧ m.la = [] ∧ m.cpos = 0 ∧ m.w.length ≤ 32768 := by decide

/-- An empty window and a full one. -/
theorem test_hyp_SymbolsRebuildTheChunk :
    ([] : List Byte).length ≤ 32768 ∧ (List.replicate 32768 (0 : Byte)).length ≤ 32768 :=
  ⟨by decide, Nat.le_of_eq List.length_replicate⟩

/-- Vector S3, "abab": a repeat of length 2 only. -/
theorem test_hyp_NoRepeatGivesLiteralsOnly :
    ∀ i j, i < j → j + 3 ≤ (ascii "abab").length → ((ascii "abab").drop i).take 3 ≠ ((ascii "abab").drop j).take 3 := by
  intro i j h1 h2
  have h3 : (ascii "abab").length = 4 := rfl
  obtain ⟨rfl, rfl⟩ : i = 0 ∧ j = 1 := by omega
  decide

/-- A window that takes the bytes without eviction, up to its capacity, and a full one. -/
theorem test_hyp_WindowAppendEvictsTheOldest :
    (let w : List Byte := List.replicate 32767 0
     w.length ≤ 32768 ∧ 1 ≤ ([5] : List Byte).length ∧ ([5] : List Byte).length ≤ 258 ∧
      w.length + ([5] : List Byte).length ≤ 32768) ∧
    (let w : List Byte := List.replicate 32768 0
     w.length ≤ 32768 ∧ 32768 < w.length + ([5] : List Byte).length) := by
  simp only [List.length_replicate, List.length_cons, List.length_nil]
  omega

/-- All frequencies zero, and one nonzero (vectors H1 and H2). -/
theorem test_hyp_OneLeafTreesGiveNoCode :
    (1 ≤ ([0, 0, 0, 0] : List (BitVec 32)).length ∧ (([0, 0, 0, 0] : List (BitVec 32)).filter (· ≠ 0)).length ≤ 1) ∧
    (([0, 0, 7, 0] : List (BitVec 32)).filter (· ≠ 0)).length ≤ 1 := by decide

/-- Vector H11: a slot in use and one that is not; then the greatest total. -/
theorem test_hyp_UsedIdsHaveCodesAndUnusedHaveNone :
    let freqs : List (BitVec 32) := [1, 0, 1, 0, 1]
    totalFreq freqs < 2 ^ 32 ∧ 2 ≤ (freqs.filter (· ≠ 0)).length ∧ 4 < freqs.length ∧ freqs.getD 1 0 = 0 ∧
      freqs.getD 4 0 ≠ 0 ∧ totalFreq [4294967294, 1] < 2 ^ 32 := by decide +kernel

/-- Vector H4. -/
theorem test_hyp_CodesArePrefixFreeFromTheRoot :
    let freqs : List (BitVec 32) := [1, 1, 2]
    totalFreq freqs < 2 ^ 32 ∧ 0 < freqs.length ∧ 2 < freqs.length ∧ freqs.getD 0 0 ≠ 0 ∧ freqs.getD 2 0 ≠ 0 ∧
      1 ≤ (codeAt (codesOf freqs freqs.length) 0).len.toNat ∧
      1 ≤ (codeAt (codesOf freqs freqs.length) 2).len.toNat := by decide +kernel

/-- Vector H9: Fibonacci frequencies, and a code of its table. -/
theorem test_hyp_CodeLengthsAreAtMost45 :
    let freqs : List (BitVec 32) := [1, 1, 2, 3, 5, 8]
    totalFreq freqs < 2 ^ 32 ∧ (⟨0b01111, 5⟩ : Code) ∈ codesOf freqs freqs.length := by decide +kernel

theorem test_hyp_BlockCountsStayInBounds :
    ([] : List Byte).length ≤ 32768 ∧ (List.replicate Config.chunkMax (0 : Byte)).length ≤ Config.chunkMax :=
  ⟨by decide, Nat.le_of_eq List.length_replicate⟩

/-- Vector H12. -/
theorem test_hyp_LargerFrequencyNeverLongerCode :
    let freqs : List (BitVec 32) := [8, 1, 1, 2, 4]
    totalFreq freqs < 2 ^ 32 ∧ 0 < freqs.length ∧ 1 < freqs.length ∧ freqs.getD 1 0 ≠ 0 ∧
      (freqs.getD 1 0).toNat < (freqs.getD 0 0).toNat := by decide +kernel

/-- One leaf, and vector H8: its first merge, at record 6, and the queue it was made from. -/
theorem test_hyp_BuiltTreeShape :
    (totalFreq [0, 7] < 2 ^ 32 ∧ 1 ≤ (([0, 7] : List (BitVec 32)).filter (· ≠ 0)).length) ∧
    (let freqs : List (BitVec 32) := [5, 9, 12, 13, 16, 45]
     totalFreq freqs < 2 ^ 32 ∧ 1 ≤ (freqs.filter (· ≠ 0)).length ∧
      6 + 0 < (huffBuild freqs freqs.length).node.length ∧
      (huffBuild freqs freqs.length).node[6]? = some (.internal 0 1 14 6)) := by decide +kernel

/-- The ends of the ranges of R194 and R195. -/
theorem test_hyp_MapsTakeTheGreatestIndex :
    (3 ≤ 3 ∧ 3 ≤ 258) ∧ (3 ≤ 258 ∧ 258 ≤ 258) ∧ (2 < 3 ∨ 258 < 2) ∧ (259 < 3 ∨ 258 < 259) ∧ (1 ≤ 1 ∧ 1 ≤ 32768) ∧
    (1 ≤ 32768 ∧ 32768 ≤ 32768) ∧ (0 < 1 ∨ 32768 < 0) ∧ (32769 < 1 ∨ 32768 < 32769) := by decide

/-- Vectors T3, T12, T13 and T2; the ends of the ranges of the table clauses. -/
theorem test_hyp_ExtraBitsAreValueMinusBaseAndFit :
    lenMap 3 = some 0 ∧ lenMap 257 = some 27 ∧ distMap 1 = some 0 ∧ distMap 32768 = some 29 ∧ 26 < 27 ∧ 28 < 29 := by
  decide +kernel

theorem test_hyp_CountGivesTheFrequencies :
    ∀ sym ∈ [Symbol.lit 286, .ptr 32768 258, .lit 256], sym.legal = true := by decide

theorem test_hyp_HeaderIs317FixedFields :
    State.reset.encoder.tl.length = 287 ∧ State.reset.encoder.td.length = 30 ∧
    (pending (bits "1010101") (fresh 317)).writer.pend.length ≤ 7 ∧
    (pending (bits "1010101") (fresh 317)).writer.sinkTakes 317 :=
  ⟨(freeScratch_shape false 0).2.2.2.1, (freeScratch_shape false 0).2.2.2.2, by decide, takes_of_answers (n := 317) rfl (Nat.le_refl 317)⟩

/-- Vector E1's symbols. -/
theorem test_hyp_BlockEncoderWritesTheBlock :
    let s := (fresh 400).setMatcher ((fresh 400).matcher.setSb [.ptr 32768 258, .lit 256])
    (∀ sym ∈ s.matcher.sb, sym.legal = true) ∧ s.matcher.sb.length + 1 < 2 ^ 32 ∧ s.writer.pend.length ≤ 7 ∧
      s.writer.sinkTakes (s.writer.bytesDue (blockBits s.matcher.sb s.encoder.isLast)) :=
  ⟨by decide, by decide, by decide, fresh_takes (by decide +kernel)⟩

/-- A command with `rst` during it, and a rejected word. -/
theorem test_hyp_ResetDuringACommandAbandonsIt :
    ((fresh 2).setInbox [.cut (.cmd 0x4000)]).inbox = .cut (.cmd 0x4000) :: [] ∧
    decode (.cmd 0x4000) = .instr .flush ∧ (nextOf (exec .flush ((fresh 2).setInbox []))).isSome ∧
    ((fresh 2).setInbox [.cut (.cmd 0x6000)]).inbox = .cut (.cmd 0x6000) :: [] ∧
    decode (.cmd 0x6000) = .reject .reservedOp := by decide


/-- A lookahead already full, a partly filled one, and an empty one before the chunk's last byte; then chunks of 1 and of 259
bytes. -/
theorem test_hyp_EachSymbolIsTheMatchOfTheNext258Bytes :
    (let m : Matcher := { w := [], la := List.replicate 258 0, cb := [1], cpos := 0, sb := [] }
     m.la.length ≤ 258 ∧ m.cpos ≤ m.cb.length ∧ (m.la ≠ [] ∨ m.cpos < m.cb.length)) ∧
    (let m : Matcher := { w := [1, 2], la := [3], cb := [1, 2, 1], cpos := 3, sb := [] }
     m.la.length ≤ 258 ∧ m.cpos ≤ m.cb.length ∧ (m.la ≠ [] ∨ m.cpos < m.cb.length)) ∧
    (let m : Matcher := { w := [], la := [], cb := [1, 2, 1], cpos := 2, sb := [] }
     m.la.length ≤ 258 ∧ m.cpos ≤ m.cb.length ∧ (m.la ≠ [] ∨ m.cpos < m.cb.length)) ∧
    ([7] : List Byte) ≠ [] ∧ List.replicate 259 (0 : Byte) ≠ [] :=
  ⟨⟨Nat.le_of_eq List.length_replicate, by decide, .inl (List.ne_nil_of_length_pos (by rw [List.length_replicate]; decide))⟩, by decide, by decide,
    by decide, List.ne_nil_of_length_pos (by rw [List.length_replicate]; decide)⟩

end Sys2Proof.Tests
end

namespace Sys2Proof.Machine

/-! ### The window after an append (R67) -/

/-- The eviction reaches only the old window: no append within the capacity loses a byte of its own. -/
theorem winAppend_eq_drop_append (w : List Byte) {bs : List Byte} (hbs : bs.length ≤ wCap) :
    winAppend w bs = w.drop (w.length + bs.length - wCap) ++ bs := by
  have excess_in_window : w.length + bs.length - wCap ≤ w.length := by omega
  calc winAppend w bs
      = (w ++ bs).drop (w.length + bs.length - wCap) := by simp only [winAppend, List.length_append]
    _ = w.drop (w.length + bs.length - wCap) ++ bs := List.drop_append_of_le_length excess_in_window

/-- Nothing is evicted while the joined bytes fit the capacity. -/
theorem winAppend_eq_append {w bs : List Byte} (fits : w.length + bs.length ≤ wCap) : winAppend w bs = w ++ bs := by
  rw [winAppend_eq_drop_append w (by omega), Nat.sub_eq_zero_of_le fits, List.drop_zero]

/-- Settles O46: at most 258 appended bytes are within the capacity, so the excess is evicted from the old window alone. -/
theorem windowAppendEvictsTheOldest : Obligations.WindowAppendEvictsTheOldest := by
  intro w bs _ _ hbs
  refine ⟨winAppend_eq_append, fun full => ⟨winAppend_eq_drop_append w ?_, ?_⟩⟩
  · exact Nat.le_trans hbs (by decide)
  · rw [winAppend_length]
    exact Nat.min_eq_right (Nat.le_of_lt full)

end Sys2Proof.Machine

namespace Sys2Proof.Machine

/-! ### Codes as branch decisions (R166, R169) -/

/-- A path after one more branch at the given depth, as the walk leaves it (R166). -/
def markBranch (path : BitVec 128) (depth : Nat) (b : Bool) : BitVec 128 :=
  if b then path ||| (1#128 <<< depth) else path

/-- A path after the given branches, the first of them at the given depth (R166). -/
def extendPath (path : BitVec 128) : Nat → List Bool → BitVec 128
  | _, [] => path
  | depth, b :: bs => extendPath (markBranch path depth b) (depth + 1) bs

/-- A branch sets its own bit only, and leaves it unset to the left. -/
theorem getLsbD_markBranch {path : BitVec 128} {depth : Nat} (hd : depth < 128) (hp : path.getLsbD depth = false)
    (b : Bool) (k : Nat) : (markBranch path depth b).getLsbD k = if k = depth then b else path.getLsbD k := by
  have hone : (1#128 <<< depth).getLsbD k = decide (k = depth) := by
    rw [← BitVec.twoPow_eq, BitVec.getLsbD_twoPow]
    simp [hd, eq_comm]
  by_cases hk : k = depth
  · subst hk
    cases b <;> simp [markBranch, hp, hone]
  · cases b <;> simp [markBranch, hone, hk]

/-- Within 128 levels a path holds each decision at its own depth. -/
theorem getLsbD_extendPath (ds : List Bool) {path : BitVec 128} {depth : Nat} (hd : depth + ds.length ≤ 128)
    (hp : ∀ k, depth ≤ k → path.getLsbD k = false) (k : Nat) :
    (extendPath path depth ds).getLsbD k = if k < depth then path.getLsbD k else ds.getD (k - depth) false := by
  induction ds generalizing path depth with
  | nil =>
    split
    · rfl
    · exact hp k (by omega)
  | cons b bs ih =>
    have hlt : depth < 128 := by rw [List.length_cons] at hd; omega
    have hbit := getLsbD_markBranch hlt (hp depth (Nat.le_refl _)) b
    rw [extendPath, ih (by rw [List.length_cons] at hd; omega)
      (fun m hm => by rw [hbit, if_neg (by omega), hp m (by omega)]), hbit]
    rcases Nat.lt_trichotomy k depth with h | rfl | h
    · rw [if_pos (by omega), if_neg (by omega), if_pos h]
    · simp
    · rw [if_neg (by omega), if_neg (by omega), show k - depth = (k - (depth + 1)) + 1 by omega, List.getD_cons_succ]

/-- The code a walk records for a leaf at most 128 levels deep reads back as the decisions that lead to it (R169). -/
theorem decisions_of_path {ds : List Bool} (hd : ds.length ≤ 128) :
    Code.decisions ⟨extendPath 0 0 ds, BitVec.ofNat 8 ds.length⟩ = ds := by
  have hlen : (BitVec.ofNat 8 ds.length).toNat = ds.length := by
    rw [BitVec.toNat_ofNat]
    exact Nat.mod_eq_of_lt (by omega)
  apply List.ext_getElem
  · simp [Code.decisions, hlen]
  · intro k _ hk
    have hbit := getLsbD_extendPath ds (path := 0) (depth := 0) (by omega) (by simp) k
    simpa [Code.decisions, hk] using hbit

/-- The writer takes a code's highest bit first, so the stream carries the decisions reversed (R169). -/
theorem codeBits_eq_reverse_decisions (c : Code) : codeBits c = c.decisions.reverse := by
  unfold codeBits Code.decisions
  induction c.len.toNat with
  | zero => rfl
  | succ n ih => rw [msbFirst, ih, List.range_succ]; simp

/-! ### Descents -/

/-- A leaf has no branches: nothing is reached past it. -/
theorem descend_append_of_leaf {node : List Node} {p q : List Bool} {i sym seq : Nat} {w : BitVec 33} {n : Node}
    (hp : descend node p i = some (.leaf sym w seq)) (hq : descend node (p ++ q) i = some n) : q = [] := by
  induction p generalizing i with
  | nil =>
    cases q with
    | nil => rfl
    | cons b bs =>
      rw [descend] at hp
      simp [descend, hp] at hq
  | cons b bs ih =>
    rw [List.cons_append] at hq
    unfold descend at hp hq
    split at hp
    · rename_i h
      rw [h] at hq
      exact ih hp hq
    · cases hp

/-! ### The tree a build makes -/

/-- The weight of the record at an arena index. -/
def weightAt (node : List Node) (i : Nat) : Nat := (nodeAt node i).weight.toNat

/-- `n` is an internal node with child `c`, left or right, and other child `s`. -/
def Node.Joins (n : Node) (c s : Nat) : Prop := ∃ w q, n = .internal c s w q ∨ n = .internal s c w q

/-- The record at index `x` is an internal node with child `c` and other child `s`. -/
def Splits (node : List Node) (x c s : Nat) : Prop := ∃ n, node[x]? = some n ∧ n.Joins c s

theorem Node.Joins.symm {n : Node} {c s : Nat} : n.Joins c s → n.Joins s c :=
  fun ⟨w, q, h⟩ => ⟨w, q, h.symm⟩

theorem not_joins_leaf (sym : Nat) (w : BitVec 33) (q c s : Nat) : ¬ (Node.leaf sym w q).Joins c s := by
  rintro ⟨w', q', h | h⟩ <;> cases h

theorem joins_internal {l r c s : Nat} {w : BitVec 33} {q : Nat} :
    (Node.internal l r w q).Joins c s → (c = l ∧ s = r) ∨ (c = r ∧ s = l) := by
  rintro ⟨w', q', h | h⟩
  · cases h
    exact .inl ⟨rfl, rfl⟩
  · cases h
    exact .inr ⟨rfl, rfl⟩

theorem Splits.symm {node : List Node} {x c s : Nat} : Splits node x c s → Splits node x s c :=
  fun ⟨n, hn, hj⟩ => ⟨n, hn, hj.symm⟩

theorem Splits.lt_length {node : List Node} {x c s : Nat} : Splits node x c s → x < node.length :=
  fun ⟨_, hn, _⟩ => (List.getElem?_eq_some_iff.mp hn).1

theorem nodeAt_append_of_lt {node : List Node} {i : Nat} (hi : i < node.length) (n : Node) :
    nodeAt (node ++ [n]) i = nodeAt node i := by
  rw [nodeAt, nodeAt, List.getD_eq_getElem?_getD, List.getD_eq_getElem?_getD, List.getElem?_append_left hi]

theorem nodeAt_append_length (node : List Node) (n : Node) : nodeAt (node ++ [n]) node.length = n := by
  rw [nodeAt, List.getD_eq_getElem?_getD, List.getElem?_concat_length, Option.getD_some]

theorem weightAt_append_of_lt {node : List Node} {i : Nat} (hi : i < node.length) (n : Node) :
    weightAt (node ++ [n]) i = weightAt node i := by
  rw [weightAt, nodeAt_append_of_lt hi, weightAt]

theorem weightAt_append_length (node : List Node) (n : Node) :
    weightAt (node ++ [n]) node.length = n.weight.toNat := by
  rw [weightAt, nodeAt_append_length]

/-- What splits after an addition split before, or is the new record. -/
theorem splits_append {node : List Node} {n : Node} {x c s : Nat} :
    Splits (node ++ [n]) x c s ↔ Splits node x c s ∨ (x = node.length ∧ n.Joins c s) := by
  unfold Splits
  rcases Nat.lt_trichotomy x node.length with h | rfl | h
  · rw [List.getElem?_append_left h]
    exact ⟨.inl, fun hx => hx.resolve_right fun hnew => Nat.ne_of_lt h hnew.1⟩
  · rw [List.getElem?_concat_length, List.getElem?_eq_none (Nat.le_refl _)]
    constructor
    · rintro ⟨m, hm, hj⟩
      cases hm
      exact .inr ⟨rfl, hj⟩
    · rintro (⟨m, hm, -⟩ | ⟨-, hj⟩)
      · cases hm
      · exact ⟨n, rfl, hj⟩
  · have hout : (node ++ [n]).length ≤ x := by
      rw [List.length_append, List.length_singleton]
      exact h
    rw [List.getElem?_eq_none hout, List.getElem?_eq_none (Nat.le_of_lt h)]
    constructor
    · rintro ⟨m, hm, -⟩
      cases hm
    · rintro (⟨m, hm, -⟩ | ⟨hx, -⟩)
      · cases hm
      · exact absurd hx (Nat.ne_of_gt h)

/-- A descent's first branch leads to a child. -/
theorem splits_of_descend_cons {node : List Node} {b : Bool} {bs : List Bool} {i : Nat} {n : Node}
    (h : descend node (b :: bs) i = some n) : ∃ c s, Splits node i c s ∧ descend node bs c = some n := by
  unfold descend at h
  split at h
  · rename_i l r w q hi
    cases b with
    | false => exact ⟨l, r, ⟨_, hi, w, q, .inl rfl⟩, h⟩
    | true => exact ⟨r, l, ⟨_, hi, w, q, .inr rfl⟩, h⟩
  · cases h

/-- The arena as a forest of merges: children stand before their parent, an internal node weighs what its children weigh,
and, the point of taking the two least, a grandchild weighs no more than the child beside its parent (R161, R162). -/
structure MergeForest (node : List Node) : Prop where
  one_le_weight : ∀ i, i < node.length → 1 ≤ weightAt node i
  child_lt : ∀ x c s, Splits node x c s → c < x
  weight_eq : ∀ x c s, Splits node x c s → weightAt node x = weightAt node c + weightAt node s
  grandchild_le : ∀ x c s g h, Splits node x c s → Splits node c g h → weightAt node g ≤ weightAt node s

theorem MergeForest.child_lt_length {node : List Node} (hf : MergeForest node) {x c s : Nat}
    (hx : Splits node x c s) : c < node.length :=
  Nat.lt_trans (hf.child_lt x c s hx) hx.lt_length

/-- The least weight of a tree with a path of `d` branches, the Fibonacci number `Fib (d + 2)` (R37). -/
def leastWeight : Nat → Nat
  | 0 => 1
  | 1 => 2
  | d + 2 => leastWeight d + leastWeight (d + 1)

theorem leastWeight_le_succ : ∀ d, leastWeight d ≤ leastWeight (d + 1)
  | 0 => by decide
  | _ + 1 => Nat.le_add_left _ _

theorem leastWeight_mono {d e : Nat} (h : d ≤ e) : leastWeight d ≤ leastWeight e := by
  induction h with
  | refl => exact Nat.le_refl _
  | step _ ih => exact Nat.le_trans ih (leastWeight_le_succ _)

/-- The bound of R37: a node with a record `d` levels below it weighs at least `Fib (d + 2)`. -/
theorem MergeForest.leastWeight_le {node : List Node} (hf : MergeForest node) :
    ∀ (ds : List Bool) {i : Nat} {n : Node}, descend node ds i = some n → leastWeight ds.length ≤ weightAt node i
  | [], i, n, h => hf.one_le_weight i (List.getElem?_eq_some_iff.mp h).1
  | [b], i, n, h => by
    obtain ⟨c, s, hi, -⟩ := splits_of_descend_cons h
    rw [hf.weight_eq _ _ _ hi]
    exact Nat.add_le_add (hf.one_le_weight c (hf.child_lt_length hi)) (hf.one_le_weight s (hf.child_lt_length hi.symm))
  | b :: b' :: bs, i, n, h => by
    obtain ⟨c, s, hi, hc⟩ := splits_of_descend_cons h
    obtain ⟨g, h', hg, hbs⟩ := splits_of_descend_cons hc
    have hside : leastWeight bs.length ≤ weightAt node s :=
      Nat.le_trans (hf.leastWeight_le bs hbs) (hf.grandchild_le _ _ _ _ _ hi hg)
    calc leastWeight (b :: b' :: bs).length
        = leastWeight bs.length + leastWeight (b' :: bs).length := rfl
      _ ≤ weightAt node s + weightAt node c := Nat.add_le_add hside (hf.leastWeight_le (b' :: bs) hc)
      _ = weightAt node i := by rw [hf.weight_eq _ _ _ hi, Nat.add_comm]

/-- A node of weight below `2^32` has no record more than 45 levels below it (R37). -/
theorem MergeForest.depth_le {node : List Node} (hf : MergeForest node) {ds : List Bool} {i : Nat} {n : Node}
    (hi : weightAt node i < 2 ^ 32) (h : descend node ds i = some n) : ds.length ≤ 45 := by
  refine Nat.le_of_not_lt fun hlong => ?_
  have h46 : 2 ^ 32 < leastWeight 46 := by decide
  have hdeep : leastWeight 46 ≤ leastWeight ds.length := leastWeight_mono hlong
  have hweight := hf.leastWeight_le ds h
  omega

/-! ### The queue of a build -/

/-- Between two merges: the arena is a forest, the queue is in order of weight and weighs `total`, and nothing queued
weighs less than a record that has become a child (R161, R162). -/
structure Building (total : Nat) (a : Arena) : Prop where
  forest : MergeForest a.node
  queued_lt : ∀ m ∈ a.pq, m < a.node.length
  sorted : a.pq.Pairwise fun m n => weightAt a.node m ≤ weightAt a.node n
  sum_eq : (a.pq.map (weightAt a.node)).sum = total
  child_le : ∀ x c s, Splits a.node x c s → ∀ m ∈ a.pq, weightAt a.node c ≤ weightAt a.node m

/-- An insertion is a rearrangement of the queue with the new index. -/
theorem queueInsert_perm (node : List Node) (i : Nat) (q : List Nat) : (queueInsert node i q).Perm (i :: q) := by
  induction q with
  | nil => exact .refl _
  | cons j js ih =>
    unfold queueInsert
    split
    · exact .refl _
    · exact (ih.cons j).trans (.swap i j js)

theorem weightAt_le_of_before {node : List Node} {i j : Nat} (h : (nodeAt node i).before (nodeAt node j) = true) :
    weightAt node i ≤ weightAt node j := by
  rcases of_decide_eq_true h with hlt | ⟨heq, -⟩
  · exact Nat.le_of_lt hlt
  · exact Nat.le_of_eq (congrArg BitVec.toNat heq)

theorem weightAt_le_of_not_before {node : List Node} {i j : Nat} (h : ¬ (nodeAt node i).before (nodeAt node j) = true) :
    weightAt node j ≤ weightAt node i :=
  Nat.le_of_not_lt fun hlt => h (decide_eq_true (.inl hlt))

/-- An insertion keeps the order of weight (R162). -/
theorem queueInsert_sorted {node : List Node} (i : Nat) {q : List Nat}
    (hq : q.Pairwise fun m n => weightAt node m ≤ weightAt node n) :
    (queueInsert node i q).Pairwise fun m n => weightAt node m ≤ weightAt node n := by
  induction q with
  | nil => exact List.pairwise_singleton _ _
  | cons j js ih =>
    obtain ⟨hj, hjs⟩ := List.pairwise_cons.mp hq
    unfold queueInsert
    split
    · rename_i hb
      have hij := weightAt_le_of_before hb
      refine List.pairwise_cons.mpr ⟨fun m hm => ?_, hq⟩
      rcases List.mem_cons.mp hm with rfl | hm
      · exact hij
      · exact Nat.le_trans hij (hj m hm)
    · rename_i hb
      refine List.pairwise_cons.mpr ⟨fun m hm => ?_, ih hjs⟩
      rcases (mem_queueInsert node i m js).mp hm with rfl | hm
      · exact weightAt_le_of_not_before hb
      · exact hj m hm

/-- What a record must satisfy to be queued next: a leaf of positive weight, or the merge of two records that weigh no
more than anything still queued, and no less than a child of theirs (R161, R162). -/
structure Addable (a : Arena) (n : Node) : Prop where
  one_le : 1 ≤ n.weight.toNat
  joined_lt : ∀ c s, n.Joins c s → c < a.node.length
  weight_eq : ∀ c s, n.Joins c s → n.weight.toNat = weightAt a.node c + weightAt a.node s
  grandchild_le : ∀ c s g h, n.Joins c s → Splits a.node c g h → weightAt a.node g ≤ weightAt a.node s
  joined_le : ∀ c s, n.Joins c s → ∀ m ∈ a.pq, weightAt a.node c ≤ weightAt a.node m
  child_le : ∀ x c s, Splits a.node x c s → weightAt a.node c ≤ n.weight.toNat

/-- A forest stays one under the record added next. -/
theorem MergeForest.append {a : Arena} {n : Node} (hf : MergeForest a.node) (hn : Addable a n) :
    MergeForest (a.node ++ [n]) where
  one_le_weight i hi := by
    rw [List.length_append, List.length_singleton] at hi
    rcases Nat.lt_succ_iff_lt_or_eq.mp hi with hi | rfl
    · rw [weightAt_append_of_lt hi]
      exact hf.one_le_weight i hi
    · rw [weightAt_append_length]
      exact hn.one_le
  child_lt x c s hx := by
    rcases splits_append.mp hx with hx | ⟨rfl, hj⟩
    · exact hf.child_lt x c s hx
    · exact hn.joined_lt c s hj
  weight_eq x c s hx := by
    rcases splits_append.mp hx with hx | ⟨rfl, hj⟩
    · rw [weightAt_append_of_lt hx.lt_length, weightAt_append_of_lt (hf.child_lt_length hx),
        weightAt_append_of_lt (hf.child_lt_length hx.symm)]
      exact hf.weight_eq x c s hx
    · rw [weightAt_append_length, weightAt_append_of_lt (hn.joined_lt c s hj),
        weightAt_append_of_lt (hn.joined_lt s c hj.symm)]
      exact hn.weight_eq c s hj
  grandchild_le x c s g h hx hc := by
    have hlt : c < a.node.length ∧ s < a.node.length := by
      rcases splits_append.mp hx with hx | ⟨-, hj⟩
      · exact ⟨hf.child_lt_length hx, hf.child_lt_length hx.symm⟩
      · exact ⟨hn.joined_lt c s hj, hn.joined_lt s c hj.symm⟩
    have hc : Splits a.node c g h := (splits_append.mp hc).resolve_right fun hnew => Nat.ne_of_lt hlt.1 hnew.1
    rw [weightAt_append_of_lt (hf.child_lt_length hc), weightAt_append_of_lt hlt.2]
    rcases splits_append.mp hx with hx | ⟨-, hj⟩
    · exact hf.grandchild_le x c s g h hx hc
    · exact hn.grandchild_le c s g h hj hc

/-- An addition queues the record at its place and adds its weight to the queue's (R161). -/
theorem Building.add {total : Nat} {a : Arena} {n : Node} (hb : Building total a) (hn : Addable a n) :
    Building (n.weight.toNat + total) (a.add n) := by
  have hkeep : ∀ m ∈ a.pq, weightAt (a.node ++ [n]) m = weightAt a.node m :=
    fun m hm => weightAt_append_of_lt (hb.queued_lt m hm) n
  refine ⟨hb.forest.append hn, fun m hm => ?_, queueInsert_sorted _ ?_, ?_, fun x c s hx m hm => ?_⟩
  · rw [add_node, List.length_append, List.length_singleton]
    rcases (mem_queueInsert _ _ _ _).mp hm with rfl | hm
    · exact Nat.lt_succ_self _
    · exact Nat.lt_succ_of_lt (hb.queued_lt m hm)
  · exact hb.sorted.imp_of_mem fun hm hk h => by rwa [add_node, hkeep _ hm, hkeep _ hk]
  · rw [Arena.add, ((queueInsert_perm _ _ _).map _).sum_nat, List.map_cons, List.sum_cons, weightAt_append_length,
      List.map_congr_left hkeep, hb.sum_eq]
  · rw [add_node] at hx ⊢
    have hc : weightAt (a.node ++ [n]) c = weightAt a.node c := by
      rcases splits_append.mp hx with hx | ⟨-, hj⟩
      · exact weightAt_append_of_lt (hb.forest.child_lt_length hx) n
      · exact weightAt_append_of_lt (hn.joined_lt c s hj) n
    rw [hc]
    rcases splits_append.mp hx with hx | ⟨-, hj⟩ <;> rcases (mem_queueInsert _ _ _ _).mp hm with rfl | hm
    · rw [weightAt_append_length]
      exact hn.child_le x c s hx
    · rw [hkeep m hm]
      exact hb.child_le x c s hx m hm
    · rw [weightAt_append_length, hn.weight_eq c s hj]
      exact Nat.le_add_right _ _
    · rw [hkeep m hm]
      exact hn.joined_le c s hj m hm

/-- While every record is a leaf, a leaf of nonzero frequency can be added (R161). -/
theorem addable_leaf {a : Arena} (hleaf : ∀ x c s, ¬ Splits a.node x c s) {f : BitVec 32} (hf : f ≠ 0) (sym : Nat) :
    Addable a (.leaf sym (f.setWidth 33) sym) := by
  have hj := not_joins_leaf sym (f.setWidth 33) sym
  refine ⟨?_, fun c s h => (hj c s h).elim, fun c s h => (hj c s h).elim, fun c s _ _ h => (hj c s h).elim,
    fun c s h => (hj c s h).elim, fun x c s h => (hleaf x c s h).elim⟩
  rw [Node.weight, BitVec.toNat_setWidth_of_le (by decide)]
  exact Nat.one_le_iff_ne_zero.mpr fun h => hf (BitVec.eq_of_toNat_eq h)

/-- The leaves add the weight of the table to the queue (R161). -/
theorem addLeaves_building (fs : List (BitVec 32)) {sym total : Nat} {a : Arena} (hb : Building total a)
    (hleaf : ∀ x c s, ¬ Splits a.node x c s) : Building (totalFreq fs + total) (addLeaves fs sym a) := by
  induction fs generalizing sym total a with
  | nil => simpa [totalFreq, addLeaves] using hb
  | cons f fs ih =>
    unfold addLeaves
    by_cases hf : f = 0
    · simpa [hf, totalFreq] using ih hb hleaf
    · rw [if_pos hf]
      have h := ih (sym := sym + 1) (hb.add (addable_leaf hleaf hf sym)) fun x c s hx => by
        rcases splits_append.mp hx with hx | ⟨-, hj⟩
        · exact hleaf x c s hx
        · exact not_joins_leaf _ _ _ c s hj
      rw [Node.weight, BitVec.toNat_setWidth_of_le (by decide)] at h
      simpa [totalFreq, Nat.add_assoc, Nat.add_left_comm] using h

/-- A table with a nonzero frequency starts its build with its own weight queued (R161). -/
theorem leaves_building {freqs : List (BitVec 32)} (hne : ∃ f ∈ freqs, f ≠ 0) :
    Building (totalFreq freqs) (leaves freqs) := by
  have hnone : ∀ x c s, ¬ Splits [] x c s := fun x c s hx => absurd hx.lt_length (Nat.not_lt_zero x)
  have hforest : MergeForest [] := ⟨fun i hi => absurd hi (Nat.not_lt_zero i), fun x c s hx => (hnone x c s hx).elim,
    fun x c s hx => (hnone x c s hx).elim, fun x c s _ _ hx => (hnone x c s hx).elim⟩
  have hempty : Building 0 { node := [], pq := [] } :=
    ⟨hforest, by simp, .nil, rfl, fun x c s hx => (hnone x c s hx).elim⟩
  have hq : (addLeaves freqs 0 { node := [], pq := [] }).pq ≠ [] := by
    obtain ⟨f, hf, hf0⟩ := hne
    rw [← List.length_pos_iff, (addLeaves_sizes freqs 0 _).2]
    exact Nat.lt_add_left 0 (List.length_pos_of_mem (List.mem_filter.mpr ⟨hf, decide_eq_true hf0⟩))
  rw [leaves, if_neg hq]
  exact addLeaves_building freqs hempty hnone

/-- Even a table of zeros queues a leaf (R165). -/
theorem leaves_queued (freqs : List (BitVec 32)) : 1 ≤ (leaves freqs).pq.length := by
  by_cases h : (addLeaves freqs 0 { node := [], pq := [] }).pq = []
  · rw [leaves, if_pos h, add_pq_length]
    exact Nat.le_add_left _ _
  · rw [leaves, if_neg h]
    exact List.length_pos_iff.mpr h

section Merge

variable {total i j : Nat} {node : List Node} {rest : List Nat}

/-- Without its two least records the queue still is a build's. -/
theorem Building.popTwo (hb : Building total { node := node, pq := i :: j :: rest }) :
    Building (rest.map (weightAt node)).sum { node := node, pq := rest } where
  forest := hb.forest
  queued_lt m hm := hb.queued_lt m (by simp [hm])
  sorted := hb.sorted.of_cons.of_cons
  sum_eq := rfl
  child_le x c s hx m hm := hb.child_le x c s hx m (by simp [hm])

/-- The merge of the two least can be added: both are queued, so neither weighs less than a child of the other, and both
stand before all that stays queued (R161, R162). -/
theorem Building.addable_merge (hb : Building total { node := node, pq := i :: j :: rest }) {w : BitVec 33} {seq : Nat}
    (hw : w.toNat = weightAt node i + weightAt node j) :
    Addable { node := node, pq := rest } (.internal i j w seq) := by
  obtain ⟨hi, hj, -⟩ : (∀ m ∈ j :: rest, weightAt node i ≤ weightAt node m) ∧
      (∀ m ∈ rest, weightAt node j ≤ weightAt node m) ∧ rest.Pairwise fun m n => weightAt node m ≤ weightAt node n := by
    simpa only [List.pairwise_cons] using hb.sorted
  have hmem : ∀ {c s}, (Node.internal i j w seq).Joins c s → c ∈ i :: j :: rest := by
    intro c s hcs
    rcases joins_internal hcs with ⟨rfl, -⟩ | ⟨rfl, -⟩ <;> simp
  have hiw : weightAt node i ≤ w.toNat := by omega
  refine ⟨Nat.le_trans (hb.forest.one_le_weight i (hb.queued_lt i (by simp))) hiw, fun c s hcs => hb.queued_lt c (hmem hcs),
    fun c s hcs => ?_, fun c s g h hcs hc => hb.child_le c g h hc s (hmem hcs.symm), fun c s hcs m hm => ?_,
    fun x c s hx => Nat.le_trans (hb.child_le x c s hx i (by simp)) hiw⟩
  · rcases joins_internal hcs with ⟨rfl, rfl⟩ | ⟨rfl, rfl⟩
    · exact hw
    · exact hw.trans (Nat.add_comm _ _)
  · rcases joins_internal hcs with ⟨rfl, -⟩ | ⟨rfl, -⟩
    · exact hi m (List.mem_cons_of_mem _ hm)
    · exact hj m hm

/-- A merge of the two least keeps a build and its weight, as long as a weight of 33 bits holds it (R161). -/
theorem Building.merge (hb : Building total { node := node, pq := i :: j :: rest }) (htotal : total < 2 ^ 33)
    (seq : Nat) : Building total
      (Arena.add { node := node, pq := rest } (.internal i j ((nodeAt node i).weight + (nodeAt node j).weight) seq)) := by
  have hsum : weightAt node i + (weightAt node j + (rest.map (weightAt node)).sum) = total := hb.sum_eq
  have hweight : ((nodeAt node i).weight + (nodeAt node j).weight).toNat = weightAt node i + weightAt node j :=
    BitVec.toNat_add_of_lt (by unfold weightAt at hsum; omega)
  have h := hb.popTwo.add (hb.addable_merge (seq := seq) hweight)
  rwa [Node.weight, hweight, Nat.add_assoc, hsum] at h

end Merge

/-- The merges keep a build and its weight (R161). -/
theorem mergeAll_building {total : Nat} (htotal : total < 2 ^ 33) (alphabet fuel k : Nat) {a : Arena}
    (hb : Building total a) : Building total (mergeAll alphabet fuel k a) := by
  induction fuel generalizing k a with
  | zero => exact hb
  | succ fuel ih =>
    obtain ⟨node, pq⟩ := a
    unfold mergeAll
    split
    · rename_i i j rest e
      cases e
      exact ih (k + 1) (hb.merge htotal _)
    · exact hb

/-- A build ends with its root alone in the queue (R161). -/
theorem huffBuild_building {freqs : List (BitVec 32)} (htotal : totalFreq freqs < 2 ^ 33)
    (hne : ∃ f ∈ freqs, f ≠ 0) (alphabet : Nat) :
    Building (totalFreq freqs)
      { node := (huffBuild freqs alphabet).node, pq := [(huffBuild freqs alphabet).root] } := by
  have hb := mergeAll_building htotal alphabet (leaves freqs).pq.length 0 (leaves_building hne)
  have hq := (mergeAll_sizes alphabet (leaves freqs).pq.length 0 (leaves freqs) (by omega) (leaves_queued freqs)).1
  unfold huffBuild
  dsimp only
  generalize mergeAll alphabet (leaves freqs).pq.length 0 (leaves freqs) = b at hb hq
  obtain ⟨node, pq⟩ := b
  obtain ⟨root, rfl⟩ := List.length_eq_one_iff.mp hq
  exact hb

/-! ### The walk -/

theorem codeAt_set (t : List Code) (sym id : Nat) (c : Code) :
    codeAt (t.set sym c) id = codeAt t id ∨ (sym = id ∧ codeAt (t.set sym c) id = c) := by
  unfold codeAt
  by_cases h : sym = id
  · subst h
    by_cases hlt : sym < t.length
    · exact .inr ⟨rfl, by simp [hlt]⟩
    · exact .inl (by simp [hlt])
  · exact .inl (by simp [h])

/-- A walk leaves a slot as it was, or records in it the branches that lead to a leaf of the slot's own id (R166). -/
theorem visit_slot {node : List Node} (hf : MergeForest node) (fuel : Nat) {i : Nat} (hi : i < node.length)
    (path : BitVec 128) (depth : Nat) (t : List Code) (id : Nat) :
    codeAt (visit node fuel i path depth t) id = codeAt t id ∨
    ∃ ds w seq, descend node ds i = some (.leaf id w seq) ∧
      codeAt (visit node fuel i path depth t) id = ⟨extendPath path depth ds, BitVec.ofNat 8 (depth + ds.length)⟩ := by
  induction fuel generalizing i path depth t with
  | zero => exact .inl rfl
  | succ fuel ih =>
    have hget : node[i]? = some (nodeAt node i) := by simp [nodeAt, hi]
    unfold visit
    split
    · rename_i sym w seq e
      rw [e] at hget
      rcases codeAt_set t sym id ⟨path, BitVec.ofNat 8 depth⟩ with h | ⟨rfl, h⟩
      · exact .inl h
      · exact .inr ⟨[], w, seq, hget, h⟩
    · rename_i l r w q e
      rw [e] at hget
      have hl : l < node.length := hf.child_lt_length ⟨_, hget, w, q, .inl rfl⟩
      have hr : r < node.length := hf.child_lt_length ⟨_, hget, w, q, .inr rfl⟩
      rcases ih hr (path ||| (1#128 <<< depth)) (depth + 1) (visit node fuel l path (depth + 1) t) with
        hkept | ⟨ds, w', seq, hds, hcode⟩
      · rw [hkept]
        rcases ih hl path (depth + 1) t with hkept | ⟨ds, w', seq, hds, hcode⟩
        · exact .inl hkept
        · refine .inr ⟨false :: ds, w', seq, by simpa [descend, hget] using hds, ?_⟩
          rw [hcode, List.length_cons, Nat.add_right_comm, Nat.add_assoc]
          rfl
      · refine .inr ⟨true :: ds, w', seq, by simpa [descend, hget] using hds, ?_⟩
        rw [hcode, List.length_cons, Nat.add_right_comm, Nat.add_assoc]
        rfl

/-- A slot of a code table is empty, or holds the path to a leaf of its own id, at most 45 branches long (R37, R167). -/
theorem codesOf_slot {freqs : List (BitVec 32)} (htotal : totalFreq freqs < 2 ^ 32) (hne : ∃ f ∈ freqs, f ≠ 0)
    (alphabet id : Nat) :
    codeAt (codesOf freqs alphabet) id = ⟨0, 0⟩ ∨
    ∃ ds w seq, ds.length ≤ 45 ∧
      descend (huffBuild freqs alphabet).node ds (huffBuild freqs alphabet).root = some (.leaf id w seq) ∧
      codeAt (codesOf freqs alphabet) id = ⟨extendPath 0 0 ds, BitVec.ofNat 8 ds.length⟩ := by
  have hb := huffBuild_building (by omega) hne alphabet
  have hroot := hb.queued_lt _ (List.mem_singleton_self _)
  have hweight : weightAt _ _ = totalFreq freqs := hb.sum_eq
  have hstart : codeAt (List.replicate alphabet ⟨0, 0⟩) id = ⟨0, 0⟩ := by
    rw [codeAt, List.getD_eq_getElem?_getD, List.getElem?_replicate]
    split <;> rfl
  rcases visit_slot hb.forest (huffBuild freqs alphabet).node.length hroot 0 0 (List.replicate alphabet ⟨0, 0⟩) id with
    hkept | ⟨ds, w, seq, hds, hcode⟩
  · exact .inl (hkept.trans hstart)
  · rw [Nat.zero_add] at hcode
    exact .inr ⟨ds, w, seq, hb.forest.depth_le (hweight ▸ htotal) hds, hds, hcode⟩

/-- The decisions of a code of nonzero length lead from the root to a leaf of its id (R166, R167). -/
theorem descend_decisions {freqs : List (BitVec 32)} (htotal : totalFreq freqs < 2 ^ 32) (hne : ∃ f ∈ freqs, f ≠ 0)
    {alphabet id : Nat} (hlen : 1 ≤ (codeAt (codesOf freqs alphabet) id).len.toNat) :
    ∃ w seq, descend (huffBuild freqs alphabet).node (codeAt (codesOf freqs alphabet) id).decisions
      (huffBuild freqs alphabet).root = some (.leaf id w seq) := by
  rcases codesOf_slot htotal hne alphabet id with hempty | ⟨ds, w, seq, hshort, hds, hcode⟩
  · rw [hempty] at hlen
    exact absurd hlen (by decide)
  · refine ⟨w, seq, ?_⟩
    rw [hcode, decisions_of_path (by omega)]
    exact hds

/-- Settles O49: a code is the path to a leaf of its own id, and no path goes on past a leaf. -/
theorem codesArePrefixFreeFromTheRoot : Obligations.CodesArePrefixFreeFromTheRoot := by
  intro freqs htotal i j hi _ hij hfi _ ci cj hci hcj
  have hne : ∃ f ∈ freqs, f ≠ 0 := ⟨freqs[i], List.getElem_mem hi, by simpa [hi] using hfi⟩
  refine ⟨?_, codeBits_eq_reverse_decisions ci⟩
  rintro ⟨q, hq⟩
  obtain ⟨wi, si, hdi⟩ := descend_decisions htotal hne hci
  obtain ⟨wj, sj, hdj⟩ := descend_decisions htotal hne hcj
  rw [← hq] at hdj
  cases descend_append_of_leaf hdi hdj
  rw [List.append_nil, hdi] at hdj
  cases hdj
  exact hij rfl

end Sys2Proof.Machine

namespace Sys2Proof.Machine

/-! ### The bit writer (R231, R233) -/

/-- The `c1 + c2` low-order bits of a value are its upper `c1` of them, then its lower `c2` (R68). -/
theorem msbFirst_add (bits : BitVec 128) (c1 c2 : Nat) :
    msbFirst bits (c1 + c2) = msbFirst (bits >>> c2) c1 ++ msbFirst bits c2 := by
  induction c1 with
  | zero => rw [Nat.zero_add]; rfl
  | succ c1 ih =>
    rw [Nat.succ_add, msbFirst, ih, msbFirst, BitVec.getLsbD_ushiftRight, Nat.add_comm c2 c1, List.cons_append]

/-- What an append forwarded: the bits of the new bytes, then those still pending, are the bits pending before, then the
appended ones (R230). -/
theorem Writer.Appended.forwarded {w v : Writer} {bits : List Bool} (h : w.Appended v bits) :
    ∃ bytes : List Byte, v.out = w.out ++ bytes.map .byte ∧ bytesBits bytes ++ v.pend = w.pend ++ bits := by
  obtain ⟨hstream, -, ⟨bytes, hout⟩, -, -⟩ := h
  refine ⟨bytes, hout, ?_⟩
  simpa only [Writer.streamBits, hout, bytesOf_append, bytesOf_map_byte, bytesBits_append, List.append_assoc,
    List.append_cancel_left_eq] using hstream

/-- The bit that completes a byte the sink fails stops the append: PEND is empty and OUT is unchanged (R231, R285). -/
theorem pushBit_fails {w : Writer} {rest : List SinkAnswer} (hp : w.pend.length = 7)
    (ha : w.answers = .fail :: rest) (b : Bool) :
    pushBit b w = .stop .fWrite ((w.setPend []).setAnswers rest) := by
  rcases pushBit_cases b w with ⟨hne, -⟩ | ⟨-, hoffer⟩
  · exact absurd hp hne
  · rw [hoffer]
    exact offer_fail ha

/-- A run of bits with a sink that fails one of the bytes due: the bits before the failing byte's last one are appended,
and that bit stops the run (R231, R285). -/
theorem pushBits_stops {bits : List Bool} {w : Writer} {j : Nat} (hw : w.pend.length ≤ 7)
    (hj : j < w.bytesDue bits) (hs : w.sinkFailsAfter j) :
    ∃ w', pushBits bits w = .stop .fWrite w' ∧ w.StoppedAfter w' j bits := by
  obtain ⟨rest, hanswers⟩ := hs
  have hlong : 8 * j + 7 - w.pend.length < bits.length := by unfold Writer.bytesDue at hj; omega
  obtain ⟨as, b, bs, rfl, has⟩ : ∃ as b bs, bits = as ++ b :: bs ∧ as.length = 8 * j + 7 - w.pend.length :=
    ⟨bits.take _, _, _, by rw [← List.drop_eq_getElem_cons hlong, List.take_append_drop],
      List.length_take_of_le (Nat.le_of_lt hlong)⟩
  have hdue : w.bytesDue as = j := by unfold Writer.bytesDue; omega
  obtain ⟨v, hrun, happ⟩ := pushBits_appends as w hw (by rw [hdue]; exact ⟨_, hanswers⟩)
  obtain ⟨bytes, hout, hbits⟩ := happ.forwarded
  obtain ⟨-, hpend, -, hleft, hdraws⟩ := happ
  have hseven : v.pend.length = 7 := by omega
  have hfail : w.answers.drop j = .fail :: rest := by simp [hanswers]
  have hcount : bytes.length = j := by
    have hlength := congrArg List.length hbits
    rw [List.length_append, List.length_append, bytesBits_length] at hlength
    omega
  refine ⟨(v.setPend []).setAnswers rest, ?_, rfl, ?_, hdraws, bytes, hcount, hout, ?_⟩
  · rw [pushBits_append, hrun, Res.andThen_ok, pushBits, pushBit_fails hseven (hleft.trans (hdue ▸ hfail)),
      Res.andThen_stop]
  · rw [← List.drop_drop, hfail]
    rfl
  · rw [← List.append_assoc, ← hbits, List.append_assoc]
    exact List.prefix_append _ _

/-- Settles O40: a write within WR_MAX is its bits appended, and an append either sends them all or stops at the byte
the sink fails. -/
theorem writeAppendsTheRequestedBits : Obligations.WriteAppendsTheRequestedBits := by
  intro bits count w hw
  refine ⟨wrWrite_over, fun hcount htakes => ?_, fun j hcount hj hfails => ?_⟩
  · obtain ⟨w', hrun, happ⟩ := pushBits_appends (msbFirst bits count) w hw htakes
    refine ⟨w', (wrWrite_eq hcount).trans hrun, happ, ?_⟩
    obtain ⟨-, hpend, -⟩ := happ
    rwa [msbFirst_length] at hpend
  · rw [wrWrite_eq hcount]
    exact pushBits_stops hw hj hfails

/-- Settles O41: the bits of the whole write are those of the two parts in order, and two runs append what one does. -/
theorem writeMayBeSplit : Obligations.WriteMayBeSplit := by
  intro bits c1 c2 w hsum
  have hlower : wrWrite bits c2 = pushBits (msbFirst bits c2) := funext fun _ => wrWrite_eq (by omega)
  rw [wrWrite_eq hsum, wrWrite_eq (by omega), hlower, msbFirst_add, pushBits_append]

end Sys2Proof.Machine

namespace Sys2Proof.Machine

/-! ### The host commands (R100, R250 to R259) -/

/-- A command word that decodes is one of the six commands (R100). -/
theorem format_of_decodeCmd {w : BitVec 16} {i : Instr} (h : decodeCmd w = .instr i) : i.format = .cmd := by
  unfold decodeCmd at h
  dsimp only at h
  repeat' split at h
  all_goals cases h <;> rfl

/-- A faulted CORE discards all six commands (R252). -/
theorem exec_command_faulted {i : Instr} {s : State} (hi : i.format = .cmd) (h : s.fault ≠ .fNone) :
    exec i s = .next s := by
  cases i with
  | nop | push | endc | ends | flush | rderr =>
    simp only [exec, execNop, execPush, execEndc, execEnds, execFlush, execRderr, command_faulted h]
  | _ => cases hi

/-- A faulted CORE discards a word the decoder rejects (R252). -/
theorem refuseWord_faulted {r : Reject} {s : State} (h : s.fault ≠ .fNone) : refuseWord r s = .next s := by
  rcases refuseWord_cases r s with ⟨-, hr⟩ | ⟨_, -, -, hr⟩
  · exact hr
  · rw [hr, unitOp_faulted h]

/-- Settles O15: a legal word is a command, which admission discards, and an illegal one is discarded before its fault. -/
theorem faultedCoreIgnoresEveryCommandWord : Obligations.FaultedCoreIgnoresEveryCommandWord := by
  intro s w rest hfault hready hinbox
  have hfetch := fetch_word hinbox (acceptsNow_of_ready (.cmd w) hready)
  cases hdecode : decode (.cmd w) with
  | instr i =>
    rw [hdecode] at hfetch
    exact (step_of_fetch_run hfetch).trans (exec_command_faulted (format_of_decodeCmd hdecode) hfault)
  | reject r =>
    rw [hdecode] at hfetch
    exact (step_of_fetch_reject hfetch).trans (refuseWord_faulted hfault)

/-- Settles O22: a faulted CORE discards NOP, and without a fault NOP runs whatever FIN is, with nothing to do. -/
theorem nopDoesNothing : Obligations.NopDoesNothing := by
  refine ⟨rfl, fun s => ?_⟩
  by_cases hfault : s.fault = .fNone
  · exact command_runs hfault (.inr rfl)
  · exact command_faulted hfault

/-- The word of PUSH: the operation code above the byte is their sum (R90, R100). -/
theorem pushWord_eq_add (b : BitVec 8) : 0x10#8 ++ b = 0x1000#16 + b.setWidth 16 := by
  apply BitVec.eq_of_toNat_eq
  rw [BitVec.toNat_append, ← Nat.shiftLeft_add_eq_or_of_lt b.isLt, Nat.shiftLeft_eq]
  simp only [BitVec.toNat_add, BitVec.toNat_setWidth, BitVec.toNat_ofNat]
  omega

/-- After the end of the stream PUSH is refused, whatever the room in the chunk buffer (R253). -/
theorem execPush_finished {s : State} (b : BitVec 8) (hfault : s.fault = .fNone) (hfin : s.fin = true) :
    execPush b s = .next (raise .fCmd s) := by
  rw [execPush, command_finished hfault hfin]

/-- An admitted PUSH into a full chunk buffer is refused (R255). -/
theorem execPush_full {s : State} (b : BitVec 8) (hfault : s.fault = .fNone) (hfin : s.fin = false)
    (hfull : s.matcher.cb.length = Config.chunkMax) : execPush b s = .next (raise .fRange s) := by
  rw [execPush, command_runs hfault (.inl hfin), if_pos hfull, settle_stop]

/-- An admitted PUSH into a chunk buffer with room appends its byte (R255). -/
theorem execPush_room {s : State} (b : BitVec 8) (hfault : s.fault = .fNone) (hfin : s.fin = false)
    (hroom : s.matcher.cb.length ≠ Config.chunkMax) :
    execPush b s = .next (s.setMatcher (s.matcher.setCb (s.matcher.cb ++ [b]))) := by
  rw [execPush, command_runs hfault (.inl hfin), if_neg hroom, settle_ok]

/-- Settles O23: admission decides on FIN, and the room in CB on an admitted PUSH. -/
theorem pushSuppliesOneByte : Obligations.PushSuppliesOneByte := by
  refine fun b => ⟨congrArg PortWord.cmd (pushWord_eq_add b), fun s hfault => ⟨?_, ?_, ?_⟩⟩
  · exact execPush_finished b hfault
  · exact execPush_full b hfault
  · exact execPush_room b hfault

/-- Settles O24: admission decides on FIN, and an admitted RDERR is its fault entry. -/
theorem rderrRaisesFRead : Obligations.RderrRaisesFRead := by
  refine ⟨rfl, fun s hfault => ⟨fun hfin => ?_, fun hfin => ?_⟩⟩
  · calc exec .rderr s
        = .next (raise .fRead s) := command_runs hfault (.inl hfin)
      _ = .next ((s.setFault .fRead).setPhase .halt) := congrArg _ (raise_of_none hfault)
  · exact command_finished hfault hfin

end Sys2Proof.Machine

namespace Sys2Proof

/-! ### Reading a list with a default -/

theorem getD_of_lt {α : Type} {l : List α} {i : Nat} (h : i < l.length) (d : α) : l.getD i d = l[i] := by
  rw [List.getD_eq_getElem?_getD, List.getElem?_eq_getElem h, Option.getD_some]

theorem getD_of_ge {α : Type} {l : List α} {i : Nat} (h : l.length ≤ i) (d : α) : l.getD i d = d := by
  rw [List.getD_eq_getElem?_getD, List.getElem?_eq_none h, Option.getD_none]

theorem getD_append_of_lt {α : Type} {l : List α} {i : Nat} (h : i < l.length) (l' : List α) (d : α) :
    (l ++ l').getD i d = l.getD i d := by
  rw [List.getD_eq_getElem?_getD, List.getD_eq_getElem?_getD, List.getElem?_append_left h]

theorem getD_append_of_ge {α : Type} {l : List α} {i : Nat} (h : l.length ≤ i) (l' : List α) (d : α) :
    (l ++ l').getD i d = l'.getD (i - l.length) d := by
  rw [List.getD_eq_getElem?_getD, List.getD_eq_getElem?_getD, List.getElem?_append_right h]

end Sys2Proof

namespace Sys2Proof

/-! ### The decoder against the encoder (R90 to R102) -/

/-- An XTRA field of its row's own width always fits (R98). -/
theorem withExtra_setWidth {n m : Nat} (hnm : n ≤ m) (x : BitVec n) (row : BitVec n → Instr) :
    withExtra n (x.setWidth m) row = .instr (row x) := by
  rw [withExtra, BitVec.toNat_setWidth_of_le hnm, if_pos x.isLt, BitVec.setWidth_setWidth_of_le x hnm, BitVec.setWidth_eq]

/-- A row with `n` extra bits reads an XTRA field that is one of its operands, widened (R98). -/
theorem of_withExtra {n m : Nat} {x : BitVec m} {row : BitVec n → Instr} {i : Instr}
    (h : withExtra n x row = .instr i) : ∃ y : BitVec n, i = row y ∧ y.setWidth m = x := by
  unfold withExtra at h
  split at h
  · rename_i hx
    cases h
    refine ⟨x.setWidth n, rfl, BitVec.eq_of_toNat_eq ?_⟩
    have hsmall : x.toNat % 2 ^ n = x.toNat := Nat.mod_eq_of_lt hx
    rw [BitVec.toNat_setWidth, BitVec.toNat_setWidth, hsmall, Nat.mod_eq_of_lt x.isLt]
  · cases h

/-- A row without extra bits reads only the XTRA field 0. -/
theorem of_withExtra_zero {m : Nat} {x : BitVec m} {row i : Instr}
    (h : withExtra 0 x (fun _ => row) = .instr i) : i = row ∧ x = 0 := by
  obtain ⟨y, rfl, rfl⟩ := of_withExtra h
  refine ⟨rfl, ?_⟩
  rw [BitVec.eq_nil y]
  simp

/-! #### From an instruction to its word and back -/

/-- The word of a length code is read as that code (R94). -/
theorem decode_lengthWord {n k : Nat} (hk : k ≤ 28) (x : BitVec n) :
    decode (lengthWord k x) = decodeLength k (x.setWidth 5) := by
  have hid : (BitVec.ofNat 9 (257 + k)).toNat = 257 + k := by
    rw [BitVec.toNat_ofNat]
    exact Nat.mod_eq_of_lt (by omega)
  simp only [decode, lengthWord, decodeLlid, hid]
  rw [if_neg (by omega), if_neg (by omega), if_neg (by omega), Nat.add_sub_cancel_left]

/-- The word of a byte's literal id is read as that id (R94). -/
theorem decode_llLiteral (v : BitVec 8) : decode (encode (.llLiteral v)) = .instr (.llLiteral v) := by
  have hid : (v.setWidth 9).toNat = v.toNat := BitVec.toNat_setWidth_of_le (by decide)
  simp only [decode, encode, decodeLlid, hid]
  rw [if_pos v.isLt, BitVec.setWidth_setWidth_of_le v (by decide), BitVec.setWidth_eq]
  rfl

/-- The fields of the word of PUSH (R90, R100). -/
theorem pushWord_fields (b : BitVec 8) :
    (0x10#8 ++ b).extractLsb' 12 4 = 1#4 ∧ (0x10#8 ++ b).extractLsb' 8 4 = 0#4 ∧ (0x10#8 ++ b).extractLsb' 0 8 = b := by
  have hw : (0x10#8 ++ b).toNat = 4096 + b.toNat := by
    rw [BitVec.toNat_append, ← Nat.shiftLeft_add_eq_or_of_lt b.isLt, Nat.shiftLeft_eq]
    rfl
  refine ⟨BitVec.eq_of_toNat_eq ?_, BitVec.eq_of_toNat_eq ?_, BitVec.eq_of_toNat_eq ?_⟩
  all_goals
    simp only [BitVec.extractLsb'_toNat, Nat.shiftRight_eq_div_pow, hw, BitVec.toNat_ofNat]
    omega

/-- The word of PUSH is read as PUSH with its byte (R90, R100). -/
theorem decode_push (b : BitVec 8) : decode (encode (.push b)) = .instr (.push b) := by
  obtain ⟨hop, hrsv, hdata⟩ := pushWord_fields b
  simp only [decode, encode, decodeCmd, hop, hrsv, hdata]
  rfl

/-- A symbol word's fields, read back (R93). -/
theorem symWord_fields (tag : BitVec 1) (hi lo : BitVec 16) :
    (symWord tag hi lo).extractLsb' 16 16 = hi ∧ (symWord tag hi lo).extractLsb' 0 16 = lo ∧
      (symWord tag hi lo).getLsbD 32 = tag.getLsbD 0 := by
  refine ⟨BitVec.eq_of_getLsbD_eq fun k hk => ?_, BitVec.eq_of_getLsbD_eq fun k hk => ?_, ?_⟩
  · rw [symWord, BitVec.getLsbD_extractLsb', BitVec.getLsbD_append, BitVec.getLsbD_append]
    simp [hk, show 16 + k < 32 by omega]
  · rw [symWord, BitVec.getLsbD_extractLsb', BitVec.getLsbD_append, BitVec.getLsbD_append]
    simp [hk, show k < 32 by omega]
  · rw [symWord, BitVec.getLsbD_append]
    rfl

/-- A well-formed pointer's word is read as that pointer (R93, R102). -/
theorem decode_symPtr {d l : BitVec 16} (h : pointerInRange d l = true) :
    decode (encode (.symPtr d l)) = .instr (.symPtr d l) := by
  obtain ⟨hhi, hlo, htag⟩ := symWord_fields 1 d l
  have htag : (symWord 1 d l).getLsbD 32 = true := htag.trans rfl
  simp only [decode, encode, decodeSym, hhi, hlo, htag, if_true, if_pos (of_decide_eq_true h)]

/-- A literal byte's symbol word is read as that literal (R93). -/
theorem decode_symLit (v : BitVec 8) : decode (encode (.symLit v)) = .instr (.symLit v) := by
  obtain ⟨hhi, hlo, htag⟩ := symWord_fields 0 0 (v.setWidth 16)
  have htag : (symWord 0 0 (v.setWidth 16)).getLsbD 32 = false := htag.trans rfl
  have hv : (v.setWidth 16).toNat < 256 := by
    rw [BitVec.toNat_setWidth_of_le (by decide)]
    exact v.isLt
  simp only [decode, encode, decodeSym, hhi, hlo, htag]
  rw [if_neg (by decide), if_neg (by decide), if_pos hv, BitVec.setWidth_setWidth_of_le v (by decide), BitVec.setWidth_eq]

/-- The status word's fields, read back (R91). -/
theorem decode_status (f : BitVec 1) (n c : BitVec 3) : decode (encode (.status f n c)) = .instr (.status f n c) := by
  revert f n c
  decide

/-- Every well-formed row is read back from its word (R90 to R96, R100). -/
theorem decode_encode {i : Instr} (h : i.wellFormed = true) : decode (encode i) = .instr i := by
  cases i with
  | push b => exact decode_push b
  | symLit v => exact decode_symLit v
  | symPtr d l => exact decode_symPtr h
  | llLiteral v => exact decode_llLiteral v
  | status f n c => exact decode_status f n c
  | llLen27 x =>
    have hx : (x.setWidth 5).toNat ≠ 31 := of_decide_eq_true h
    rw [encode, decode_lengthWord (by decide), decodeLength, if_neg hx]
    exact withExtra_setWidth (by decide) x _
  | nop | endc | ends | flush | rderr | symEob | symEos | llEob | llEos | hdrField => rfl
  | llLen0 | llLen1 | llLen2 | llLen3 | llLen4 | llLen5 | llLen6 | llLen7 | llLen28 =>
    exact (decode_lengthWord (by decide) 0#0).trans rfl
  | dDist0 | dDist1 | dDist2 | dDist3 => rfl
  | llLen8 x | llLen9 x | llLen10 x | llLen11 x | llLen12 x | llLen13 x | llLen14 x | llLen15 x | llLen16 x
  | llLen17 x | llLen18 x | llLen19 x | llLen20 x | llLen21 x | llLen22 x | llLen23 x | llLen24 x | llLen25 x
  | llLen26 x => exact (decode_lengthWord (by decide) x).trans (withExtra_setWidth (by decide) x _)
  | dDist4 x | dDist5 x | dDist6 x | dDist7 x | dDist8 x | dDist9 x | dDist10 x | dDist11 x | dDist12 x | dDist13 x
  | dDist14 x | dDist15 x | dDist16 x | dDist17 x | dDist18 x | dDist19 x | dDist20 x | dDist21 x | dDist22 x
  | dDist23 x | dDist24 x | dDist25 x | dDist26 x | dDist27 x | dDist28 x | dDist29 x =>
    exact withExtra_setWidth (by decide) x _

/-! #### From a word to its instruction and back -/

/-- A command word is its fields (R90). -/
theorem cmdWord_ext {v w : BitVec 16} (hop : (v.extractLsb' 12 4).toNat = (w.extractLsb' 12 4).toNat)
    (hrsv : v.extractLsb' 8 4 = w.extractLsb' 8 4) (hdata : v.extractLsb' 0 8 = w.extractLsb' 0 8) : v = w := by
  have hrsv := congrArg BitVec.toNat hrsv
  have hdata := congrArg BitVec.toNat hdata
  simp only [BitVec.extractLsb'_toNat, Nat.shiftRight_eq_div_pow] at hop hrsv hdata
  apply BitVec.eq_of_toNat_eq
  omega

/-- A command word that decodes is the encoding of what it decodes to (R90, R100, R101). -/
theorem encode_of_decodeCmd {w : BitVec 16} {i : Instr} (h : decodeCmd w = .instr i) :
    encode i = .cmd w ∧ i.wellFormed = true := by
  unfold decodeCmd at h
  dsimp only at h
  split at h
  · cases h
  split at h
  · cases h
  rename_i hop hrsv
  rw [Classical.not_not] at hrsv
  split at h
  · rename_i h1
    cases h
    obtain ⟨fop, frsv, fdata⟩ := pushWord_fields (w.extractLsb' 0 8)
    exact ⟨congrArg PortWord.cmd (cmdWord_ext (by rw [fop, h1]; rfl) (frsv.trans hrsv.symm) fdata), rfl⟩
  split at h
  · cases h
  rename_i h1 hdata
  rw [Classical.not_not] at hdata
  have ext : ∀ v : BitVec 16, (v.extractLsb' 12 4).toNat = (w.extractLsb' 12 4).toNat → v.extractLsb' 8 4 = 0 →
      v.extractLsb' 0 8 = 0 → PortWord.cmd v = .cmd w := fun v e1 e2 e3 =>
    congrArg PortWord.cmd (cmdWord_ext e1 (e2.trans hrsv.symm) (e3.trans hdata.symm))
  split at h
  · rename_i hn; cases h; exact ⟨ext _ hn.symm rfl rfl, rfl⟩
  split at h
  · rename_i hn; cases h; exact ⟨ext _ hn.symm rfl rfl, rfl⟩
  split at h
  · rename_i hn; cases h; exact ⟨ext _ hn.symm rfl rfl, rfl⟩
  split at h
  · rename_i hn; cases h; exact ⟨ext _ hn.symm rfl rfl, rfl⟩
  cases h
  refine ⟨ext _ ?_ rfl rfl, rfl⟩
  show 5 = _
  omega

/-- A symbol word is its fields (R93). -/
theorem symWord_of_fields {w : BitVec 33} {tag : BitVec 1} (htag : w.getLsbD 32 = tag.getLsbD 0) :
    symWord tag (w.extractLsb' 16 16) (w.extractLsb' 0 16) = w := by
  apply BitVec.eq_of_getLsbD_eq
  intro k hk
  rw [symWord, BitVec.getLsbD_append, BitVec.getLsbD_append, BitVec.getLsbD_extractLsb', BitVec.getLsbD_extractLsb']
  rcases Nat.lt_or_ge k 16 with h16 | h16
  · simp [h16, show k < 32 by omega]
  rcases Nat.lt_or_ge k 32 with h32 | h32
  · simp [h32, show ¬ k < 16 by omega, show k - 16 < 16 by omega, show 16 + (k - 16) = k by omega]
  · rw [if_neg (by omega), show k - 32 = 0 by omega, ← htag, show k = 32 by omega]

/-- A symbol word that decodes is the encoding of what it decodes to (R93, R102). -/
theorem encode_of_decodeSym {w : BitVec 33} {i : Instr} (h : decodeSym w = .instr i) :
    encode i = .sym w ∧ i.wellFormed = true := by
  unfold decodeSym at h
  dsimp only at h
  split at h
  · rename_i htag
    split at h
    · rename_i hrange
      cases h
      exact ⟨congrArg PortWord.sym (symWord_of_fields htag), decide_eq_true hrange⟩
    · cases h
  · rename_i htag
    split at h
    · cases h
    rename_i hhi
    rw [Classical.not_not] at hhi
    have ext : ∀ lo : BitVec 16, lo.toNat = (w.extractLsb' 0 16).toNat → PortWord.sym (symWord 0 0 lo) = .sym w := by
      intro lo hlo
      rw [BitVec.eq_of_toNat_eq hlo, ← hhi]
      exact congrArg PortWord.sym (symWord_of_fields (by simpa using htag))
    split at h
    · rename_i hbyte
      cases h
      refine ⟨ext _ ?_, rfl⟩
      rw [BitVec.toNat_setWidth, BitVec.toNat_setWidth]
      omega
    split at h
    · rename_i hn; cases h; exact ⟨ext _ hn.symm, rfl⟩
    split at h
    · rename_i hn; cases h; exact ⟨ext _ hn.symm, rfl⟩
    · cases h

/-- A row whose word is its own id beside its XTRA field is what its word is read from. -/
theorem encode_of_withExtra {n m : Nat} {x : BitVec m} {row : BitVec n → Instr} {word : BitVec m → PortWord} {i : Instr}
    (h : withExtra n x row = .instr i) (hrow : ∀ y, encode (row y) = word (y.setWidth m) ∧ (row y).wellFormed = true) :
    encode i = word x ∧ i.wellFormed = true := by
  obtain ⟨y, rfl, rfl⟩ := of_withExtra h
  exact hrow y

/-- The same for a row without extra bits. -/
theorem encode_of_withExtra_zero {m : Nat} {x : BitVec m} {row : Instr} {word : BitVec m → PortWord} {i : Instr}
    (h : withExtra 0 x (fun _ => row) = .instr i) (hrow : encode row = word 0 ∧ row.wellFormed = true) :
    encode i = word x ∧ i.wellFormed = true := by
  obtain ⟨rfl, rfl⟩ := of_withExtra_zero h
  exact hrow

/-- A length code that decodes is the encoding of what it decodes to (R94, R192, R194). -/
theorem encode_of_decodeLength {k : Nat} {x : BitVec 5} {i : Instr} (h : decodeLength k x = .instr i) :
    encode i = .llid (BitVec.ofNat 9 (257 + k)) x ∧ i.wellFormed = true := by
  unfold decodeLength at h
  split at h
  case h_1 | h_2 | h_3 | h_4 | h_5 | h_6 | h_7 | h_8 | h_29 => exact encode_of_withExtra_zero h ⟨rfl, rfl⟩
  case h_28 =>
    split at h
    · cases h
    · rename_i hx
      obtain ⟨y, rfl, rfl⟩ := of_withExtra h
      exact ⟨rfl, decide_eq_true (by simpa using hx)⟩
  case h_30 => cases h
  all_goals exact encode_of_withExtra h fun y => ⟨rfl, rfl⟩

/-- A literal/length id that decodes is the encoding of what it decodes to (R94). -/
theorem encode_of_decodeLlid {id : BitVec 9} {x : BitVec 5} {i : Instr} (h : decodeLlid id x = .instr i) :
    encode i = .llid id x ∧ i.wellFormed = true := by
  unfold decodeLlid at h
  split at h
  · rename_i hbyte
    refine encode_of_withExtra_zero h ⟨congrArg (PortWord.llid · 0) (BitVec.eq_of_toNat_eq ?_), rfl⟩
    rw [BitVec.toNat_setWidth, BitVec.toNat_setWidth]
    omega
  split at h
  · rename_i hid
    exact encode_of_withExtra_zero h ⟨congrArg (PortWord.llid · 0) (BitVec.eq_of_toNat_eq hid.symm), rfl⟩
  split at h
  · rename_i hid
    exact encode_of_withExtra_zero h ⟨congrArg (PortWord.llid · 0) (BitVec.eq_of_toNat_eq hid.symm), rfl⟩
  · obtain ⟨hword, hwf⟩ := encode_of_decodeLength h
    refine ⟨hword.trans (congrArg (PortWord.llid · x) (BitVec.eq_of_toNat_eq ?_)), hwf⟩
    rw [BitVec.toNat_ofNat]
    omega

/-- A distance id that decodes is the encoding of what it decodes to (R95). -/
theorem encode_of_decodeDid {id : BitVec 5} {x : BitVec 13} {i : Instr} (h : decodeDid id x = .instr i) :
    encode i = .did id x ∧ i.wellFormed = true := by
  have hid : BitVec.ofNat 5 id.toNat = id := BitVec.ofNat_toNat 5 id ▸ BitVec.setWidth_eq id
  unfold decodeDid at h
  rw [← hid]
  split at h
  case h_1 | h_2 | h_3 | h_4 => rename_i hk; rw [hk]; exact encode_of_withExtra_zero h ⟨rfl, rfl⟩
  case h_31 => cases h
  all_goals
    rename_i hk
    rw [hk]
    exact encode_of_withExtra h fun y => ⟨rfl, rfl⟩

/-- A status word that decodes is the encoding of what it decodes to (R91). -/
theorem encode_of_decodeSts {w : BitVec 8} {i : Instr} (h : decodeSts w = .instr i) :
    encode i = .sts w ∧ i.wellFormed = true := by
  have fields : ∀ w : BitVec 8, w.getLsbD 6 = false →
      w.extractLsb' 7 1 ++ (0#1 ++ (w.extractLsb' 3 3 ++ w.extractLsb' 0 3)) = w := by decide
  unfold decodeSts at h
  split at h
  · cases h
  · rename_i h6
    cases h
    exact ⟨congrArg PortWord.sts (fields w (by simpa using h6)), rfl⟩

/-- A word that decodes is the encoding of what it decodes to (R90 to R96). -/
theorem encode_of_decode {w : PortWord} {i : Instr} (h : decode w = .instr i) :
    encode i = w ∧ i.wellFormed = true := by
  cases w with
  | cmd w => exact encode_of_decodeCmd h
  | sym w => exact encode_of_decodeSym h
  | llid id x => exact encode_of_decodeLlid h
  | did id x => exact encode_of_decodeDid h
  | hdr w => cases h; exact ⟨rfl, rfl⟩
  | sts w => exact encode_of_decodeSts h

/-- Settles O2: each format's words are taken apart into the fields its rows are written from. -/
theorem encodeOfDecodeIsTheWord : Obligations.EncodeOfDecodeIsTheWord := fun _ _ => encode_of_decode

/-- Settles O1: a well-formed row is read back, and only a well-formed row is ever read. -/
theorem decodeOfEncodeIsTheInstruction : Obligations.DecodeOfEncodeIsTheInstruction :=
  fun _ => ⟨fun h => (encode_of_decode h).2, decode_encode⟩

/-- Settles O3: the words written out are closed terms, and the decoder runs on them. -/
theorem writtenOutWordsDecode : Obligations.WrittenOutWordsDecode := by
  unfold Obligations.WrittenOutWordsDecode
  decide

end Sys2Proof

namespace Sys2Proof

/-! ### The words that are rejected (R94, R95, R101, R102) -/

/-- What decodes to an instruction is not rejected. -/
theorem ne_reject_of_instr {d : Decoded} {i : Instr} (h : d = .instr i) (r : Reject) : d ≠ .reject r := by
  rw [h]
  exact Decoded.noConfusion

/-- The rejected command words, with the operation code as a number (R101). -/
theorem decodeCmd_cases (w : BitVec 16) :
    (∃ i, decodeCmd w = .instr i ∧ (w.extractLsb' 12 4).toNat < 6 ∧ w.extractLsb' 8 4 = 0 ∧
      (w.extractLsb' 0 8 = 0 ∨ (w.extractLsb' 12 4).toNat = 1)) ∨
    (∃ r, decodeCmd w = .reject r ∧ Machine.Reject.fault? r = some .fCmd ∧
      (6 ≤ (w.extractLsb' 12 4).toNat ∨ w.extractLsb' 8 4 ≠ 0 ∨
        (w.extractLsb' 0 8 ≠ 0 ∧ (w.extractLsb' 12 4).toNat ≠ 1))) := by
  unfold decodeCmd
  dsimp only
  split
  · rename_i hop
    exact .inr ⟨_, rfl, rfl, .inl hop⟩
  rename_i hop
  split
  · rename_i hrsv
    exact .inr ⟨_, rfl, rfl, .inr (.inl hrsv)⟩
  rename_i hrsv
  have hop := Nat.lt_of_not_le hop
  have hrsv := Classical.not_not.mp hrsv
  split
  · rename_i h1
    exact .inl ⟨_, rfl, hop, hrsv, .inr h1⟩
  rename_i h1
  split
  · rename_i hdata
    exact .inr ⟨_, rfl, rfl, .inr (.inr ⟨hdata, h1⟩)⟩
  rename_i hdata
  have hdata := Classical.not_not.mp hdata
  repeat' split
  all_goals exact .inl ⟨_, rfl, hop, hrsv, .inl hdata⟩

/-- The legal symbol words, field by field (R102). -/
def SymWordLegal (w : BitVec 33) : Prop :=
  (w.getLsbD 32 = false ∧ (w.extractLsb' 16 16).toNat = 0 ∧
      ((w.extractLsb' 0 16).toNat ≤ 256 ∨ (w.extractLsb' 0 16).toNat = 286)) ∨
    (w.getLsbD 32 = true ∧ 1 ≤ (w.extractLsb' 16 16).toNat ∧ (w.extractLsb' 16 16).toNat ≤ 32768 ∧
      3 ≤ (w.extractLsb' 0 16).toNat ∧ (w.extractLsb' 0 16).toNat ≤ 258)

/-- A legal symbol word decodes and any other is rejected as reserved (R102). -/
theorem decodeSym_cases (w : BitVec 33) :
    (SymWordLegal w ∧ ∃ i, decodeSym w = .instr i) ∨ (¬ SymWordLegal w ∧ decodeSym w = .reject .reservedSymbol) := by
  unfold decodeSym SymWordLegal
  dsimp only
  generalize w.extractLsb' 0 16 = lo
  generalize w.extractLsb' 16 16 = hi
  cases w.getLsbD 32 with
  | true =>
    rw [if_pos rfl]
    split
    · rename_i h
      exact .inl ⟨.inr ⟨rfl, h⟩, _, rfl⟩
    · rename_i h
      exact .inr ⟨by simpa using h, rfl⟩
  | false =>
    have hzero : hi ≠ 0 ↔ hi.toNat ≠ 0 := not_congr ⟨fun h => by rw [h]; rfl, fun h => BitVec.eq_of_toNat_eq h⟩
    rw [if_neg (by decide)]
    simp only [hzero, true_and, false_and, or_false, Bool.false_eq_true]
    by_cases h0 : hi.toNat = 0
    · rw [if_neg (Classical.not_not.mpr h0)]
      split
      · exact .inl ⟨⟨h0, by omega⟩, _, rfl⟩
      split
      · exact .inl ⟨⟨h0, by omega⟩, _, rfl⟩
      split
      · exact .inl ⟨⟨h0, by omega⟩, _, rfl⟩
      · exact .inr ⟨by omega, rfl⟩
    · rw [if_pos h0]
      exact .inr ⟨fun h => h0 h.1, rfl⟩

/-- An XTRA field its row does not have is rejected as such (R98). -/
theorem of_withExtra_reject {n m : Nat} {x : BitVec m} {row : BitVec n → Instr} {r : Reject}
    (h : withExtra n x row = .reject r) : r = .extraOutOfRange := by
  unfold withExtra at h
  split at h
  · cases h
  · cases h
    rfl

/-- An empty XTRA field fits every length code, and the codes are 0 to 28 (R94). -/
theorem decodeLength_zero (k : Nat) :
    (k ≤ 28 ∧ ∃ i, decodeLength k 0 = .instr i) ∨ (29 ≤ k ∧ decodeLength k 0 = .reject .noSuchId) := by
  unfold decodeLength
  split
  case h_30 =>
    refine .inr ⟨Nat.lt_of_not_le fun hk => ?_, rfl⟩
    simp only [imp_false] at *
    omega
  all_goals exact .inl ⟨by decide, _, rfl⟩

/-- With an empty XTRA field the literal/length ids that exist are 0 to 286 (R94). -/
theorem decodeLlid_zero (id : BitVec 9) :
    (id.toNat ≤ 286 ∧ ∃ i, decodeLlid id 0 = .instr i) ∨ (287 ≤ id.toNat ∧ decodeLlid id 0 = .reject .noSuchId) := by
  unfold decodeLlid
  split
  · exact .inl ⟨by omega, _, rfl⟩
  split
  · exact .inl ⟨by omega, _, rfl⟩
  split
  · exact .inl ⟨by omega, _, rfl⟩
  · rcases decodeLength_zero (id.toNat - 257) with ⟨hk, h⟩ | ⟨hk, h⟩
    · exact .inl ⟨by omega, h⟩
    · exact .inr ⟨by omega, h⟩

/-- With an empty XTRA field the distance ids that exist are 0 to 29 (R95). -/
theorem decodeDid_zero (id : BitVec 5) :
    (id.toNat ≤ 29 ∧ ∃ i, decodeDid id 0 = .instr i) ∨ (30 ≤ id.toNat ∧ decodeDid id 0 = .reject .noSuchId) := by
  unfold decodeDid
  generalize id.toNat = k
  split
  case h_31 =>
    refine .inr ⟨Nat.lt_of_not_le fun hk => ?_, rfl⟩
    simp only [imp_false] at *
    omega
  all_goals exact .inl ⟨by decide, _, rfl⟩

/-- A rejected length code does not exist or has an XTRA field it cannot have (R98, R194). -/
theorem decodeLength_reject {k : Nat} {x : BitVec 5} {r : Reject} (h : decodeLength k x = .reject r) :
    r = .noSuchId ∨ r = .extraOutOfRange := by
  unfold decodeLength at h
  split at h
  case h_28 =>
    split at h
    · cases h; exact .inr rfl
    · exact .inr (of_withExtra_reject h)
  case h_30 => cases h; exact .inl rfl
  all_goals exact .inr (of_withExtra_reject h)

/-- A rejected id does not exist or has an XTRA field it cannot have (R94, R95, R98). -/
theorem decode_id_reject {w : PortWord} {r : Reject} (hw : w.format = .llid ∨ w.format = .did)
    (h : decode w = .reject r) : r = .noSuchId ∨ r = .extraOutOfRange := by
  cases w with
  | llid id x =>
    simp only [decode, decodeLlid] at h
    split at h
    · exact .inr (of_withExtra_reject h)
    split at h
    · exact .inr (of_withExtra_reject h)
    split at h
    · exact .inr (of_withExtra_reject h)
    · exact decodeLength_reject h
  | did id x =>
    simp only [decode, decodeDid] at h
    split at h
    case h_31 => cases h; exact .inl rfl
    all_goals exact .inr (of_withExtra_reject h)
  | cmd | sym | hdr | sts => rcases hw with hw | hw <;> cases hw

end Sys2Proof

namespace Sys2Proof.Machine

/-! ### A step that takes a word (R90, R101, R102, R250) -/

/-- A rejected word with a fault, in a CORE without one, is that fault's entry (R101, R102, R284). -/
theorem refuseWord_raises {r : Reject} {c : FaultCode} {s : State} (hr : Reject.fault? r = some c)
    (hfault : s.fault = .fNone) : refuseWord r s = .next ((s.setFault c).setPhase .halt) := by
  rw [refuseWord, hr]
  calc unitOp (fun s => .stop c s) s
      = .next (raise c s) := unitOp_runs hfault
    _ = .next ((s.setFault c).setPhase .halt) := by rw [raise_of_none hfault]

/-- A step that takes a rejected word refuses it. -/
theorem step_reject {s : State} {w : PortWord} {rest : List HostInput} {r : Reject} (hinbox : s.inbox = .word w :: rest)
    (haccept : acceptsNow w s = true) (hr : decode w = .reject r) : step s = refuseWord r (s.setInbox rest) := by
  have hfetch := fetch_word hinbox haccept
  rw [hr] at hfetch
  exact step_of_fetch_reject hfetch

/-- A step that takes a word runs what it decodes to. -/
theorem step_run {s : State} {w : PortWord} {rest : List HostInput} {i : Instr} (hinbox : s.inbox = .word w :: rest)
    (haccept : acceptsNow w s = true) (hi : decode w = .instr i) : step s = exec i (s.setInbox rest) := by
  have hfetch := fetch_word hinbox haccept
  rw [hi] at hfetch
  exact step_of_fetch_run hfetch

/-- Settles O4: the rejected words are those of R101, and each reason for a rejection raises F_CMD. -/
theorem illegalCommandWordsAreRefused : Obligations.IllegalCommandWordsAreRefused := by
  intro w illegal
  have hone : w.extractLsb' 12 4 ≠ 1 ↔ (w.extractLsb' 12 4).toNat ≠ 1 :=
    not_congr ⟨fun h => by rw [h]; rfl, fun h => BitVec.eq_of_toNat_eq h⟩
  rcases decodeCmd_cases w with ⟨i, hi, hop, hrsv, hdata⟩ | ⟨r, hr, hfault, hwhy⟩
  · have hlegal : ¬ illegal := by
      rintro (h | h | ⟨h, h1⟩)
      · omega
      · exact h hrsv
      · exact hdata.elim h (hone.mp h1)
    exact ⟨⟨fun ⟨r, hr⟩ => (ne_reject_of_instr hi r hr).elim, fun h => (hlegal h).elim⟩,
      fun s rest h => (hlegal h).elim⟩
  · have hill : illegal := by
      rcases hwhy with h | h | ⟨h, h1⟩
      · exact .inl h
      · exact .inr (.inl h)
      · exact .inr (.inr ⟨h, hone.mpr h1⟩)
    refine ⟨⟨fun _ => hill, fun _ => ⟨r, hr⟩⟩, fun s rest _ hinbox hready hnone => ?_⟩
    rw [step_reject hinbox (acceptsNow_of_ready _ hready) hr]
    exact refuseWord_raises hfault hnone

/-- Settles O5: the rejected words are those that are not legal, and a reserved word raises F_RANGE. -/
theorem reservedSymbolWordsAreRefused : Obligations.ReservedSymbolWordsAreRefused := by
  intro w hi lo legal
  have hlegal : SymWordLegal w ↔ legal := Iff.rfl
  rcases decodeSym_cases w with ⟨h, i, hi⟩ | ⟨h, hr⟩ <;> rw [hlegal] at h
  · exact ⟨⟨fun ⟨r, hr⟩ => (ne_reject_of_instr hi r hr).elim, fun hn => (hn h).elim⟩, fun s rest hn => (hn h).elim⟩
  · refine ⟨⟨fun _ => h, fun _ => ⟨_, hr⟩⟩, fun s rest _ hinbox hready hnone => ?_⟩
    rw [step_reject hinbox (acceptsNow_of_ready _ hready) hr]
    exact refuseWord_raises rfl hnone

/-- Settles O6: the ids with an empty XTRA field are decided by their number, and a rejected id word raises F_RANGE while
a status word's reserved bit raises nothing. -/
theorem idsThatDoNotExistAreRejected : Obligations.IdsThatDoNotExistAreRejected := by
  refine ⟨fun id => ?_, fun id hid => ?_, fun id => ?_, fun id hid => ?_, ?_, ?_⟩
  · rcases decodeLlid_zero id with ⟨hid, i, h⟩ | ⟨hid, h⟩
    · exact ⟨fun hr => (ne_reject_of_instr h _ hr).elim, fun hn => by omega⟩
    · exact ⟨fun _ => hid, fun _ => h⟩
  · rcases decodeLlid_zero id with ⟨-, h⟩ | ⟨hn, -⟩
    · exact h
    · omega
  · rcases decodeDid_zero id with ⟨hid, i, h⟩ | ⟨hid, h⟩
    · exact ⟨fun hr => (ne_reject_of_instr h _ hr).elim, fun hn => by omega⟩
    · exact ⟨fun _ => hid, fun _ => h⟩
  · rcases decodeDid_zero id with ⟨-, h⟩ | ⟨hn, -⟩
    · exact h
    · omega
  · intro s w rest r hw hr hinbox hready hnone
    rw [step_reject hinbox (acceptsNow_of_ready _ hready) hr]
    rcases decode_id_reject hw hr with rfl | rfl <;> exact refuseWord_raises rfl hnone
  · intro s w rest h6 hinbox
    have hr : decode (.sts w) = .reject .reservedStatusBit := by rw [decode, decodeSts, if_pos h6]
    rw [step_reject hinbox (acceptsNow_sts w s) hr]
    rfl

/-- Settles O7: an accepted word leaves the inbox and runs. -/
theorem stepRunsTheDecodedInstruction : Obligations.StepRunsTheDecodedInstruction := by
  intro s w rest i hinbox haccept hi
  refine step_run hinbox ?_ hi
  simpa [acceptsNow] using haccept

/-- Settles O8: an empty inbox leaves CORE idle, and outside IDLE and HALT only a status word is accepted. -/
theorem stepWithoutAcceptedWord : Obligations.StepWithoutAcceptedWord := by
  refine ⟨fun s h => ?_, fun s w rest hinbox hw hidle hhalt => ?_⟩
  · rw [step, fetch_nil h]
  · have hbusy : fetch s = .busy := by
      simp [fetch, hinbox, fetchWord, acceptsNow, State.cmdReady, hw, hidle, hhalt]
    rw [step, hbusy]

end Sys2Proof.Machine

namespace Sys2Proof.Machine

/-! ### The maps from a value to its code (R192 to R195, R200) -/

/-- The search answers the last index whose base is at most the value, or its default if there is none (R194). -/
theorem greatestIndex_spec (v : Nat) (bases : List Nat) (k best : Nat) :
    (greatestIndex v bases k best = best ∧ ∀ j < bases.length, v < bases.getD j 0) ∨
    ∃ j < bases.length, greatestIndex v bases k best = k + j ∧ bases.getD j 0 ≤ v ∧
      ∀ m < bases.length, bases.getD m 0 ≤ v → m ≤ j := by
  induction bases generalizing k best with
  | nil => exact .inl ⟨rfl, fun j hj => absurd hj (Nat.not_lt_zero j)⟩
  | cons b bs ih =>
    unfold greatestIndex
    rcases ih (k + 1) (if b ≤ v then k else best) with ⟨hr, hnone⟩ | ⟨j, hj, hr, hle, hlast⟩
    · by_cases hb : b ≤ v
      · refine .inr ⟨0, Nat.zero_lt_succ _, by rw [hr, if_pos hb]; rfl, hb, fun m hm hmv => ?_⟩
        cases m with
        | zero => exact Nat.le_refl 0
        | succ m => exact absurd hmv (Nat.not_le_of_lt (hnone m (Nat.lt_of_succ_lt_succ hm)))
      · refine .inl ⟨by rw [hr, if_neg hb], fun m hm => ?_⟩
        cases m with
        | zero => exact Nat.lt_of_not_le hb
        | succ m => exact hnone m (Nat.lt_of_succ_lt_succ hm)
    · refine .inr ⟨j + 1, Nat.succ_lt_succ hj, by rw [hr]; omega, hle, fun m hm hmv => ?_⟩
      cases m with
      | zero => exact Nat.zero_le _
      | succ m => exact Nat.succ_le_succ (hlast m (Nat.lt_of_succ_lt_succ hm) hmv)

/-- A length within the domain has the greatest code whose base it reaches (R194). -/
theorem lenMap_spec {l : Nat} (h3 : 3 ≤ l) (h258 : l ≤ 258) :
    ∃ k, lenMap l = some k ∧ k ≤ 28 ∧ lenBase.getD k 0 ≤ l ∧ ∀ j, j ≤ 28 → lenBase.getD j 0 ≤ l → j ≤ k := by
  rw [lenMap, if_pos ⟨h3, h258⟩]
  rcases greatestIndex_spec l lenBase 0 0 with ⟨-, hnone⟩ | ⟨k, hk, hr, hle, hlast⟩
  · exact absurd (hnone 0 (by decide)) (Nat.not_lt_of_le h3)
  · exact ⟨k, by rw [hr, Nat.zero_add], Nat.le_of_lt_succ hk, hle, fun j hj => hlast j (Nat.lt_succ_of_le hj)⟩

theorem lenMap_outside {l : Nat} (h : l < 3 ∨ 258 < l) : lenMap l = none :=
  if_neg (by omega)

/-- A distance within the domain has the greatest code whose base it reaches (R195). -/
theorem distMap_spec {d : Nat} (h1 : 1 ≤ d) (h32768 : d ≤ 32768) :
    ∃ k, distMap d = some k ∧ k ≤ 29 ∧ distBase.getD k 0 ≤ d ∧ ∀ j, j ≤ 29 → distBase.getD j 0 ≤ d → j ≤ k := by
  rw [distMap, if_pos ⟨h1, h32768⟩]
  rcases greatestIndex_spec d distBase 0 0 with ⟨-, hnone⟩ | ⟨k, hk, hr, hle, hlast⟩
  · exact absurd (hnone 0 (by decide)) (Nat.not_lt_of_le h1)
  · exact ⟨k, by rw [hr, Nat.zero_add], Nat.le_of_lt_succ hk, hle, fun j hj => hlast j (Nat.lt_succ_of_le hj)⟩

theorem distMap_outside {d : Nat} (h : d < 1 ∨ 32768 < d) : distMap d = none :=
  if_neg (by omega)

/-- Settles O54: the search answers the last base reached, and the first base of each table is the least value. -/
theorem mapsTakeTheGreatestIndex : Obligations.MapsTakeTheGreatestIndex :=
  ⟨fun _ => lenMap_spec, fun _ => lenMap_outside, fun _ => distMap_spec, fun _ => distMap_outside⟩

/-- Codes 0 to 26 of the lengths leave no gap and do not overlap (R207). -/
theorem lenBase_succ : ∀ k, k < 27 → lenBase.getD k 0 + 2 ^ lenExtra.getD k 0 = lenBase.getD (k + 1) 0 := by decide

/-- Codes 0 to 28 of the distances leave no gap and do not overlap (R207). -/
theorem distBase_succ : ∀ k, k < 29 → distBase.getD k 0 + 2 ^ distExtra.getD k 0 = distBase.getD (k + 1) 0 := by decide

/-- What a length is above its base fits the code's extra bits (R200, R207). -/
theorem lenOffset_spec {l k : Nat} (h : lenMap l = some k) :
    lenOffset l k + lenBase.getD k 0 = l ∧ lenOffset l k < 2 ^ lenExtra.getD k 0 := by
  by_cases hdom : 3 ≤ l ∧ l ≤ 258
  · obtain ⟨k', hk', hle, hbase, hlast⟩ := lenMap_spec hdom.1 hdom.2
    cases hk'.symm.trans h
    refine ⟨Nat.sub_add_cancel hbase, ?_⟩
    have hnext : l < lenBase.getD k 0 + 2 ^ lenExtra.getD k 0 := by
      rcases Nat.lt_or_ge k 27 with hk | hk
      · rw [lenBase_succ k hk]
        exact Nat.lt_of_not_le fun hreach => absurd (hlast (k + 1) (by omega) hreach) (Nat.not_succ_le_self k)
      · have hlast2 : ∀ k, 27 ≤ k → k ≤ 28 → 258 < lenBase.getD k 0 + 2 ^ lenExtra.getD k 0 := by
          intro k h27 h28
          obtain rfl | rfl : k = 27 ∨ k = 28 := by omega
          · decide
          · decide
        exact Nat.lt_of_le_of_lt hdom.2 (hlast2 k hk hle)
    unfold lenOffset
    omega
  · rw [lenMap, if_neg hdom] at h
    cases h

/-- What a distance is above its base fits the code's extra bits (R200, R207). -/
theorem distOffset_spec {d k : Nat} (h : distMap d = some k) :
    distOffset d k + distBase.getD k 0 = d ∧ distOffset d k < 2 ^ distExtra.getD k 0 := by
  by_cases hdom : 1 ≤ d ∧ d ≤ 32768
  · obtain ⟨k', hk', hle, hbase, hlast⟩ := distMap_spec hdom.1 hdom.2
    cases hk'.symm.trans h
    refine ⟨Nat.sub_add_cancel hbase, ?_⟩
    have hnext : d < distBase.getD k 0 + 2 ^ distExtra.getD k 0 := by
      rcases Nat.lt_or_ge k 29 with hk | hk
      · rw [distBase_succ k hk]
        exact Nat.lt_of_not_le fun hreach => absurd (hlast (k + 1) (by omega) hreach) (Nat.not_succ_le_self k)
      · cases Nat.le_antisymm hle hk
        exact Nat.lt_of_le_of_lt hdom.2 (by decide)
    unfold distOffset
    omega
  · rw [distMap, if_neg hdom] at h
    cases h

/-- Settles O55: an offset ends before the next code's base, and what is left are closed facts about the tables. -/
theorem extraBitsAreValueMinusBaseAndFit : Obligations.ExtraBitsAreValueMinusBaseAndFit := by
  refine ⟨fun _ _ => lenOffset_spec, fun _ _ => distOffset_spec, ?_, ?_, ?_, ?_, ?_, ?_, ?_, ?_, ?_, lenBase_succ,
    distBase_succ, ?_⟩
  all_goals decide

end Sys2Proof.Machine

namespace Sys2Proof.Machine

/-! ### The longest match and its nearest start (R131, R132) -/

/-- With a lookahead of at most 258 bytes a start agrees for exactly the lengths up to its match length (R131). -/
theorem agrees_iff {w la : List Byte} (hla : la.length ≤ lCap) {start len : Nat} :
    agrees w la start len ↔ start < w.length ∧ len ≤ matchLength w la start := by
  obtain ⟨hle, -⟩ := matchLength_le w la start
  have hagree := matchExtend_agrees w la start la.length 0 fun j hj => absurd hj (Nat.not_lt_zero j)
  have hmax := matchExtend_maximal w la start la.length 0 (Nat.le_refl _)
  constructor
  · rintro ⟨hs, hlen, hj⟩
    refine ⟨hs, Nat.le_of_not_lt fun hlt => hmax ⟨?_, ?_, hj _ hlt⟩⟩
    · exact Nat.lt_of_lt_of_le hlt hlen
    · exact Nat.lt_of_lt_of_le hlt (Nat.le_trans hlen hla)
  · rintro ⟨hs, hlen⟩
    exact ⟨hs, Nat.le_trans hlen hle, fun j hj => hagree j (Nat.lt_of_lt_of_le hj hlen)⟩

/-- The scan's answer is no shorter than any match it passed, and it is the best it began with or a longer match, the nearest
of that length (R131, R132). -/
theorem matchScan_spec (w la : List Byte) (k : Nat) (best : Best) (hbest : best.len ≤ la.length) :
    (∀ start < k, matchLength w la start ≤ (matchScan w la k best).len) ∧
    (matchScan w la k best = best ∨ ∃ start < k, matchScan w la k best = ⟨matchLength w la start, w.length - start⟩ ∧
      best.len < matchLength w la start ∧
      ∀ nearer < k, start < nearer → matchLength w la nearer < matchLength w la start) := by
  induction k generalizing best with
  | zero => exact ⟨fun start h => absurd h (Nat.not_lt_zero start), .inl rfl⟩
  | succ k ih =>
    obtain ⟨hk, -⟩ := matchLength_le w la k
    have hlen := best.turn_len w la k
    have hturn : best.turn w la k = best ∨ ∃ start < k + 1, best.turn w la k = ⟨matchLength w la start, w.length - start⟩ ∧
        best.len < matchLength w la start ∧
        ∀ nearer < k + 1, start < nearer → matchLength w la nearer < matchLength w la start := by
      unfold Best.turn
      split
      · rename_i h; exact .inr ⟨k, Nat.lt_succ_self k, rfl, h, by omega⟩
      · exact .inl rfl
    rw [matchScan_succ]
    split
    · rename_i hfull
      exact ⟨fun start _ => hfull ▸ (matchLength_le w la start).1, hturn⟩
    · obtain ⟨hall, hfrom⟩ := ih (best.turn w la k) (by omega)
      have hle := matchScan_le w la k (best.turn w la k)
      refine ⟨fun start hstart => ?_, ?_⟩
      · rcases Nat.lt_succ_iff_lt_or_eq.mp hstart with h | rfl
        · exact hall start h
        · omega
      · rcases hfrom with h | ⟨start, hs, h, hlonger, hnear⟩
        · rwa [h]
        · refine .inr ⟨start, Nat.lt_succ_of_lt hs, h, by omega, fun nearer hn hsn => ?_⟩
          rcases Nat.lt_succ_iff_lt_or_eq.mp hn with h | rfl
          · exact hnear nearer h hsn
          · omega

/-- `MATCH_FIND`'s answer by its best match (R131). -/
theorem matchFind_of_scan {w la : List Byte} {best : Best} (h : matchScan w la w.length ⟨0, 0⟩ = best) :
    matchFind w la = if best.len < minMatch then (.lit ((la.headD 0).setWidth 16), 1)
      else (.ptr (BitVec.ofNat 16 best.dist) (BitVec.ofNat 16 best.len), best.len) := by
  rw [matchFind, h]

/-- Settles O42: the scan keeps a match only for a strictly longer one, and goes from the nearest start to the farthest. -/
theorem matchFindTakesTheNearestLongestMatch : Obligations.MatchFindTakesTheNearestLongestMatch := by
  intro w la _ _ hla
  obtain ⟨hall, hfrom⟩ := matchScan_spec w la w.length ⟨0, 0⟩ (Nat.zero_le _)
  generalize hbest : matchScan w la w.length ⟨0, 0⟩ = best at hall hfrom
  rw [matchFind_of_scan hbest]
  refine ⟨fun hnone => ?_, fun d l hl hd hdw hagree hlongest hnearest => ?_⟩
  · have hshort : best.len < minMatch := by
      rcases hfrom with rfl | ⟨start, hs, rfl, -, -⟩
      · decide
      · exact Nat.lt_of_not_le fun h => hnone start ((agrees_iff hla).mpr ⟨hs, h⟩)
    rw [if_pos hshort]
  · obtain ⟨hs, hlen⟩ := (agrees_iff hla).mp hagree
    have hreach := hall _ hs
    have hbestAt : best = ⟨l, d⟩ := by
      rcases hfrom with rfl | ⟨start, hstart, rfl, -, hnear⟩
      · exact absurd (Nat.le_trans hlen hreach) (by simp only; omega)
      · have hmax := hlongest start _ ((agrees_iff hla).mpr ⟨hstart, Nat.le_refl _⟩)
        have hml : matchLength w la start = l := Nat.le_antisymm hmax (Nat.le_trans hlen hreach)
        have hnot_farther : ¬ start < w.length - d := fun h => by
          have := hnear _ hs h
          omega
        have hnot_nearer : ¬ w.length - d < start := fun h => by
          refine hnearest (w.length - start) (by omega) (by omega) ((agrees_iff hla).mpr ⟨by omega, ?_⟩)
          rw [show w.length - (w.length - start) = start by omega]
          exact Nat.le_of_eq hml.symm
        rw [hml, show w.length - start = d by omega]
    subst hbestAt
    exact if_neg (Nat.not_lt_of_le hl)

/-! ### The symbols of a chunk (R134 to R136) -/

/-- The symbols of the bytes still to do: each is the match of the next 258 of them, on the window left by those before it
(R134, R135). -/
def parse (w todo : List Byte) : List Symbol :=
  if _h : todo = [] then [] else
    (matchFind w (todo.take lCap)).1 ::
      parse (winAppend w (todo.take (matchFind w (todo.take lCap)).2)) (todo.drop (matchFind w (todo.take lCap)).2)
termination_by todo.length
decreasing_by
  have hpos := List.length_pos_iff.mpr _h
  have hcover := matchFind_covers w (todo.take lCap) (by simp only [List.length_take, lCap]; omega)
  rw [List.length_drop]
  omega

@[simp] theorem parse_nil (w : List Byte) : parse w [] = [] := by
  rw [parse, dif_pos rfl]

/-- The head of the lookahead is classified, and its symbol's bytes pass into the window (R134). -/
theorem parse_of_ne_nil {w todo : List Byte} (h : todo ≠ []) :
    parse w todo = (matchFind w (todo.take lCap)).1 ::
      parse (winAppend w (todo.take (matchFind w (todo.take lCap)).2)) (todo.drop (matchFind w (todo.take lCap)).2) := by
  rw [parse, dif_neg h]

/-- A symbol covers at least one of the bytes still to do, and no more than there are (R134). -/
theorem matchFind_covers_todo (w : List Byte) {todo : List Byte} (h : todo ≠ []) :
    1 ≤ (matchFind w (todo.take lCap)).2 ∧ (matchFind w (todo.take lCap)).2 ≤ todo.length := by
  have hpos := List.length_pos_iff.mpr h
  obtain ⟨h1, h2⟩ := matchFind_covers w (todo.take lCap) (by simp only [List.length_take, lCap]; omega)
  rw [List.length_take] at h2
  exact ⟨h1, by omega⟩

/-- A loop that ends at the chunk's end with an empty lookahead has nothing left to do (R136). -/
theorem todo_matchLoop {fuel : Nat} {m : Matcher} (hla : (matchLoop fuel m).la = [])
    (hcpos : (matchLoop fuel m).cpos = m.cb.length) : (matchLoop fuel m).todo = [] := by
  rw [Matcher.todo, hla, matchLoop_cb, hcpos, List.drop_length]
  rfl

/-- What the loop has still to add is the same after every step, so its symbols are those of the bytes to do (R136). -/
theorem matchLoop_parse (fuel : Nat) (m : Matcher) (hc : m.cpos ≤ m.cb.length) (hl : m.la.length ≤ lCap)
    (hf : m.todo.length ≤ fuel) : (matchLoop fuel m).sb = m.sb ++ parse m.w m.todo := by
  have hstep : ∀ m' : Matcher, m'.sb ++ parse m'.w m'.todo = m.sb ++ parse m.w m.todo → m'.cpos ≤ m'.cb.length →
      m'.la.length ≤ lCap → m'.todo ≠ [] →
      (matchStep m').sb ++ parse (matchStep m').w (matchStep m').todo = m.sb ++ parse m.w m.todo := by
    intro m' hsame hc hl ht
    obtain ⟨-, -, hsb, hw, htodo, -⟩ := matchStep_spec m' hc hl ht
    rw [hsb, hw, htodo, List.append_assoc, ← hsame, parse_of_ne_nil ht]
    rfl
  obtain ⟨hsame, hla, hcpos⟩ := matchLoop_induct hstep fuel m rfl hc hl hf
  rwa [todo_matchLoop hla hcpos, parse_nil, List.append_nil] at hsame

/-- The window after the loop: the bytes to do have been appended to it (R136). -/
theorem matchLoop_window (fuel : Nat) (m : Matcher) (hc : m.cpos ≤ m.cb.length) (hl : m.la.length ≤ lCap)
    (hf : m.todo.length ≤ fuel) (hw : m.w.length ≤ wCap) : (matchLoop fuel m).w = winAppend m.w m.todo := by
  have hstep : ∀ m' : Matcher, m'.w.length ≤ wCap ∧ winAppend m'.w m'.todo = winAppend m.w m.todo →
      m'.cpos ≤ m'.cb.length → m'.la.length ≤ lCap → m'.todo ≠ [] →
      (matchStep m').w.length ≤ wCap ∧ winAppend (matchStep m').w (matchStep m').todo = winAppend m.w m.todo := by
    intro m' ⟨_, hsame⟩ hc hl ht
    obtain ⟨-, -, -, hw, htodo, -⟩ := matchStep_spec m' hc hl ht
    refine ⟨?_, ?_⟩
    · rw [hw, winAppend_length]
      exact Nat.min_le_right _ _
    · rw [hw, htodo, winAppend_append, List.take_append_drop, hsame]
  obtain ⟨⟨hle, hsame⟩, hla, hcpos⟩ := matchLoop_induct hstep fuel m ⟨hw, rfl⟩ hc hl hf
  rwa [todo_matchLoop hla hcpos, winAppend_eq_append (by simpa using hle), List.append_nil] at hsame

/-- What `MATCH_CHUNK` leaves of a chunk that it enters at its start (R136). -/
theorem matchChunk_spec {m : Matcher} (hla : m.la = []) (hcpos : m.cpos = 0) :
    (matchChunk m).la = [] ∧ (matchChunk m).cpos = m.cb.length ∧
    (matchChunk m).sb = m.sb ++ (parse m.w m.cb ++ [.lit 256]) ∧
    (m.w.length ≤ wCap → (matchChunk m).w = winAppend m.w m.cb) := by
  have htodo : m.todo = m.cb := by simp [Matcher.todo, hla, hcpos]
  have hfuel : m.todo.length ≤ m.la.length + (m.cb.length - m.cpos) := by simp [htodo, hla, hcpos]
  have hc : m.cpos ≤ m.cb.length := hcpos ▸ Nat.zero_le _
  have hl : m.la.length ≤ lCap := by simp [hla]
  obtain ⟨-, hla', hcpos'⟩ := matchLoop_induct (P := fun _ => True) (fun _ _ _ _ _ => trivial) _ m trivial hc hl hfuel
  have hsb := matchLoop_parse _ m hc hl hfuel
  have hw := matchLoop_window _ m hc hl hfuel
  rw [htodo] at hsb hw
  refine ⟨hla', hcpos', ?_, hw⟩
  show (matchLoop _ m).sb ++ [_] = _
  rw [hsb, List.append_assoc]
  rfl

/-- The symbols of a chunk are those of its bytes, then the end-of-block sentinel (R136). -/
theorem chunkSymbols_eq (w cb : List Byte) : chunkSymbols w cb = parse w cb ++ [.lit 256] := by
  obtain ⟨-, -, hsb, -⟩ := matchChunk_spec (m := { w := w, la := [], cb := cb, cpos := 0, sb := [] }) rfl rfl
  exact hsb

/-- Settles O60: a step takes the first 258 bytes to do as its lookahead, and the symbols of a chunk follow that recursion. -/
theorem eachSymbolIsTheMatchOfTheNext258Bytes : Obligations.EachSymbolIsTheMatchOfTheNext258Bytes := by
  refine ⟨fun m hl hc _ => ?_, fun w => ?_, fun w cb hcb => ?_⟩
  · have hla : (refill m).la = (m.la ++ m.cb.drop m.cpos).take 258 := refill_la m hl
    have hcpos : (refill m).cpos = m.cpos + (((m.la ++ m.cb.drop m.cpos).take 258).length - m.la.length) := by
      simp only [refill, Matcher.setCpos, List.length_take, List.length_append, List.length_drop, lCap]
      omega
    intro la r
    rw [matchStep, classify_eq, refill_w, refill_sb, refill_cb, hla, hcpos]
  · rw [chunkSymbols_eq, parse_nil]
    rfl
  · intro r
    rw [chunkSymbols_eq, chunkSymbols_eq, parse_of_ne_nil hcb]
    rfl

/-! ### Every symbol but the sentinel is a match or a literal byte (R102, R136) -/

/-- Each symbol of the bytes to do is legal and no sentinel, and covers at least one of them. -/
theorem parse_symbols (w todo : List Byte) (hw : w.length ≤ wCap) :
    (parse w todo).length ≤ todo.length ∧
    ∀ sym ∈ parse w todo, sym.legal = true ∧ sym ≠ .lit 256 ∧ sym ≠ .lit 286 := by
  induction w, todo using parse.induct with
  | case1 w => simp
  | case2 w todo h ih =>
    obtain ⟨hpos, hle⟩ := matchFind_covers_todo w h
    obtain ⟨hlen, hall⟩ := ih (by rw [winAppend_length]; exact Nat.min_le_right _ _)
    rw [parse_of_ne_nil h]
    refine ⟨?_, fun sym hsym => ?_⟩
    · rw [List.length_cons]
      rw [List.length_drop] at hlen
      omega
    · rcases List.mem_cons.mp hsym with rfl | hsym
      · refine ⟨matchFind_legal w _ hw, ?_⟩
        rcases matchFind_cases w (todo.take lCap) with e | ⟨d, l, -, -, -, -, -, -, e⟩ <;> rw [e]
        · have hbyte := ((todo.take lCap).headD 0).isLt
          have hne : ∀ n : Nat, 256 ≤ n → n < 2 ^ 16 →
              Symbol.lit (((todo.take lCap).headD 0).setWidth 16) ≠ .lit (BitVec.ofNat 16 n) := by
            intro n hn hn16 heq
            have := congrArg BitVec.toNat (Symbol.lit.inj heq)
            rw [BitVec.toNat_setWidth_of_le (by decide), BitVec.toNat_ofNat, Nat.mod_eq_of_lt hn16] at this
            omega
          exact ⟨hne 256 (by decide) (by decide), hne 286 (by decide) (by decide)⟩
        · exact ⟨Symbol.noConfusion, Symbol.noConfusion⟩
      · exact hall sym hsym

theorem lastBytes_eq_winAppend (w bs : List Byte) : lastBytes 32768 (w ++ bs) = winAppend w bs := rfl

/-- Settles O43: nothing is left to do, every byte has passed into the window, and the symbols are those of the bytes, then
the sentinel. -/
theorem matchChunkConsumesTheChunk : Obligations.MatchChunkConsumesTheChunk := by
  intro m hsb hla hcpos hw
  obtain ⟨hla', hcpos', hsb', hw'⟩ := matchChunk_spec hla hcpos
  obtain ⟨hlen, hall⟩ := parse_symbols m.w m.cb hw
  rw [hsb, List.nil_append] at hsb'
  refine ⟨hla', hcpos', matchChunk_cb m, hw' hw, ?_, _, hsb', hall⟩
  rw [hsb', List.length_append, List.length_singleton]
  exact Nat.succ_le_succ hlen

/-! ### Replaying the symbols (R137, R139) -/

/-- The window continued by the lookahead is one sequence (R137). -/
theorem srcByte_eq (w la : List Byte) (i : Nat) : srcByte w la i = (w ++ la).getD i 0 := by
  unfold srcByte winRead
  split
  · rename_i h
    exact (getD_append_of_lt h la 0).symm
  · rename_i h
    exact (getD_append_of_ge (Nat.le_of_not_lt h) la 0).symm

/-- A copy from `d` back reproduces bytes each of which stands `d` behind its like (R139). -/
theorem copyBack_eq_append {d : Nat} (hd : 1 ≤ d) (ext : List Byte) {out : List Byte} (hout : d ≤ out.length)
    (h : ∀ j < ext.length, ext.getD j 0 = (out ++ ext).getD (out.length + j - d) 0) :
    copyBack d ext.length out = out ++ ext := by
  induction ext generalizing out with
  | nil => simp [copyBack]
  | cons e es ih =>
    have hbyte : out.getD (out.length - d) 0 = e := by
      have h0 := h 0 (Nat.zero_lt_succ _)
      rw [Nat.add_zero, getD_append_of_lt (by omega)] at h0
      exact h0.symm
    have hlonger : out.length ≤ (out ++ [e]).length := by simp
    rw [List.length_cons, copyBack, hbyte, ih (Nat.le_trans hout hlonger) fun j hj => ?_, List.append_assoc]
    · rfl
    · have hj' := h (j + 1) (Nat.succ_lt_succ hj)
      rw [List.getD_cons_succ] at hj'
      rw [hj', List.append_assoc, List.length_append, List.length_singleton, Nat.add_assoc, Nat.add_comm 1 j]
      rfl

theorem getD_take {l : List Byte} {n i : Nat} (h : i < n) : (l.take n).getD i 0 = l.getD i 0 := by
  rw [List.getD_eq_getElem?_getD, List.getD_eq_getElem?_getD, List.getElem?_take, if_pos h]

/-- What a match on a window says of the whole output behind that window: the matched bytes stand `d` behind themselves
(R131, R137). -/
theorem matchLength_copies {out la : List Byte} {d l : Nat} (hd : 1 ≤ d) (hdw : d ≤ (winAppend [] out).length)
    (hl : l = matchLength (winAppend [] out) la ((winAppend [] out).length - d)) :
    d ≤ out.length ∧ ∀ j < l, (la.take l).getD j 0 = (out ++ la.take l).getD (out.length + j - d) 0 := by
  have hagree := matchExtend_agrees (winAppend [] out) la ((winAppend [] out).length - d) la.length 0
    fun j hj => absurd hj (Nat.not_lt_zero j)
  rw [← matchLength, ← hl] at hagree
  obtain ⟨evicted, hout⟩ : winAppend [] out <:+ out := List.drop_suffix _ _
  have hlen : evicted.length + (winAppend [] out).length = out.length := by rw [← List.length_append, hout]
  refine ⟨by omega, fun j hj => ?_⟩
  have hsame := List.take_length_add_append (l₁ := out) (l₂ := la) l
  calc (la.take l).getD j 0
      = la.getD j 0 := getD_take hj
    _ = srcByte (winAppend [] out) la ((winAppend [] out).length - d + j) := (hagree j hj).symm
    _ = (evicted ++ (winAppend [] out ++ la)).getD (evicted.length + ((winAppend [] out).length - d + j)) 0 := by
        rw [srcByte_eq, getD_append_of_ge (Nat.le_add_right _ _), Nat.add_sub_cancel_left]
    _ = (out ++ la).getD (out.length + j - d) 0 := by
        rw [← List.append_assoc, hout, show evicted.length + ((winAppend [] out).length - d + j) = out.length + j - d by omega]
    _ = (out ++ la.take l).getD (out.length + j - d) 0 := by
        rw [← hsame, getD_take (by omega)]

/-- Everything `MATCH_FIND` can answer on the window behind an output, in the bytes to do: their first, as a literal, or a
pointer whose bytes stand `d` behind themselves (R131, R137). -/
theorem matchFind_output (out : List Byte) {todo : List Byte} (h : todo ≠ []) :
    (∃ b rest, todo = b :: rest ∧ matchFind (winAppend [] out) (todo.take lCap) = (.lit (b.setWidth 16), 1)) ∨
    ∃ d l, 1 ≤ d ∧ d ≤ out.length ∧ d < 2 ^ 16 ∧ 3 ≤ l ∧ l ≤ todo.length ∧ l < 2 ^ 16 ∧
      (∀ j < l, (todo.take l).getD j 0 = (out ++ todo.take l).getD (out.length + j - d) 0) ∧
      matchFind (winAppend [] out) (todo.take lCap) = (.ptr (BitVec.ofNat 16 d) (BitVec.ofNat 16 l), l) := by
  have hwin : (winAppend [] out).length ≤ 32768 := by
    rw [winAppend_length]
    exact Nat.min_le_right _ _
  rcases matchFind_cases (winAppend [] out) (todo.take lCap) with e | ⟨d, l, hd, hdw, hl3, hlla, hl258, hml, e⟩
  · obtain ⟨b, rest, rfl⟩ := List.exists_cons_of_ne_nil h
    exact .inl ⟨b, rest, rfl, e⟩
  · obtain ⟨hdout, hcopy⟩ := matchLength_copies hd hdw hml
    rw [List.length_take] at hlla
    rw [List.take_take, Nat.min_eq_left (show l ≤ lCap from hl258)] at hcopy
    exact .inr ⟨d, l, hd, hdout, by omega, hl3, by omega, by omega, hcopy, e⟩

/-- A symbol of the bytes to do, replayed on the output behind the window, appends the bytes it covers (R139). -/
theorem replay_matchFind (out : List Byte) {todo : List Byte} (h : todo ≠ []) :
    (∀ syms, replay out ((matchFind (winAppend [] out) (todo.take lCap)).1 :: syms) =
        replay (out ++ todo.take (matchFind (winAppend [] out) (todo.take lCap)).2) syms) ∧
      (matchFind (winAppend [] out) (todo.take lCap)).1.covers = (matchFind (winAppend [] out) (todo.take lCap)).2 := by
  rcases matchFind_output out h with ⟨b, rest, rfl, e⟩ | ⟨d, l, hd, hdout, hd16, hl3, hl, hl16, hcopy, e⟩ <;> rw [e]
  · have hbyte : (b.setWidth 16).toNat < 256 := by
      rw [BitVec.toNat_setWidth_of_le (by decide)]
      exact b.isLt
    refine ⟨fun syms => ?_, if_pos hbyte⟩
    simp only [replay, if_pos hbyte]
    rw [BitVec.setWidth_setWidth_of_le b (by decide), BitVec.setWidth_eq]
    rfl
  · have hdn : (BitVec.ofNat 16 d).toNat = d := by rw [BitVec.toNat_ofNat, Nat.mod_eq_of_lt hd16]
    have hln : (BitVec.ofNat 16 l).toNat = l := by rw [BitVec.toNat_ofNat, Nat.mod_eq_of_lt hl16]
    have hlen : (todo.take l).length = l := List.length_take_of_le hl
    have hcopied := copyBack_eq_append hd (todo.take l) hdout (by rwa [hlen])
    rw [hlen] at hcopied
    exact ⟨fun syms => by simp only [replay, hdn, hln, hcopied], hln⟩

/-- The symbols of the bytes to do, replayed, append those bytes, and they cover each of them once (R139). -/
theorem replay_parse (out todo : List Byte) :
    (∀ rest, replay out (parse (winAppend [] out) todo ++ rest) = replay (out ++ todo) rest) ∧
      ((parse (winAppend [] out) todo).map Symbol.covers).sum = todo.length := by
  generalize hw : winAppend [] out = w
  induction w, todo using parse.induct generalizing out with
  | case1 w => simp
  | case2 w todo h ih =>
    subst hw
    obtain ⟨hreplay, hcovers⟩ := replay_matchFind out h
    obtain ⟨-, hle⟩ := matchFind_covers_todo (winAppend [] out) h
    rw [parse_of_ne_nil h]
    generalize matchFind (winAppend [] out) (todo.take lCap) = r at *
    obtain ⟨hrest, hsum⟩ := ih (out ++ todo.take r.2) (winAppend_append _ _ _).symm
    refine ⟨fun rest => ?_, ?_⟩
    · rw [List.cons_append, hreplay, hrest, List.append_assoc, List.take_append_drop]
    · rw [List.map_cons, List.sum_cons, hcovers, hsum, List.length_drop]
      omega

/-- A window within the capacity is the window behind itself. -/
theorem winAppend_nil {w : List Byte} (hw : w.length ≤ wCap) : winAppend [] w = w := by
  rw [winAppend_eq_append (by simpa using hw), List.nil_append]

/-- Settles O44: every symbol replays to the bytes it covers, and the sentinel to none. -/
theorem symbolsRebuildTheChunk : Obligations.SymbolsRebuildTheChunk := by
  intro w cb hw
  obtain ⟨hreplay, hsum⟩ := replay_parse w cb
  rw [winAppend_nil hw] at hreplay hsum
  rw [chunkSymbols_eq, hreplay, List.map_append, List.sum_append, hsum]
  exact ⟨rfl, rfl⟩

/-! ### A chunk without repeats (R139) -/

/-- Where no three bytes of the chunk occur twice, the bytes to do become literals (R139). -/
theorem parse_of_no_repeat (out todo : List Byte)
    (hrep : ∀ i j, i < j → j + 3 ≤ (out ++ todo).length → ((out ++ todo).drop i).take 3 ≠ ((out ++ todo).drop j).take 3) :
    parse (winAppend [] out) todo = todo.map fun b => .lit (b.setWidth 16) := by
  induction todo generalizing out with
  | nil => simp
  | cons b rest ih =>
    have h : b :: rest ≠ [] := List.cons_ne_nil _ _
    rcases matchFind_output out h with ⟨b', rest', heq, e⟩ | ⟨d, l, hd, hdout, -, hl3, hl, -, hcopy, -⟩
    · cases heq
      rw [parse_of_ne_nil h, e, winAppend_append]
      show _ :: parse (winAppend [] (out ++ [b])) rest = _
      rw [ih (out ++ [b]) (by rwa [List.append_assoc])]
      rfl
    · refine absurd ?_ (hrep (out.length - d) out.length (by omega) (by rw [List.length_append]; omega))
      generalize b :: rest = todo at *
      have hsame := List.take_length_add_append (l₁ := out) (l₂ := todo) l
      have hlong : out.length - d + 3 ≤ (out ++ todo).length := by rw [List.length_append]; omega
      rw [List.drop_left]
      apply List.ext_getElem
      · rw [List.length_take, List.length_take, List.length_drop]
        omega
      · intro k hk hk'
        rw [List.length_take] at hk'
        have hcopied := hcopy k (by omega)
        rw [← hsame, getD_take (by omega), getD_take (by omega)] at hcopied
        rw [List.getElem_take, List.getElem_take, List.getElem_drop, ← getD_of_lt _ 0, ← getD_of_lt _ 0,
          hcopied, show out.length - d + k = out.length + k - d by omega]

/-- Settles O45: on an empty window a pointer would show three bytes of the chunk occurring twice. -/
theorem noRepeatGivesLiteralsOnly : Obligations.NoRepeatGivesLiteralsOnly := by
  intro cb hrep
  rw [chunkSymbols_eq]
  exact congrArg (· ++ _) (parse_of_no_repeat [] cb hrep)

end Sys2Proof.Machine

namespace Sys2Proof.Machine

/-! ### The order of the queue (R162, R163) -/

/-- The queue order is the order of weight, then of `seq`. -/
theorem before_iff {a b : Node} : a.before b = true ↔
    a.weight.toNat < b.weight.toNat ∨ (a.weight.toNat = b.weight.toNat ∧ a.seq < b.seq) := by
  have hweight : a.weight = b.weight ↔ a.weight.toNat = b.weight.toNat := BitVec.toNat_inj.symm
  rw [Node.before, decide_eq_true_iff, hweight]

theorem before_trans {a b c : Node} (hab : a.before b = true) (hbc : b.before c = true) : a.before c = true := by
  rw [before_iff] at *
  omega

theorem not_before_self (a : Node) : ¬ a.before a = true := by
  rw [before_iff]
  omega

/-- The key with the smaller `seq` comes first unless its weight is larger. -/
theorem before_of_not_before {a b : Node} (hseq : b.seq < a.seq) (h : ¬ a.before b = true) : b.before a = true := by
  rw [before_iff] at *
  omega

/-- An insertion into a queue in order keeps a relation of the earlier to the later, if the new index has it to those
behind its place and those before its place have it to the new index (R162). -/
theorem queueInsert_pairwise {node : List Node} {i : Nat} {R : Nat → Nat → Prop} {q : List Nat}
    (hq : q.Pairwise fun m n => (nodeAt node m).before (nodeAt node n) = true ∧ R m n)
    (hbehind : ∀ m ∈ q, (nodeAt node i).before (nodeAt node m) = true → R i m)
    (hahead : ∀ m ∈ q, ¬ (nodeAt node i).before (nodeAt node m) = true → R m i) : (queueInsert node i q).Pairwise R := by
  induction q with
  | nil => exact List.pairwise_singleton _ _
  | cons j js ih =>
    obtain ⟨hj, hjs⟩ := List.pairwise_cons.mp hq
    unfold queueInsert
    split
    · rename_i hb
      refine List.pairwise_cons.mpr ⟨fun m hm => hbehind m hm ?_, hq.imp And.right⟩
      rcases List.mem_cons.mp hm with rfl | hm
      · exact hb
      · exact before_trans hb (hj m hm).1
    · rename_i hb
      refine List.pairwise_cons.mpr ⟨fun m hm => ?_, ih hjs (fun m hm => hbehind m (List.mem_cons_of_mem j hm))
        fun m hm => hahead m (List.mem_cons_of_mem j hm)⟩
      rcases (mem_queueInsert node i m js).mp hm with rfl | hm
      · exact hahead j List.mem_cons_self hb
      · exact (hj m hm).2

/-! ### Records below a record -/

/-- The record at index `m` stands `d` levels below the one at index `q`. -/
def Below (node : List Node) : Nat → Nat → Nat → Prop
  | 0, q, m => m = q
  | d + 1, q, m => ∃ c s, Splits node q c s ∧ Below node d c m

theorem below_add {node : List Node} (d e q m : Nat) :
    Below node (d + e) q m ↔ ∃ x, Below node d q x ∧ Below node e x m := by
  induction d generalizing q with
  | zero => simp [Below]
  | succ d ih =>
    rw [Nat.add_right_comm]
    simp only [Below, ih]
    constructor
    · rintro ⟨c, s, hq, x, hx, hm⟩
      exact ⟨x, ⟨c, s, hq, hx⟩, hm⟩
    · rintro ⟨x, ⟨c, s, hq, hx⟩, hm⟩
      exact ⟨c, s, hq, x, hx, hm⟩

/-- The last level below: the parent of a record stands one level higher. -/
theorem below_succ {node : List Node} (d q m : Nat) :
    Below node (d + 1) q m ↔ ∃ x s, Below node d q x ∧ Splits node x m s := by
  rw [below_add]
  constructor
  · rintro ⟨x, hx, c, s, hs, rfl⟩
    exact ⟨x, s, hx, hs⟩
  · rintro ⟨x, s, hx, hs⟩
    exact ⟨x, hx, m, s, hs, rfl⟩

/-- Each level goes down in the arena, so the depth is bounded by the index. -/
theorem MergeForest.below_le {node : List Node} (hf : MergeForest node) {d q m : Nat} (h : Below node d q m) : m + d ≤ q := by
  induction d generalizing q with
  | zero => exact Nat.le_of_eq h
  | succ d ih =>
    obtain ⟨c, s, hq, hm⟩ := h
    have := hf.child_lt _ _ _ hq
    have := ih hm
    omega

/-- A record weighs no more than one above it. -/
theorem MergeForest.below_weight_le {node : List Node} (hf : MergeForest node) {d q m : Nat} (h : Below node d q m) :
    weightAt node m ≤ weightAt node q := by
  induction d generalizing q with
  | zero => exact Nat.le_of_eq (congrArg _ h)
  | succ d ih =>
    obtain ⟨c, s, hq, hm⟩ := h
    have := hf.weight_eq _ _ _ hq
    have := ih hm
    omega

/-- What stands below a record of the arena is the same after an addition. -/
theorem MergeForest.below_append {node : List Node} (hf : MergeForest node) {n : Node} {d q m : Nat}
    (hq : q < node.length) : Below (node ++ [n]) d q m ↔ Below node d q m := by
  induction d generalizing q with
  | zero => exact Iff.rfl
  | succ d ih =>
    constructor
    · rintro ⟨c, s, hs, hm⟩
      have hs := (splits_append.mp hs).resolve_right fun h => Nat.ne_of_lt hq h.1
      exact ⟨c, s, hs, (ih (hf.child_lt_length hs)).mp hm⟩
    · rintro ⟨c, s, hs, hm⟩
      exact ⟨c, s, splits_append.mpr (.inl hs), (ih (hf.child_lt_length hs)).mpr hm⟩

/-- Branch decisions lead to a record that stands as many levels below. -/
theorem below_of_descend {node : List Node} {ds : List Bool} {q : Nat} {n : Node} (h : descend node ds q = some n) :
    ∃ m, Below node ds.length q m ∧ node[m]? = some n := by
  induction ds generalizing q with
  | nil => exact ⟨q, rfl, h⟩
  | cons b bs ih =>
    obtain ⟨c, s, hq, hc⟩ := splits_of_descend_cons h
    obtain ⟨m, hm, hn⟩ := ih hc
    exact ⟨m, ⟨c, s, hq, hm⟩, hn⟩

/-- A record below another is reached by as many branch decisions. -/
theorem descend_of_below {node : List Node} {d q m : Nat} (h : Below node d q m) :
    ∃ ds : List Bool, ds.length = d ∧ descend node ds q = node[m]? := by
  induction d generalizing q with
  | zero => exact ⟨[], rfl, by rw [h]; rfl⟩
  | succ d ih =>
    obtain ⟨c, s, ⟨n, hn, w, seq, hjoin⟩, hm⟩ := h
    obtain ⟨ds, hlen, hds⟩ := ih hm
    rcases hjoin with rfl | rfl
    · exact ⟨false :: ds, by rw [List.length_cons, hlen], by simpa [descend, hn] using hds⟩
    · exact ⟨true :: ds, by rw [List.length_cons, hlen], by simpa [descend, hn] using hds⟩

/-! ### The records still queued (R161) -/

/-- A record is queued when no earlier merge took it. -/
theorem queuedAt_iff {node : List Node} {n m : Nat} :
    queuedAt node n m ↔ m < n ∧ ∀ x < n, ∀ s, ¬ Splits node x m s := by
  refine and_congr_right fun _ => ⟨fun h x hx s hs => ?_, fun h x l r w seq hx hn => ⟨?_, ?_⟩⟩
  · obtain ⟨n', hn', w, seq, rfl | rfl⟩ := hs
    · exact (h x _ _ _ _ hx hn').1 rfl
    · exact (h x _ _ _ _ hx hn').2 rfl
  · rintro rfl
    exact h x hx r ⟨_, hn, w, seq, .inl rfl⟩
  · rintro rfl
    exact h x hx l ⟨_, hn, w, seq, .inr rfl⟩

/-- An addition changes nothing of what was queued before. -/
theorem queuedAt_append {node : List Node} {n : Node} {k m : Nat} (hk : k ≤ node.length) :
    queuedAt (node ++ [n]) k m ↔ queuedAt node k m := by
  rw [queuedAt_iff, queuedAt_iff]
  refine and_congr_right fun _ => forall_congr' fun x => imp_congr_right fun hx => forall_congr' fun s => not_congr ?_
  rw [splits_append]
  exact or_iff_left fun h => by omega

/-- After an addition the new record is queued, and of the others those it does not join. -/
theorem queuedAt_append_length {node : List Node} {n : Node} {m : Nat} (hf : MergeForest node)
    (hjoined : ∀ c s, n.Joins c s → c < node.length) :
    queuedAt (node ++ [n]) (node.length + 1) m ↔
      m = node.length ∨ (queuedAt node node.length m ∧ ∀ s, ¬ n.Joins m s) := by
  rw [queuedAt_iff, queuedAt_iff]
  constructor
  · rintro ⟨hm, hnone⟩
    rcases Nat.lt_succ_iff_lt_or_eq.mp hm with hm | rfl
    · exact .inr ⟨⟨hm, fun x hx s hs => hnone x (Nat.lt_succ_of_lt hx) s (splits_append.mpr (.inl hs))⟩,
        fun s hs => hnone _ (Nat.lt_succ_self _) s (splits_append.mpr (.inr ⟨rfl, hs⟩))⟩
    · exact .inl rfl
  · rintro (rfl | ⟨⟨hm, hnone⟩, hfree⟩)
    · refine ⟨Nat.lt_succ_self _, fun x _ s hs => ?_⟩
      rcases splits_append.mp hs with hs | ⟨-, hs⟩
      · exact Nat.lt_irrefl _ (hf.child_lt_length hs)
      · exact Nat.lt_irrefl _ (hjoined _ _ hs)
    · refine ⟨Nat.lt_succ_of_lt hm, fun x _ s hs => ?_⟩
      rcases splits_append.mp hs with hs | ⟨-, hs⟩
      · exact hnone x hs.lt_length s hs
      · exact hfree s hs

end Sys2Proof.Machine

namespace Sys2Proof.Machine

/-! ### The leaves of a build (R161, R163) -/

/-- The leaves of the ids from `sym` on. -/
def leavesFrom (sym : Nat) (fs : List (BitVec 32)) : List Node :=
  ((List.range fs.length).filter (fun id => decide (fs.getD id 0 ≠ 0))).map
    fun id => .leaf (sym + id) ((fs.getD id 0).setWidth 33) (sym + id)

theorem leavesFrom_zero (freqs : List (BitVec 32)) : leavesFrom 0 freqs = leavesOf freqs := by
  simp only [leavesFrom, leavesOf, Nat.zero_add]

theorem leavesFrom_cons (sym : Nat) (f : BitVec 32) (fs : List (BitVec 32)) :
    leavesFrom sym (f :: fs) = (if f ≠ 0 then [.leaf sym (f.setWidth 33) sym] else []) ++ leavesFrom (sym + 1) fs := by
  have htail : ((List.range fs.length).map Nat.succ).filter (fun id => decide ((f :: fs).getD id 0 ≠ 0)) =
      ((List.range fs.length).filter (fun id => decide (fs.getD id 0 ≠ 0))).map Nat.succ := by
    rw [List.filter_map]
    rfl
  have hshift : ∀ id, sym + 1 + id = sym + (id + 1) := fun id => by omega
  unfold leavesFrom
  rw [List.length_cons, List.range_succ_eq_map, List.filter_cons, htail]
  by_cases hf : f = 0
  · rw [if_neg (by simpa using hf), if_neg (Classical.not_not.mpr hf), List.map_map]
    simp [hshift]
  · rw [if_pos (by simpa using hf), if_pos hf, List.map_cons, List.map_map]
    simp [hshift]

/-- The first records of a build are the leaves of its table (R161). -/
theorem addLeaves_node (fs : List (BitVec 32)) (sym : Nat) (a : Arena) :
    (addLeaves fs sym a).node = a.node ++ leavesFrom sym fs := by
  induction fs generalizing sym a with
  | nil => simp [addLeaves, leavesFrom]
  | cons f fs ih =>
    rw [addLeaves, ih, leavesFrom_cons]
    split <;> simp

theorem leavesOf_length (freqs : List (BitVec 32)) : (leavesOf freqs).length = (freqs.filter (· ≠ 0)).length := by
  have hnode := congrArg List.length (addLeaves_node freqs 0 { node := [], pq := [] })
  rw [(addLeaves_sizes freqs 0 _).1, leavesFrom_zero] at hnode
  simpa using hnode.symm

/-- The leaves are one for each id of nonzero frequency. -/
theorem mem_leavesOf {freqs : List (BitVec 32)} {n : Node} :
    n ∈ leavesOf freqs ↔
      ∃ id < freqs.length, freqs.getD id 0 ≠ 0 ∧ n = .leaf id ((freqs.getD id 0).setWidth 33) id := by
  simp only [leavesOf, List.mem_map, List.mem_filter, List.mem_range, decide_eq_true_iff]
  constructor
  · rintro ⟨id, ⟨hlt, hne⟩, rfl⟩
    exact ⟨id, hlt, hne, rfl⟩
  · rintro ⟨id, hlt, hne, rfl⟩
    exact ⟨id, ⟨hlt, hne⟩, rfl⟩

/-- A build starts from the leaves of its table, or from one leaf for id 0 (R161, R165). -/
theorem leaves_node (freqs : List (BitVec 32)) :
    (leaves freqs).node = leavesOf freqs ∨ (leavesOf freqs = [] ∧ (leaves freqs).node = [.leaf 0 0 0]) := by
  have hnode : (addLeaves freqs 0 { node := [], pq := [] }).node = leavesOf freqs := by
    rw [addLeaves_node, leavesFrom_zero, List.nil_append]
  unfold leaves
  dsimp only
  split
  · rename_i hempty
    have hnone : leavesOf freqs = [] := by
      have hsizes := addLeaves_sizes freqs 0 { node := [], pq := [] }
      rw [hempty] at hsizes
      rw [← hnode, ← List.length_eq_zero_iff, hsizes.1]
      exact hsizes.2.symm
    exact .inr ⟨hnone, by rw [add_node, hnode, hnone]; rfl⟩
  · exact .inl hnode

/-! ### A table with at most one used id (R165, R168) -/

/-- A record among leaves is a leaf, the default of a read outside the arena included. -/
theorem exists_nodeAt_leaf {freqs : List (BitVec 32)} (i : Nat) :
    ∃ sym w seq, nodeAt (leaves freqs).node i = .leaf sym w seq := by
  have hall : ∀ n ∈ (leaves freqs).node, ∃ sym w seq, n = .leaf sym w seq := by
    intro n hn
    rcases leaves_node freqs with h | ⟨-, h⟩ <;> rw [h] at hn
    · obtain ⟨id, -, -, rfl⟩ := mem_leavesOf.mp hn
      exact ⟨_, _, _, rfl⟩
    · exact ⟨_, _, _, List.mem_singleton.mp hn⟩
  by_cases hi : i < (leaves freqs).node.length
  · rw [nodeAt, getD_of_lt hi]
    exact hall _ (List.getElem_mem hi)
  · rw [nodeAt, getD_of_ge (Nat.le_of_not_lt hi)]
    exact ⟨_, _, _, rfl⟩

/-- A queue of one record has nothing to merge (R161). -/
theorem mergeAll_of_length_le_one (alphabet fuel k : Nat) {a : Arena} (h : a.pq.length ≤ 1) :
    mergeAll alphabet fuel k a = a := by
  cases fuel with
  | zero => rfl
  | succ fuel =>
    unfold mergeAll
    split
    · rename_i e
      rw [e] at h
      simp at h
    · rfl

theorem set_replicate_self {α : Type} (n i : Nat) (a : α) : (List.replicate n a).set i a = List.replicate n a := by
  simp

/-- With at most one used id the walk records the empty path and nothing else (R168). -/
theorem codesOf_of_one_leaf {freqs : List (BitVec 32)} (h : (freqs.filter (· ≠ 0)).length ≤ 1) (alphabet : Nat) :
    codesOf freqs alphabet = List.replicate alphabet ⟨0, 0⟩ := by
  have hq : (leaves freqs).pq.length ≤ 1 := by
    have hsizes := (addLeaves_sizes freqs 0 { node := [], pq := [] }).2
    unfold leaves
    dsimp only
    split
    · rename_i hempty
      rw [add_pq_length, hempty]
      exact Nat.le_refl _
    · rw [hsizes]
      simpa using h
  unfold codesOf huffBuild huffWalk
  dsimp only
  rw [mergeAll_of_length_le_one _ _ _ hq]
  cases (leaves freqs).node.length with
  | zero => rfl
  | succ fuel =>
    obtain ⟨sym, w, seq, hleaf⟩ := exists_nodeAt_leaf (freqs := freqs) ((leaves freqs).pq.headD 0)
    unfold visit
    rw [hleaf]
    exact set_replicate_self _ _ _

/-- Settles O47: the tree is a single leaf, at depth 0. -/
theorem oneLeafTreesGiveNoCode : Obligations.OneLeafTreesGiveNoCode :=
  fun freqs _ h => codesOf_of_one_leaf h freqs.length

/-! ### What holds between two merges (R161 to R164) -/

/-- The keys and the queue between two additions: every `seq` is below the bound, the queue is in the order of R162, and it
holds the records no merge has taken. -/
structure Ranked (bound : Nat) (a : Arena) : Prop where
  seq_lt : ∀ i < a.node.length, (nodeAt a.node i).seq < bound
  ordered : a.pq.Pairwise fun m n => (nodeAt a.node m).before (nodeAt a.node n) = true
  queued_iff : ∀ m, m ∈ a.pq ↔ queuedAt a.node a.node.length m

theorem Ranked.mono {b c : Nat} {a : Arena} (h : Ranked b a) (hbc : b ≤ c) : Ranked c a :=
  ⟨fun i hi => Nat.lt_of_lt_of_le (h.seq_lt i hi) hbc, h.ordered, h.queued_iff⟩

/-- The addition of a record whose `seq` is the greatest so far, once the records it joins have left the queue. -/
theorem Ranked.add {bound : Nat} {node : List Node} {pq rest : List Nat} {n : Node}
    (h : Ranked bound { node := node, pq := pq }) (hf : MergeForest node)
    (hjoined : ∀ c s, n.Joins c s → c < node.length) (hseq : bound ≤ n.seq) (hsub : rest.Sublist pq)
    (hrest : ∀ m, m ∈ rest ↔ m ∈ pq ∧ ∀ s, ¬ n.Joins m s) :
    Ranked (n.seq + 1) (({ node := node, pq := rest } : Arena).add n) := by
  have hlt : ∀ m ∈ rest, m < node.length := fun m hm => ((h.queued_iff m).mp (hsub.subset hm)).1
  have hkeep : ∀ m ∈ rest, nodeAt (node ++ [n]) m = nodeAt node m := fun m hm => nodeAt_append_of_lt (hlt m hm) n
  have hordered : rest.Pairwise fun m k => (nodeAt (node ++ [n]) m).before (nodeAt (node ++ [n]) k) = true :=
    (h.ordered.sublist hsub).imp_of_mem fun hm hk hb => by rwa [hkeep _ hm, hkeep _ hk]
  refine ⟨fun i hi => ?_, ?_, fun m => ?_⟩
  · rw [add_node, List.length_append, List.length_singleton] at hi
    rw [add_node]
    rcases Nat.lt_succ_iff_lt_or_eq.mp hi with hi | rfl
    · rw [nodeAt_append_of_lt hi]
      exact Nat.lt_succ_of_lt (Nat.lt_of_lt_of_le (h.seq_lt i hi) hseq)
    · rw [nodeAt_append_length]
      exact Nat.lt_succ_self _
  · refine queueInsert_pairwise (hordered.imp fun hb => ⟨hb, hb⟩) (fun m _ hb => hb) fun m hm hb => ?_
    refine before_of_not_before ?_ hb
    rw [add_node, nodeAt_append_length, hkeep m hm]
    exact Nat.lt_of_lt_of_le (h.seq_lt m (hlt m hm)) hseq
  · rw [add_node, List.length_append, List.length_singleton, queuedAt_append_length hf hjoined, ← h.queued_iff, ← hrest]
    exact mem_queueInsert _ _ _ _

/-- While every record is a leaf, the leaves of a table keep the keys and the queue in order. -/
theorem addLeaves_ranked (fs : List (BitVec 32)) {sym total : Nat} {a : Arena} (hb : Building total a)
    (hleaf : ∀ x c s, ¬ Splits a.node x c s) (hr : Ranked sym a) : Ranked (sym + fs.length) (addLeaves fs sym a) := by
  induction fs generalizing sym total a with
  | nil => exact hr
  | cons f fs ih =>
    have hnext : sym + (f :: fs).length = sym + 1 + fs.length := by rw [List.length_cons]; omega
    rw [addLeaves, hnext]
    by_cases hf : f = 0
    · rw [if_neg (Classical.not_not.mpr hf)]
      exact ih hb hleaf (hr.mono (Nat.le_succ sym))
    · rw [if_pos hf]
      have hnojoin := not_joins_leaf sym (f.setWidth 33) sym
      refine ih (hb.add (addable_leaf hleaf hf sym)) (fun x c s hx => ?_) ?_
      · rcases splits_append.mp hx with hx | ⟨-, hj⟩
        · exact hleaf x c s hx
        · exact hnojoin c s hj
      · exact hr.add hb.forest (fun c s hj => (hnojoin c s hj).elim) (Nat.le_refl _) (List.Sublist.refl _)
          fun m => ⟨fun hm => ⟨hm, fun s => hnojoin m s⟩, And.left⟩

/-- A record `d` levels below the one at index `q` has the weight `w`. -/
def LevelWeight (node : List Node) (d q w : Nat) : Prop := ∃ m, Below node d q m ∧ weightAt node m = w

theorem levelWeight_zero {node : List Node} {q w : Nat} : LevelWeight node 0 q w ↔ weightAt node q = w := by
  simp [LevelWeight, Below]

theorem levelWeight_succ {node : List Node} {d q w : Nat} :
    LevelWeight node (d + 1) q w ↔ ∃ c s, Splits node q c s ∧ LevelWeight node d c w := by
  simp only [LevelWeight, Below]
  constructor
  · rintro ⟨m, ⟨c, s, hs, hm⟩, hw⟩
    exact ⟨c, s, hs, m, hm, hw⟩
  · rintro ⟨c, s, hs, m, hm, hw⟩
    exact ⟨m, ⟨c, s, hs, hm⟩, hw⟩

/-- Below a record there is, a level higher, one that weighs no less. -/
theorem MergeForest.levelWeight_up {node : List Node} (hf : MergeForest node) {d q w : Nat}
    (h : LevelWeight node (d + 1) q w) : ∃ v, w ≤ v ∧ LevelWeight node d q v := by
  obtain ⟨m, hm, rfl⟩ := h
  obtain ⟨x, s, hx, hs⟩ := (below_succ d q m).mp hm
  exact ⟨weightAt node x, hf.below_weight_le (d := 1) ⟨m, s, hs, rfl⟩, x, hx, rfl⟩

/-- The levels below a record of the arena are the same after an addition. -/
theorem MergeForest.levelWeight_append {node : List Node} (hf : MergeForest node) {n : Node} {d q w : Nat}
    (hq : q < node.length) : LevelWeight (node ++ [n]) d q w ↔ LevelWeight node d q w := by
  refine exists_congr fun m => ?_
  rw [hf.below_append hq]
  refine and_congr_right fun hm => ?_
  rw [weightAt_append_of_lt (Nat.lt_of_le_of_lt (Nat.le_of_add_right_le (hf.below_le hm)) hq)]

/-- A level below an added record is the level above of those it joins. -/
theorem MergeForest.levelWeight_append_length {node : List Node} (hf : MergeForest node) {n : Node}
    (hjoined : ∀ c s, n.Joins c s → c < node.length) {d w : Nat} :
    LevelWeight (node ++ [n]) (d + 1) node.length w ↔ ∃ c s, n.Joins c s ∧ LevelWeight node d c w := by
  rw [levelWeight_succ]
  refine exists_congr fun c => exists_congr fun s => ?_
  rw [splits_append, or_iff_right fun hs => Nat.lt_irrefl _ hs.lt_length, and_iff_right rfl]
  exact and_congr_right fun hj => hf.levelWeight_append (hjoined c s hj)

/-- The levels of the trees in the queue: no record weighs more than one a level higher, in its own tree or another, and of
two trees the earlier one's records weigh no more than those of the later one on the same level. -/
structure Levelled (a : Arena) : Prop where
  next_le : ∀ q ∈ a.pq, ∀ q' ∈ a.pq, ∀ d x y, LevelWeight a.node d q x → LevelWeight a.node (d + 1) q' y → y ≤ x
  order_le : a.pq.Pairwise fun q q' => ∀ d x y, LevelWeight a.node d q x → LevelWeight a.node d q' y → x ≤ y

/-- Leaves in order have one level, in order. -/
theorem levelled_of_leaves {total : Nat} {a : Arena} (hb : Building total a) (hleaf : ∀ x c s, ¬ Splits a.node x c s) :
    Levelled a := by
  have hnone : ∀ d q w, ¬ LevelWeight a.node (d + 1) q w := fun d q w h => by
    obtain ⟨c, s, hs, -⟩ := levelWeight_succ.mp h
    exact hleaf q c s hs
  refine ⟨fun q _ q' _ d x y _ hy => (hnone d q' y hy).elim, hb.sorted.imp fun hle d x y hx hy => ?_⟩
  cases d with
  | zero => rwa [← levelWeight_zero.mp hx, ← levelWeight_zero.mp hy]
  | succ d => exact (hnone d _ x hx).elim

section Merge

variable {bound total i j seq : Nat} {node : List Node} {rest : List Nat} {w : BitVec 33}

/-- A record queued behind the merge of the two least is a leaf: an internal one would be as light as the merge and would
have been made before it. -/
theorem not_splits_of_behind (hb : Building total { node := node, pq := i :: j :: rest })
    (hr : Ranked bound { node := node, pq := i :: j :: rest }) (hw : w.toNat = weightAt node i + weightAt node j)
    (hseq : bound ≤ seq) {m : Nat} (hbehind : (Node.internal i j w seq).before (nodeAt node m) = true)
    (c s : Nat) : ¬ Splits node m c s := by
  intro hs
  have hc : weightAt node c ≤ weightAt node i := hb.child_le m c s hs i List.mem_cons_self
  have hs' : weightAt node s ≤ weightAt node i := hb.child_le m s c hs.symm i List.mem_cons_self
  have hij : weightAt node i ≤ weightAt node j := (List.pairwise_cons.mp hb.sorted).1 j List.mem_cons_self
  have hweight : weightAt node m = weightAt node c + weightAt node s := hb.forest.weight_eq m c s hs
  have hlt : (nodeAt node m).seq < bound := hr.seq_lt m hs.lt_length
  have hkey : w.toNat < weightAt node m ∨ (w.toNat = weightAt node m ∧ seq < (nodeAt node m).seq) := before_iff.mp hbehind
  omega

/-- The merge of the two least keeps each record at most as heavy as those a level higher. -/
theorem Levelled.merge_next_le (hl : Levelled { node := node, pq := i :: j :: rest })
    (hb : Building total { node := node, pq := i :: j :: rest }) (hw : w.toNat = weightAt node i + weightAt node j)
    {q q' : Nat} (hq : q = node.length ∨ q ∈ rest) (hq' : q' = node.length ∨ q' ∈ rest) {d x y : Nat}
    (hx : LevelWeight (node ++ [.internal i j w seq]) d q x)
    (hy : LevelWeight (node ++ [.internal i j w seq]) (d + 1) q' y) : y ≤ x := by
  have hf := hb.forest
  have hjoined := (hb.addable_merge (seq := seq) hw).joined_lt
  have hold : ∀ {m}, m ∈ rest → m ∈ i :: j :: rest := fun hm => List.mem_cons_of_mem _ (List.mem_cons_of_mem _ hm)
  have hpart : ∀ {c s}, (Node.internal i j w seq).Joins c s → c ∈ i :: j :: rest ∧ weightAt node c ≤ w.toNat ∧
      ∀ m ∈ rest, ∀ d x y, LevelWeight node d c x → LevelWeight node d m y → x ≤ y := by
    intro c s hj
    obtain ⟨hi, hrest⟩ := List.pairwise_cons.mp hl.order_le
    rcases joins_internal hj with ⟨rfl, -⟩ | ⟨rfl, -⟩
    · exact ⟨by simp, by omega, fun m hm => hi m (List.mem_cons_of_mem _ hm)⟩
    · exact ⟨by simp, by omega, fun m hm => (List.pairwise_cons.mp hrest).1 m hm⟩
  rcases hq' with rfl | hq'
  · obtain ⟨c', s', hj', hy⟩ := (hf.levelWeight_append_length hjoined).mp hy
    obtain ⟨hc', hlight, horder⟩ := hpart hj'
    rcases hq with rfl | hq
    · cases d with
      | zero =>
        rw [levelWeight_zero, weightAt_append_length] at hx
        rw [levelWeight_zero] at hy
        exact hx ▸ hy ▸ hlight
      | succ d =>
        obtain ⟨c, s, hj, hx⟩ := (hf.levelWeight_append_length hjoined).mp hx
        exact hl.next_le c (hpart hj).1 c' hc' d x y hx hy
    · exact horder q hq d y x hy ((hf.levelWeight_append (hb.queued_lt q (hold hq))).mp hx)
  · have hy := (hf.levelWeight_append (hb.queued_lt q' (hold hq'))).mp hy
    rcases hq with rfl | hq
    · cases d with
      | zero =>
        obtain ⟨c, s, hs, hc⟩ := levelWeight_succ.mp hy
        have hle : weightAt node c ≤ weightAt node i := hb.child_le q' c s hs i List.mem_cons_self
        rw [levelWeight_zero, weightAt_append_length] at hx
        rw [levelWeight_zero] at hc
        have hx : w.toNat = x := hx
        have hc : weightAt node c = y := hc
        omega
      | succ d =>
        obtain ⟨c, s, hj, hx⟩ := (hf.levelWeight_append_length hjoined).mp hx
        obtain ⟨v, hle, hv⟩ := hf.levelWeight_up hy
        exact Nat.le_trans hle (hl.next_le c (hpart hj).1 q' (hold hq') d x v hx hv)
    · exact hl.next_le q (hold hq) q' (hold hq') d x y ((hf.levelWeight_append (hb.queued_lt q (hold hq))).mp hx) hy

/-- The merge of the two least keeps the trees in the order of their levels: those behind it are single leaves. -/
theorem Levelled.merge (hl : Levelled { node := node, pq := i :: j :: rest })
    (hb : Building total { node := node, pq := i :: j :: rest })
    (hr : Ranked bound { node := node, pq := i :: j :: rest }) (hw : w.toNat = weightAt node i + weightAt node j)
    (hseq : bound ≤ seq) : Levelled (Arena.add { node := node, pq := rest } (.internal i j w seq)) := by
  have hf := hb.forest
  have hjoined := (hb.addable_merge (seq := seq) hw).joined_lt
  have hlt : ∀ m ∈ rest, m < node.length := fun m hm => hb.queued_lt m (by simp [hm])
  refine ⟨fun q hq q' hq' d x y hx hy => ?_, queueInsert_pairwise ?_ (fun m hm hbefore d x y hx hy => ?_)
    fun m hm hbefore d x y hx hy => ?_⟩
  · exact hl.merge_next_le hb hw ((mem_queueInsert _ _ _ _).mp hq) ((mem_queueInsert _ _ _ _).mp hq') hx hy
  · have hbefore : rest.Pairwise fun m n => (nodeAt node m).before (nodeAt node n) = true := hr.ordered.of_cons.of_cons
    have horder := hl.order_le.of_cons.of_cons
    refine (hbefore.and horder).imp_of_mem fun {m k} hm hk h => ⟨?_, fun d x y hx hy => ?_⟩
    · rw [nodeAt_append_of_lt (hlt m hm), nodeAt_append_of_lt (hlt k hk)]
      exact h.1
    · exact h.2 d x y ((hf.levelWeight_append (hlt m hm)).mp hx) ((hf.levelWeight_append (hlt k hk)).mp hy)
  · cases d with
    | zero =>
      rw [levelWeight_zero] at hx hy
      exact hx ▸ hy ▸ weightAt_le_of_before hbefore
    | succ d =>
      obtain ⟨c, s, hs, -⟩ := levelWeight_succ.mp ((hf.levelWeight_append (hlt m hm)).mp hy)
      rw [nodeAt_append_length, nodeAt_append_of_lt (hlt m hm)] at hbefore
      exact (not_splits_of_behind hb hr hw hseq hbefore c s hs).elim
  · cases d with
    | zero =>
      rw [levelWeight_zero] at hx hy
      exact hx ▸ hy ▸ weightAt_le_of_not_before hbefore
    | succ d =>
      obtain ⟨c, s, hj, hy⟩ := (hf.levelWeight_append_length hjoined).mp hy
      have hc : c ∈ i :: j :: rest := by rcases joins_internal hj with ⟨rfl, -⟩ | ⟨rfl, -⟩ <;> simp
      exact hl.next_le c hc m (by simp [hm]) d y x hy ((hf.levelWeight_append (hlt m hm)).mp hx)

end Merge

end Sys2Proof.Machine

namespace Sys2Proof.Machine

/-! ### What a build leaves (R161 to R164) -/

/-- The record at index `n` is a merge as R161 to R164 ask: of two queued records, the lesser on the left, that come before
every other queued one, and of their joint weight. -/
def MergedAt (node : List Node) (n seq : Nat) : Prop := ∃ l r weight,
  node[n]? = some (.internal l r weight seq) ∧
  weight.toNat = (nodeAt node l).weight.toNat + (nodeAt node r).weight.toNat ∧
  queuedAt node n l ∧ queuedAt node n r ∧ (nodeAt node l).before (nodeAt node r) = true ∧
  ∀ m, queuedAt node n m → m ≠ l → m ≠ r → (nodeAt node r).before (nodeAt node m) = true

/-- A merge stays one after an addition. -/
theorem MergedAt.append {node : List Node} {n seq : Nat} (h : MergedAt node n seq) (hn : n < node.length) (x : Node) :
    MergedAt (node ++ [x]) n seq := by
  obtain ⟨l, r, w, hrec, hw, hl, hr, hlr, hrest⟩ := h
  have hkeep : ∀ {m}, queuedAt node n m → nodeAt (node ++ [x]) m = nodeAt node m :=
    fun hm => nodeAt_append_of_lt (Nat.lt_trans (queuedAt_iff.mp hm).1 hn) x
  have hsame : ∀ {m}, queuedAt (node ++ [x]) n m ↔ queuedAt node n m := queuedAt_append (Nat.le_of_lt hn)
  refine ⟨l, r, w, by rwa [List.getElem?_append_left hn], ?_, hsame.mpr hl, hsame.mpr hr, ?_, fun m hm hml hmr => ?_⟩
  · rwa [hkeep hl, hkeep hr]
  · rwa [hkeep hl, hkeep hr]
  · rw [hkeep hr, hkeep (hsame.mp hm)]
    exact hrest m (hsame.mp hm) hml hmr

/-- The state of a build after `k` merges. -/
structure Merging (freqs : List (BitVec 32)) (k : Nat) (a : Arena) : Prop where
  building : Building (totalFreq freqs) a
  ranked : Ranked (freqs.length + k) a
  levelled : Levelled a
  leaves_prefix : leavesOf freqs <+: a.node
  length_eq : a.node.length = (leavesOf freqs).length + k
  merged : ∀ m < k, MergedAt a.node ((leavesOf freqs).length + m) (freqs.length + m)

/-- The merge of the two least of a build's queue is one as R161 to R164 ask. -/
theorem mergedAt_append {bound total i j seq : Nat} {node : List Node} {rest : List Nat} {w : BitVec 33}
    (hb : Building total { node := node, pq := i :: j :: rest }) (hr : Ranked bound { node := node, pq := i :: j :: rest })
    (hw : w.toNat = weightAt node i + weightAt node j) : MergedAt (node ++ [.internal i j w seq]) node.length seq := by
  have hkeep : ∀ {m}, m ∈ i :: j :: rest → nodeAt (node ++ [.internal i j w seq]) m = nodeAt node m :=
    fun hm => nodeAt_append_of_lt (hb.queued_lt _ hm) _
  have hqueued : ∀ {m}, queuedAt (node ++ [.internal i j w seq]) node.length m ↔ m ∈ i :: j :: rest :=
    fun {m} => (queuedAt_append (Nat.le_refl _)).trans (hr.queued_iff m).symm
  have hi : i ∈ i :: j :: rest := by simp
  have hj : j ∈ i :: j :: rest := by simp
  obtain ⟨hij, hordered⟩ := List.pairwise_cons.mp hr.ordered
  refine ⟨i, j, w, List.getElem?_concat_length, ?_, hqueued.mpr hi, hqueued.mpr hj, ?_, fun m hm hmi hmj => ?_⟩
  · rw [hkeep hi, hkeep hj]
    exact hw
  · rw [hkeep hi, hkeep hj]
    exact hij j List.mem_cons_self
  · have hmem := hqueued.mp hm
    rw [hkeep hj, hkeep hmem]
    simp only [List.mem_cons, hmi, hmj, false_or] at hmem
    exact (List.pairwise_cons.mp hordered).1 m hmem

/-- One merge (R161). -/
theorem Merging.merge {freqs : List (BitVec 32)} {k i j : Nat} {node : List Node} {rest : List Nat}
    (h : Merging freqs k { node := node, pq := i :: j :: rest }) (htotal : totalFreq freqs < 2 ^ 33) :
    Merging freqs (k + 1) (Arena.add { node := node, pq := rest }
      (.internal i j ((nodeAt node i).weight + (nodeAt node j).weight) (freqs.length + k))) := by
  have hsum : weightAt node i + (weightAt node j + (rest.map (weightAt node)).sum) = totalFreq freqs := h.building.sum_eq
  have hw : ((nodeAt node i).weight + (nodeAt node j).weight).toNat = weightAt node i + weightAt node j :=
    BitVec.toNat_add_of_lt (by unfold weightAt at hsum; omega)
  have hlength : node.length = (leavesOf freqs).length + k := h.length_eq
  have hnodup : (i :: j :: rest).Nodup := h.ranked.ordered.imp fun {m n} hb => by
    rintro rfl
    exact not_before_self _ hb
  have hrest : ∀ m, m ∈ rest ↔ m ∈ i :: j :: rest ∧ ∀ s,
      ¬ (Node.internal i j ((nodeAt node i).weight + (nodeAt node j).weight) (freqs.length + k)).Joins m s := by
    simp only [List.nodup_cons, List.mem_cons, not_or] at hnodup
    obtain ⟨⟨-, hi⟩, hj, -⟩ := hnodup
    refine fun m => ⟨fun hm => ⟨by simp [hm], fun s hs => ?_⟩, fun ⟨hm, hfree⟩ => ?_⟩
    · rcases joins_internal hs with ⟨rfl, -⟩ | ⟨rfl, -⟩
      · exact hi hm
      · exact hj hm
    · rcases List.mem_cons.mp hm with rfl | hm
      · exact (hfree j ⟨_, _, .inl rfl⟩).elim
      · rcases List.mem_cons.mp hm with rfl | hm
        · exact (hfree i ⟨_, _, .inr rfl⟩).elim
        · exact hm
  refine ⟨h.building.merge htotal _, ?_, h.levelled.merge h.building h.ranked hw (Nat.le_refl _),
    h.leaves_prefix.trans (List.prefix_append _ _), ?_, fun m hm => ?_⟩
  · exact h.ranked.add h.building.forest (h.building.addable_merge hw).joined_lt (Nat.le_refl _)
      ((List.sublist_cons_self _ _).trans (List.sublist_cons_self _ _)) hrest
  · rw [add_node, List.length_append, List.length_singleton, hlength, Nat.add_assoc]
  · rcases Nat.lt_succ_iff_lt_or_eq.mp hm with hm | rfl
    · exact (h.merged m hm).append (by show _ < node.length; omega) _
    · rw [← hlength]
      exact mergedAt_append h.building h.ranked hw

/-- The merges (R161). -/
theorem mergeAll_merging {freqs : List (BitVec 32)} (htotal : totalFreq freqs < 2 ^ 33) (fuel : Nat) {k : Nat} {a : Arena}
    (h : Merging freqs k a) : ∃ k', Merging freqs k' (mergeAll freqs.length fuel k a) := by
  induction fuel generalizing k a with
  | zero => exact ⟨k, h⟩
  | succ fuel ih =>
    obtain ⟨node, pq⟩ := a
    unfold mergeAll
    split
    · rename_i i j rest e
      cases e
      exact ih (h.merge htotal)
    · exact ⟨k, h⟩

/-- A table has a nonzero frequency when it has a nonzero slot to count. -/
theorem exists_used_iff {freqs : List (BitVec 32)} : (∃ f ∈ freqs, f ≠ 0) ↔ 1 ≤ (freqs.filter (· ≠ 0)).length := by
  rw [Nat.one_le_iff_ne_zero, ne_eq, List.length_eq_zero_iff, List.filter_eq_nil_iff]
  simp

/-- The arena a build starts from, before its leaves. -/
theorem building_nil : Building 0 { node := [], pq := [] } := by
  have hnone : ∀ x c s, ¬ Splits [] x c s := fun x c s hx => absurd hx.lt_length (Nat.not_lt_zero x)
  refine ⟨⟨fun i hi => absurd hi (Nat.not_lt_zero i), ?_, ?_, ?_⟩, by simp, .nil, rfl, ?_⟩
  · exact fun x c s hx => (hnone x c s hx).elim
  · exact fun x c s hx => (hnone x c s hx).elim
  · exact fun x c s _ _ hx => (hnone x c s hx).elim
  · exact fun x c s hx => (hnone x c s hx).elim

theorem ranked_nil : Ranked 0 { node := [], pq := [] } :=
  ⟨fun i hi => absurd hi (Nat.not_lt_zero i), .nil,
    fun m => ⟨fun hm => absurd hm List.not_mem_nil, fun hm => absurd hm.1 (Nat.not_lt_zero m)⟩⟩

/-- With a nonzero frequency a build starts from the leaves of its table alone (R161, R165). -/
theorem leaves_eq_addLeaves {freqs : List (BitVec 32)} (hne : ∃ f ∈ freqs, f ≠ 0) :
    leaves freqs = addLeaves freqs 0 { node := [], pq := [] } := by
  have hpos := exists_used_iff.mp hne
  refine if_neg fun hempty => ?_
  have hq := (addLeaves_sizes freqs 0 { node := [], pq := [] }).2
  rw [hempty, List.length_nil] at hq
  omega

/-- A table with a nonzero frequency starts its build with its leaves (R161). -/
theorem leaves_merging {freqs : List (BitVec 32)} (hne : ∃ f ∈ freqs, f ≠ 0) : Merging freqs 0 (leaves freqs) := by
  have hnode : (leaves freqs).node = leavesOf freqs := by
    rw [leaves_eq_addLeaves hne, addLeaves_node, leavesFrom_zero, List.nil_append]
  have hleaf : ∀ x c s, ¬ Splits (leaves freqs).node x c s := by
    rintro x c s ⟨n, hn, hj⟩
    rw [hnode] at hn
    obtain ⟨id, -, -, rfl⟩ := mem_leavesOf.mp (List.mem_of_getElem? hn)
    exact not_joins_leaf _ _ _ c s hj
  have hb := leaves_building hne
  have hr : Ranked (0 + freqs.length) (leaves freqs) := by
    rw [leaves_eq_addLeaves hne]
    exact addLeaves_ranked freqs building_nil (fun x c s hx => absurd hx.lt_length (Nat.not_lt_zero x)) ranked_nil
  exact ⟨hb, hr.mono (by omega), levelled_of_leaves hb hleaf, hnode ▸ List.prefix_refl _, congrArg List.length hnode,
    fun m hm => absurd hm (Nat.not_lt_zero m)⟩

/-- A build ends with its root alone in the queue (R161). -/
theorem huffBuild_merging {freqs : List (BitVec 32)} (htotal : totalFreq freqs < 2 ^ 33) (hne : ∃ f ∈ freqs, f ≠ 0) :
    ∃ k, Merging freqs k
      { node := (huffBuild freqs freqs.length).node, pq := [(huffBuild freqs freqs.length).root] } := by
  obtain ⟨k, hm⟩ := mergeAll_merging htotal (leaves freqs).pq.length (leaves_merging hne)
  have hq := (mergeAll_sizes freqs.length (leaves freqs).pq.length 0 (leaves freqs) (by omega) (leaves_queued freqs)).1
  refine ⟨k, ?_⟩
  unfold huffBuild
  dsimp only
  generalize mergeAll freqs.length (leaves freqs).pq.length 0 (leaves freqs) = b at hm hq
  obtain ⟨node, pq⟩ := b
  obtain ⟨root, rfl⟩ := List.length_eq_one_iff.mp hq
  exact hm

/-- A build takes `L - 1` merges and leaves `2L - 1` records and an empty queue (R161). -/
theorem huffBuild_sizes {freqs : List (BitVec 32)} (hne : ∃ f ∈ freqs, f ≠ 0) (alphabet : Nat) :
    (huffBuild freqs alphabet).node.length + 1 = 2 * (leavesOf freqs).length ∧ (huffBuild freqs alphabet).pq = [] := by
  obtain ⟨hq, hnode⟩ := mergeAll_sizes alphabet (leaves freqs).pq.length 0 (leaves freqs) (by omega) (leaves_queued freqs)
  obtain ⟨hn, hp⟩ := addLeaves_sizes freqs 0 { node := [], pq := [] }
  rw [← leaves_eq_addLeaves hne, ← leavesOf_length, List.length_nil, Nat.zero_add] at hn hp
  have hnode : (huffBuild freqs alphabet).node.length + 1 = (leaves freqs).node.length + (leaves freqs).pq.length := hnode
  refine ⟨by omega, List.length_eq_zero_iff.mp ?_⟩
  show (mergeAll alphabet (leaves freqs).pq.length 0 (leaves freqs)).pq.tail.length = 0
  rw [List.length_tail, hq]

/-! ### The tree under its root -/

section Tree

variable {freqs : List (BitVec 32)} {k root : Nat} {node : List Node}

/-- The root is the last record (R161). -/
theorem Merging.root_succ (h : Merging freqs k { node := node, pq := [root] }) : root + 1 = node.length := by
  have hroot : root < node.length := h.building.queued_lt root (List.mem_singleton_self root)
  have hlast : queuedAt node node.length (node.length - 1) := by
    refine queuedAt_iff.mpr ⟨by omega, fun x hx s hs => ?_⟩
    have := h.building.forest.child_lt x _ s hs
    omega
  have := List.mem_singleton.mp ((h.ranked.queued_iff _).mpr hlast)
  omega

/-- Every record stands below the root: one that does not is still queued (R161). -/
theorem Merging.below_root (h : Merging freqs k { node := node, pq := [root] }) {m : Nat} (hm : m < node.length) :
    ∃ d, Below node d root m := by
  induction hn : node.length - m using Nat.strongRecOn generalizing m with
  | ind n ih =>
    by_cases hq : queuedAt node node.length m
    · exact ⟨0, List.mem_singleton.mp ((h.ranked.queued_iff m).mpr hq)⟩
    · rw [queuedAt_iff] at hq
      simp only [not_and, Classical.not_forall, Classical.not_not, exists_prop] at hq
      obtain ⟨x, hx, s, hs⟩ := hq hm
      have hlt := h.building.forest.child_lt x m s hs
      obtain ⟨d, hd⟩ := ih (node.length - x) (by omega) hx rfl
      exact ⟨d + 1, (below_succ d root m).mpr ⟨x, s, hd, hs⟩⟩

/-- A record of a build is a leaf of its table, among the first records, or a merge. -/
theorem Merging.record_cases (h : Merging freqs k { node := node, pq := [root] }) {m : Nat} (hm : m < node.length) :
    (m < (leavesOf freqs).length ∧ node[m]? = (leavesOf freqs)[m]?) ∨
    (∃ i < k, m = (leavesOf freqs).length + i ∧ MergedAt node m (freqs.length + i)) := by
  obtain ⟨merges, hnode⟩ : ∃ merges, leavesOf freqs ++ merges = node := h.leaves_prefix
  have hlength : node.length = (leavesOf freqs).length + k := h.length_eq
  rcases Nat.lt_or_ge m (leavesOf freqs).length with hlt | hge
  · exact .inl ⟨hlt, by rw [← hnode, List.getElem?_append_left hlt]⟩
  · obtain ⟨i, rfl⟩ := Nat.exists_eq_add_of_le hge
    exact .inr ⟨i, by omega, rfl, h.merged i (by omega)⟩

/-- Every leaf of a build is one of its table. -/
theorem Merging.leaf_eq (h : Merging freqs k { node := node, pq := [root] }) {m id seq : Nat} {w : BitVec 33}
    (hm : node[m]? = some (.leaf id w seq)) :
    id < freqs.length ∧ freqs.getD id 0 ≠ 0 ∧ w = (freqs.getD id 0).setWidth 33 ∧ seq = id := by
  obtain ⟨hlt, -⟩ := List.getElem?_eq_some_iff.mp hm
  rcases h.record_cases hlt with ⟨-, heq⟩ | ⟨i, -, -, l, r, w', hrec, -⟩
  · obtain ⟨id', hid, hne, hleaf⟩ := mem_leavesOf.mp (List.mem_of_getElem? (heq ▸ hm))
    cases hleaf
    exact ⟨hid, hne, rfl, rfl⟩
  · rw [hrec] at hm
    cases hm

/-- Every used id has a leaf below the root, at a depth within the arena. -/
theorem Merging.descend_leaf (h : Merging freqs k { node := node, pq := [root] }) {id : Nat} (hid : id < freqs.length)
    (hne : freqs.getD id 0 ≠ 0) : ∃ ds : List Bool, ds.length < node.length ∧
      descend node ds root = some (.leaf id ((freqs.getD id 0).setWidth 33) id) := by
  obtain ⟨m, hm⟩ := List.mem_iff_getElem?.mp (h.leaves_prefix.subset (mem_leavesOf.mpr ⟨id, hid, hne, rfl⟩))
  obtain ⟨hlt, -⟩ := List.getElem?_eq_some_iff.mp hm
  obtain ⟨d, hd⟩ := h.below_root hlt
  obtain ⟨ds, rfl, hds⟩ := descend_of_below hd
  have hdepth := h.building.forest.below_le hd
  have hroot := h.building.queued_lt root (List.mem_singleton_self root)
  exact ⟨ds, Nat.lt_of_le_of_lt (Nat.le_of_add_left_le hdepth) hroot, hds.trans hm⟩

/-- With two used ids or more the root is a merge, so no leaf is at depth 0 (R166). -/
theorem Merging.ne_nil_of_descend (h : Merging freqs k { node := node, pq := [root] }) (htwo : 2 ≤ (leavesOf freqs).length)
    (hsize : node.length + 1 = 2 * (leavesOf freqs).length) {ds : List Bool} {sym seq : Nat} {w : BitVec 33}
    (hds : descend node ds root = some (.leaf sym w seq)) : ds ≠ [] := by
  rintro rfl
  have hroot := h.root_succ
  rcases h.record_cases (m := root) (by omega) with ⟨hlt, -⟩ | ⟨i, -, -, l, r, w', hrec, -⟩
  · omega
  · rw [descend, hrec] at hds
    cases hds

end Tree

/-! ### The laws of the tree (R37, R103, R166 to R170) -/

/-- Settles O53: after each merge the arena holds the leaves and the merges so far, and the queue in order what is left. -/
theorem builtTreeShape : Obligations.BuiltTreeShape := by
  intro freqs htotal hused t
  have hne := exists_used_iff.mpr hused
  obtain ⟨k, h⟩ := huffBuild_merging (by omega) hne
  obtain ⟨hsize, hpq⟩ := huffBuild_sizes hne freqs.length
  rw [← leavesOf_length] at hused ⊢
  have hsize : t.node.length + 1 = 2 * (leavesOf freqs).length := hsize
  have hlength : t.node.length = (leavesOf freqs).length + k := h.length_eq
  have hroot : t.root + 1 = t.node.length := h.root_succ
  have hweight : weightAt t.node t.root = totalFreq freqs := by simpa using h.building.sum_eq
  refine ⟨by omega, hroot, hpq, hweight, (List.prefix_iff_eq_take.mp h.leaves_prefix).symm, fun i hi => ?_⟩
  exact h.merged i (by omega)

theorem codeAt_set_self {t : List Code} {id : Nat} (hid : id < t.length) (c : Code) : codeAt (t.set id c) id = c := by
  simp [codeAt, hid]

/-- A walk deep enough to reach a leaf of an id records in the id's slot the branches to such a leaf (R166). -/
theorem visit_reaches {node : List Node} (hf : MergeForest node) (fuel : Nat) {i id : Nat} (hi : i < node.length)
    (path : BitVec 128) (depth : Nat) (t : List Code) (hid : id < t.length) {ds : List Bool} (hdepth : ds.length < fuel)
    {w : BitVec 33} {seq : Nat} (hds : descend node ds i = some (.leaf id w seq)) :
    ∃ ds w seq, descend node ds i = some (.leaf id w seq) ∧
      codeAt (visit node fuel i path depth t) id = ⟨extendPath path depth ds, BitVec.ofNat 8 (depth + ds.length)⟩ := by
  induction fuel generalizing i path depth t ds with
  | zero => exact absurd hdepth (Nat.not_lt_zero _)
  | succ fuel ih =>
    have hget : node[i]? = some (nodeAt node i) := by simp [nodeAt, hi]
    unfold visit
    split
    · rename_i sym w' seq' e
      rw [e] at hget
      cases ds with
      | nil =>
        rw [descend, hget] at hds
        cases hds
        exact ⟨[], w, seq, hget, codeAt_set_self hid _⟩
      | cons b bs => simp [descend, hget] at hds
    · rename_i l r w' seq' e
      rw [e] at hget
      have hl : l < node.length := hf.child_lt_length ⟨_, hget, w', seq', .inl rfl⟩
      have hr : r < node.length := hf.child_lt_length ⟨_, hget, w', seq', .inr rfl⟩
      have lift : ∀ (b : Bool) (c : Code), (∃ ds w seq, descend node ds (if b then r else l) = some (.leaf id w seq) ∧
            c = ⟨extendPath (markBranch path depth b) (depth + 1) ds, BitVec.ofNat 8 (depth + 1 + ds.length)⟩) →
          ∃ ds w seq, descend node ds i = some (.leaf id w seq) ∧
            c = ⟨extendPath path depth ds, BitVec.ofNat 8 (depth + ds.length)⟩ := by
        rintro b c ⟨ds, w, seq, hds, rfl⟩
        refine ⟨b :: ds, w, seq, by rw [descend, hget]; exact hds, ?_⟩
        rw [List.length_cons, Nat.add_right_comm, Nat.add_assoc]
        rfl
      cases ds with
      | nil =>
        rw [descend, hget] at hds
        cases hds
      | cons b bs =>
        rw [descend, hget] at hds
        rw [List.length_cons] at hdepth
        cases b with
        | true => exact lift true _ (ih hr _ _ _ (by rwa [visit_length]) (by omega) hds)
        | false =>
          rcases visit_slot hf fuel hr (path ||| (1#128 <<< depth)) (depth + 1) (visit node fuel l path (depth + 1) t) id with
            hkept | hright
          · rw [hkept]
            exact lift false _ (ih hl _ _ _ hid (by omega) hds)
          · exact lift true _ hright

/-- The code of a used id is the path to its leaf, at most 45 branches long (R37, R166, R167). -/
theorem codesOf_of_used {freqs : List (BitVec 32)} (htotal : totalFreq freqs < 2 ^ 32) {id : Nat} (hid : id < freqs.length)
    (hused : freqs.getD id 0 ≠ 0) :
    ∃ ds : List Bool, ds.length ≤ 45 ∧
      descend (huffBuild freqs freqs.length).node ds (huffBuild freqs freqs.length).root =
        some (.leaf id ((freqs.getD id 0).setWidth 33) id) ∧
      codeAt (codesOf freqs freqs.length) id = ⟨extendPath 0 0 ds, BitVec.ofNat 8 ds.length⟩ := by
  have hne : ∃ f ∈ freqs, f ≠ 0 := ⟨freqs[id], List.getElem_mem hid, by rwa [getD_of_lt hid] at hused⟩
  obtain ⟨k, h⟩ := huffBuild_merging (by omega) hne
  have hforest := h.building.forest
  have hroot := h.building.queued_lt _ (List.mem_singleton_self _)
  have hweight : weightAt (huffBuild freqs freqs.length).node (huffBuild freqs freqs.length).root = totalFreq freqs := by
    simpa using h.building.sum_eq
  obtain ⟨ds, hdepth, hds⟩ := h.descend_leaf hid hused
  obtain ⟨ds, w, seq, hds, hcode⟩ := visit_reaches hforest _ hroot 0 0 (List.replicate freqs.length ⟨0, 0⟩)
    (by rwa [List.length_replicate]) hdepth hds
  obtain ⟨m, -, hm⟩ := below_of_descend hds
  obtain ⟨-, -, rfl, rfl⟩ := h.leaf_eq hm
  rw [Nat.zero_add] at hcode
  exact ⟨ds, hforest.depth_le (by rw [hweight]; exact htotal) hds, hds, hcode⟩

/-- An unused id has no code (R103). -/
theorem codesOf_of_unused {freqs : List (BitVec 32)} (htotal : totalFreq freqs < 2 ^ 32) (hne : ∃ f ∈ freqs, f ≠ 0) {id : Nat}
    (hunused : freqs.getD id 0 = 0) : codeAt (codesOf freqs freqs.length) id = ⟨0, 0⟩ := by
  obtain ⟨k, h⟩ := huffBuild_merging (by omega) hne
  rcases codesOf_slot htotal hne freqs.length id with hempty | ⟨ds, w, seq, -, hds, -⟩
  · exact hempty
  · obtain ⟨m, -, hm⟩ := below_of_descend hds
    obtain ⟨-, hused, -⟩ := h.leaf_eq hm
    exact (hused hunused).elim

theorem toNat_ofNat_length {ds : List Bool} (h : ds.length ≤ 45) : (BitVec.ofNat 8 ds.length).toNat = ds.length := by
  rw [BitVec.toNat_ofNat]
  exact Nat.mod_eq_of_lt (by omega)

/-- Settles O48: an unused id has no leaf, and the code of a used one is the path to its leaf. -/
theorem usedIdsHaveCodesAndUnusedHaveNone : Obligations.UsedIdsHaveCodesAndUnusedHaveNone := by
  intro freqs htotal htwo id hid
  have hne := exists_used_iff.mpr (Nat.le_of_succ_le htwo)
  refine ⟨codesOf_of_unused htotal hne, fun hused => ?_⟩
  obtain ⟨k, h⟩ := huffBuild_merging (by omega) hne
  obtain ⟨ds, hshort, hds, hcode⟩ := codesOf_of_used htotal hid hused
  have hnonempty := h.ne_nil_of_descend (by rwa [leavesOf_length]) (huffBuild_sizes hne freqs.length).1 hds
  intro t c
  have hc : c = ⟨extendPath 0 0 ds, BitVec.ofNat 8 ds.length⟩ := hcode
  have hlen : c.len.toNat = ds.length := by rw [hc]; exact toNat_ofNat_length hshort
  refine ⟨?_, fun b hb => ?_, ?_⟩
  · rw [hlen]
    exact List.length_pos_iff.mpr hnonempty
  · rw [hlen] at hb
    rw [hc, getLsbD_extendPath ds (by omega) (fun k _ => by simp), if_neg (Nat.not_lt_zero b)]
    exact getD_of_ge hb _
  · rw [hc, decisions_of_path (by omega)]
    exact hds

theorem codeAt_replicate (n id : Nat) : codeAt (List.replicate n ⟨0, 0⟩) id = ⟨0, 0⟩ := by
  rw [codeAt, List.getD_eq_getElem?_getD, List.getElem?_replicate]
  split <;> rfl

/-- A slot of a code table holds a code of at most 45 bits (R37). -/
theorem codeAt_codesOf_len {freqs : List (BitVec 32)} (htotal : totalFreq freqs < 2 ^ 32) (id : Nat) :
    (codeAt (codesOf freqs freqs.length) id).len.toNat ≤ 45 := by
  by_cases hne : ∃ f ∈ freqs, f ≠ 0
  · rcases codesOf_slot htotal hne freqs.length id with hempty | ⟨ds, -, -, hshort, -, hcode⟩
    · rw [hempty]
      decide
    · rw [hcode, toNat_ofNat_length hshort]
      exact hshort
  · have hnone : (freqs.filter (· ≠ 0)).length ≤ 1 := Nat.le_of_not_lt fun h => hne (exists_used_iff.mpr (Nat.le_of_lt h))
    rw [codesOf_of_one_leaf hnone, codeAt_replicate]
    decide

theorem codesOf_len {freqs : List (BitVec 32)} (htotal : totalFreq freqs < 2 ^ 32) :
    ∀ c ∈ codesOf freqs freqs.length, c.len.toNat ≤ 45 := by
  intro c hc
  obtain ⟨id, hid, rfl⟩ := List.mem_iff_getElem.mp hc
  have h := codeAt_codesOf_len htotal id
  rwa [codeAt, getD_of_lt hid] at h

/-- Settles O50: a slot is empty or a path of the tree, whose depth its weight bounds. -/
theorem codeLengthsAreAtMost45 : Obligations.CodeLengthsAreAtMost45 := fun _ => codesOf_len

/-- Settles O52: if the heavier leaf stood deeper, the record above it on the level after the lighter leaf's would weigh more
than that leaf. -/
theorem largerFrequencyNeverLongerCode : Obligations.LargerFrequencyNeverLongerCode := by
  intro freqs htotal i j hi hj hfj hlt
  have hfi : freqs.getD i 0 ≠ 0 := fun h => by rw [h] at hlt; exact absurd hlt (Nat.not_lt_zero _)
  have hne : ∃ f ∈ freqs, f ≠ 0 := ⟨freqs[i], List.getElem_mem hi, by rwa [getD_of_lt hi] at hfi⟩
  obtain ⟨k, h⟩ := huffBuild_merging (by omega) hne
  obtain ⟨di, hshorti, hdi, hci⟩ := codesOf_of_used htotal hi hfi
  obtain ⟨dj, hshortj, hdj, hcj⟩ := codesOf_of_used htotal hj hfj
  rw [hci, hcj, toNat_ofNat_length hshorti, toNat_ofNat_length hshortj]
  refine Nat.le_of_not_lt fun hdeep => ?_
  have hleaf : ∀ {m id : Nat}, (huffBuild freqs freqs.length).node[m]? = some (.leaf id ((freqs.getD id 0).setWidth 33) id) →
      weightAt (huffBuild freqs freqs.length).node m = (freqs.getD id 0).toNat := fun {m id} hm => by
    rw [weightAt, nodeAt, List.getD_eq_getElem?_getD, hm]
    exact BitVec.toNat_setWidth_of_le (by decide)
  obtain ⟨mi, hmi, hni⟩ := below_of_descend hdi
  obtain ⟨mj, hmj, hnj⟩ := below_of_descend hdj
  obtain ⟨e, he⟩ := Nat.exists_eq_add_of_lt hdeep
  rw [he, Nat.add_right_comm, below_add] at hmi
  obtain ⟨x, hx, hxi⟩ := hmi
  have hroot := List.mem_singleton_self (huffBuild freqs freqs.length).root
  have hlevel := h.levelled.next_le _ hroot _ hroot dj.length _ _ ⟨mj, hmj, hleaf hnj⟩ ⟨x, hx, rfl⟩
  have habove := h.building.forest.below_weight_le hxi
  have hi' : weightAt (huffBuild freqs freqs.length).node mi = _ := hleaf hni
  rw [hi'] at habove
  exact absurd (Nat.le_trans habove hlevel) (Nat.not_le_of_lt hlt)

end Sys2Proof.Machine

namespace Sys2Proof.Machine

/-! ### Counting (R201) -/

/-- A frequency table with as many uses added to each slot. -/
def tally (t : List (BitVec 32)) (uses : Nat → Nat) : List (BitVec 32) :=
  (List.range t.length).map fun id => t.getD id 0 + BitVec.ofNat 32 (uses id)

@[simp] theorem tally_length (t : List (BitVec 32)) (uses : Nat → Nat) : (tally t uses).length = t.length := by
  simp [tally]

theorem tally_zero (t : List (BitVec 32)) : tally t (fun _ => 0) = t := by
  apply List.ext_getElem
  · simp
  · intro i h _
    rw [tally_length] at h
    simp [tally, h]

theorem tally_tally (t : List (BitVec 32)) (f g : Nat → Nat) : tally (tally t f) g = tally t fun id => f id + g id := by
  apply List.ext_getElem
  · simp
  · intro i h _
    simp only [tally_length] at h
    simp [tally, h, BitVec.ofNat_add, BitVec.add_assoc]

/-- An increment is one use of its slot. -/
theorem bump_eq_tally (t : List (BitVec 32)) (id : Nat) : bump t id = tally t fun i => if id = i then 1 else 0 := by
  apply List.ext_getElem
  · simp [bump]
  · intro i h _
    simp only [bump, List.length_set] at h
    by_cases hid : id = i
    · subst hid
      simp [bump, tally, h]
    · simp [bump, tally, h, hid]

/-- A symbol adds its uses to both tables (R201). -/
theorem countSymbol_eq (sym : Symbol) (e : Encoder) :
    countSymbol sym e = (e.setFl (tally e.fl (litLenUse · sym))).setFd (tally e.fd (distUse · sym)) := by
  cases sym with
  | lit v =>
    simp only [countSymbol, litLenUse, distUse, bump_eq_tally, tally_zero]
    rfl
  | ptr d l => simp only [countSymbol, litLenUse, distUse, bump_eq_tally]

/-- Counting legal symbols adds the uses of each (R201). -/
theorem countLoop_eq {sb : List Symbol} (hlegal : ∀ sym ∈ sb, sym.legal = true) (e : Encoder) :
    countLoop sb e = .ok ((e.setFl (tally e.fl fun id => (sb.map (litLenUse id)).sum)).setFd
      (tally e.fd fun id => (sb.map (distUse id)).sum)) := by
  induction sb generalizing e with
  | nil =>
    simp only [countLoop, List.map_nil, List.sum_nil, tally_zero]
    rfl
  | cons sym sb ih =>
    rw [countLoop, if_pos (hlegal sym List.mem_cons_self), ih (fun s hs => hlegal s (List.mem_cons_of_mem _ hs)),
      countSymbol_eq]
    simp only [Encoder.setFd_fl, Encoder.setFl_fl, Encoder.setFd_fd, tally_tally, List.map_cons, List.sum_cons]
    rfl

/-- Uses counted from a cleared table. -/
theorem tally_replicate (n : Nat) (uses : Nat → Nat) :
    tally (List.replicate n 0) uses = (List.range n).map fun id => BitVec.ofNat 32 (uses id) := by
  simp only [tally, List.length_replicate]
  refine List.map_congr_left fun id hid => ?_
  simp [List.mem_range.mp hid]

/-- The forced end-of-stream slot (R201). -/
theorem freqLL_last (sb : List Symbol) : freqLL sb true = (freqLL sb false).set eos 1 := by
  apply List.ext_getElem
  · simp [freqLL]
  · intro i h _
    by_cases hi : eos = i
    · subst hi
      simp [freqLL]
    · simp [freqLL, hi, Ne.symm hi]

/-- Settles O56: the count starts from cleared tables and adds each symbol's uses. -/
theorem countGivesTheFrequencies : Obligations.CountGivesTheFrequencies := by
  intro sb e hlegal
  have hfl : (List.range nLL).map (fun id => BitVec.ofNat 32 ((sb.map (litLenUse id)).sum)) = freqLL sb false := by
    simp [freqLL]
  rw [encCount, countLoop_eq hlegal]
  simp only [Encoder.setFd_fl, Encoder.setFl_fl, Encoder.setFd_fd, tally_replicate, hfl, Res.andThen_ok]
  cases e with
  | mk isLast fl fd node pq tl td draws =>
    cases isLast with
    | false => rfl
    | true => exact congrArg Res.ok (by rw [freqLL_last]; rfl)

/-! ### The counts of a block (R37) -/

theorem sum_map_add {α : Type} (l : List α) (f g : α → Nat) :
    (l.map fun a => f a + g a).sum = (l.map f).sum + (l.map g).sum := by
  induction l with
  | nil => rfl
  | cons a l ih =>
    simp only [List.map_cons, List.sum_cons, ih]
    omega

theorem sum_map_le {α : Type} {f g : α → Nat} (h : ∀ a, f a ≤ g a) (l : List α) : (l.map f).sum ≤ (l.map g).sum := by
  induction l with
  | nil => exact Nat.le_refl _
  | cons a l ih =>
    simp only [List.map_cons, List.sum_cons]
    exact Nat.add_le_add (h a) ih

theorem sum_map_const {α : Type} (n : Nat) (l : List α) : (l.map fun _ => n).sum = n * l.length := by
  induction l with
  | nil => rfl
  | cons a l ih =>
    simp only [List.map_cons, List.sum_cons, List.length_cons, ih, Nat.mul_succ]
    exact Nat.add_comm _ _

/-- A sum of counts over all slots is at most the sum over the symbols of what each can add. -/
theorem sum_uses_le {use : Nat → Symbol → Nat} {most : Symbol → Nat} {n : Nat}
    (h : ∀ sym, ((List.range n).map (use · sym)).sum ≤ most sym) (sb : List Symbol) :
    ((List.range n).map fun id => (sb.map (use id)).sum).sum ≤ (sb.map most).sum := by
  induction sb with
  | nil =>
    simp only [List.map_nil, List.sum_nil, sum_map_const, Nat.zero_mul]
    exact Nat.le_refl 0
  | cons sym sb ih =>
    simp only [List.map_cons, List.sum_cons, sum_map_add]
    exact Nat.add_le_add (h sym) ih

/-- One slot at most is the one looked for. -/
theorem sum_single_le (n a : Nat) : ((List.range n).map fun id => if a = id then 1 else 0).sum ≤ 1 := by
  induction n with
  | zero => simp
  | succ n ih =>
    rw [List.range_succ, List.map_append, List.sum_append]
    by_cases ha : a = n
    · have hnone : (List.range n).map (fun id => if a = id then 1 else 0) = (List.range n).map fun _ => 0 :=
        List.map_congr_left fun id hid => if_neg fun h => by rw [List.mem_range] at hid; omega
      rw [hnone, sum_map_const, Nat.zero_mul]
      simp only [List.map_cons, List.map_nil, List.sum_cons, List.sum_nil, if_pos ha]
      exact Nat.le_refl 1
    · simp only [List.map_cons, List.map_nil, List.sum_cons, List.sum_nil, if_neg ha, Nat.add_zero]
      exact ih

/-- The pointers a symbol is: one or none. -/
def ptrCount : Symbol → Nat
  | .lit _ => 0
  | .ptr _ _ => 1

theorem sum_litLenUse_le (n : Nat) (sym : Symbol) : ((List.range n).map (litLenUse · sym)).sum ≤ 1 := by
  cases sym <;> exact sum_single_le n _

theorem sum_distUse_le (n : Nat) (sym : Symbol) : ((List.range n).map (distUse · sym)).sum ≤ ptrCount sym := by
  cases sym with
  | lit v => exact Nat.le_of_eq ((sum_map_const 0 _).trans (Nat.zero_mul _))
  | ptr d l => exact sum_single_le n _

/-- A total of counters of 32 bits is at most the total of what they count. -/
theorem totalFreq_map_le {f : Nat → BitVec 32} {g : Nat → Nat} (n : Nat) (h : ∀ id, (f id).toNat ≤ g id) :
    totalFreq ((List.range n).map f) ≤ ((List.range n).map g).sum := by
  rw [totalFreq, List.map_map]
  exact sum_map_le h _

theorem toNat_ofNat_le (x : Nat) : (BitVec.ofNat 32 x).toNat ≤ x := by
  rw [BitVec.toNat_ofNat]
  exact Nat.mod_le _ _

/-- The literal/length table counts every symbol once, and the end of the stream (R37). -/
theorem totalFreq_freqLL_le (sb : List Symbol) (last : Bool) : totalFreq (freqLL sb last) ≤ sb.length + 1 := by
  have hslot : ∀ id, (if last ∧ id = eos then 1 else BitVec.ofNat 32 ((sb.map (litLenUse id)).sum)).toNat ≤
      (sb.map (litLenUse id)).sum + if eos = id then 1 else 0 := by
    intro id
    split
    · rename_i h
      rw [if_pos h.2.symm]
      exact Nat.le_add_left _ _
    · exact Nat.le_trans (toNat_ofNat_le _) (Nat.le_add_right _ _)
  calc totalFreq (freqLL sb last)
      ≤ ((List.range nLL).map fun id => (sb.map (litLenUse id)).sum + if eos = id then 1 else 0).sum :=
        totalFreq_map_le nLL hslot
    _ = ((List.range nLL).map fun id => (sb.map (litLenUse id)).sum).sum +
          ((List.range nLL).map fun id => if eos = id then 1 else 0).sum := sum_map_add _ _ _
    _ ≤ (sb.map fun _ => 1).sum + 1 := Nat.add_le_add (sum_uses_le (sum_litLenUse_le nLL) sb) (sum_single_le nLL eos)
    _ = sb.length + 1 := by rw [sum_map_const, Nat.one_mul]

/-- The distance table counts every pointer once (R37). -/
theorem totalFreq_freqD_le (sb : List Symbol) : totalFreq (freqD sb) ≤ (sb.map ptrCount).sum :=
  Nat.le_trans (totalFreq_map_le nD fun _ => toNat_ofNat_le _) (sum_uses_le (sum_distUse_le nD) sb)

theorem sum_le_length {f : Symbol → Nat} (h : ∀ sym, f sym ≤ 1) (sb : List Symbol) : (sb.map f).sum ≤ sb.length := by
  have hle := sum_map_le h sb
  rwa [sum_map_const, Nat.one_mul] at hle

theorem litLenUse_le (id : Nat) (sym : Symbol) : litLenUse id sym ≤ 1 := by
  cases sym <;> simp only [litLenUse] <;> split <;> decide

theorem distUse_le (id : Nat) (sym : Symbol) : distUse id sym ≤ 1 := by
  cases sym with
  | lit v => exact Nat.zero_le 1
  | ptr d l => simp only [distUse]; split <;> decide

theorem ptrCount_le : ∀ sym : Symbol, ptrCount sym ≤ 1
  | .lit _ => Nat.zero_le 1
  | .ptr _ _ => Nat.le_refl 1

@[simp] theorem freqLL_length (sb : List Symbol) (last : Bool) : (freqLL sb last).length = nLL := by simp [freqLL]
@[simp] theorem freqD_length (sb : List Symbol) : (freqD sb).length = nD := by simp [freqD]

/-- Within the counters' range the codes of a block have at most 45 bits (R37). -/
theorem block_code_len {sb : List Symbol} (hsb : sb.length + 1 < 2 ^ 32) (last : Bool) (id : Nat) :
    (codeAt (codesOf (freqLL sb last) nLL) id).len.toNat ≤ 45 ∧ (codeAt (codesOf (freqD sb) nD) id).len.toNat ≤ 45 := by
  have hll := totalFreq_freqLL_le sb last
  have hd := Nat.le_trans (totalFreq_freqD_le sb) (sum_le_length ptrCount_le sb)
  refine ⟨?_, ?_⟩
  · simpa using codeAt_codesOf_len (freqs := freqLL sb last) (by omega) id
  · simpa using codeAt_codesOf_len (freqs := freqD sb) (by omega) id

/-- Settles O51: every symbol but the sentinel covers a byte of the chunk, and a symbol is counted once in a table. -/
theorem blockCountsStayInBounds : Obligations.BlockCountsStayInBounds := by
  intro w cb last hw hcb sb
  obtain ⟨hbody, -⟩ := parse_symbols w cb hw
  have hsb : sb = parse w cb ++ [.lit 256] := chunkSymbols_eq w cb
  have hlen : sb.length ≤ Config.chunkMax + 1 := by
    rw [hsb, List.length_append, List.length_singleton]
    omega
  have hll := totalFreq_freqLL_le sb last
  have hd : totalFreq (freqD sb) ≤ Config.chunkMax := by
    have hptr : (sb.map ptrCount).sum ≤ (parse w cb).length := by
      rw [hsb, List.map_append, List.sum_append]
      exact sum_le_length ptrCount_le (parse w cb)
    exact Nat.le_trans (totalFreq_freqD_le sb) (by omega)
  have hmax := chunkMax_lt
  refine ⟨fun f hf => ?_, by omega, hd, fun c hc => ?_⟩
  · have hone : (1#32).toNat ≤ Config.chunkMax + 1 := Nat.le_add_left 1 _
    rcases List.mem_append.mp hf with hf | hf
    · obtain ⟨id, -, rfl⟩ := List.mem_map.mp hf
      split
      · exact hone
      · exact Nat.le_trans (toNat_ofNat_le _) (Nat.le_trans (sum_le_length (litLenUse_le id) sb) hlen)
    · obtain ⟨id, -, rfl⟩ := List.mem_map.mp hf
      exact Nat.le_trans (toNat_ofNat_le _) (Nat.le_trans (sum_le_length (distUse_le id) sb) hlen)
  · rcases List.mem_append.mp hc with hc | hc
    · exact codesOf_len (freqs := freqLL sb last) (by omega) c (by simpa [nLL] using hc)
    · exact codesOf_len (freqs := freqD sb) (by omega) c (by simpa [nD] using hc)

end Sys2Proof.Machine

namespace Sys2Proof.Machine

/-! ### What the encoder's parts ask of the writer (R231, R285) -/

/-- What every part of the encoder does to the writer: bits are appended and then it completes or, when `refused`, an operand
outside its domain is refused. -/
def emit (bits : List Bool) (refused : Bool) (w : Writer) : Res Writer :=
  (pushBits bits w).andThen fun v => if refused then .stop .fRange v else .ok v

/-- An operation of the writer that appends bits that do not depend on the writer. -/
def Emits (f : Writer → Res Writer) : Prop := ∃ bits refused, f = emit bits refused

theorem emit_false (bits : List Bool) : emit bits false = pushBits bits := by
  funext w
  unfold emit
  cases pushBits bits w <;> rfl

/-- Two operations in turn append the bits of both, unless the first is refused. -/
theorem emit_andThen (as bs : List Bool) (refused : Bool) (w : Writer) :
    (emit as false w).andThen (emit bs refused) = emit (as ++ bs) refused w := by
  rw [emit_false, emit, pushBits_append, Res.andThen_assoc]
  rfl

theorem emit_refused_andThen (as : List Bool) (f : Writer → Res Writer) (w : Writer) :
    (emit as true w).andThen f = emit as true w := by
  unfold emit
  cases pushBits as w <;> rfl

theorem Emits.andThen {f g : Writer → Res Writer} (hf : Emits f) (hg : Emits g) : Emits fun w => (f w).andThen g := by
  obtain ⟨as, r, rfl⟩ := hf
  obtain ⟨bs, r', rfl⟩ := hg
  cases r with
  | false => exact ⟨as ++ bs, r', funext (emit_andThen as bs r')⟩
  | true => exact ⟨as, true, funext (emit_refused_andThen as _)⟩

theorem emits_ok : Emits Res.ok := ⟨[], false, rfl⟩
theorem emits_range : Emits (Res.stop .fRange) := ⟨[], true, rfl⟩

theorem wrWrite_emits (bits : BitVec 128) (count : Nat) : Emits (wrWrite bits count) := by
  by_cases h : count ≤ 128
  · exact ⟨msbFirst bits count, false, by rw [emit_false]; exact funext fun w => wrWrite_eq h⟩
  · exact ⟨[], true, funext fun w => wrWrite_over (Nat.lt_of_not_le h)⟩

theorem writeCodeExtra_emits (c : Code) (x n : Nat) : Emits (writeCodeExtra c x n) :=
  (wrWrite_emits _ _).andThen (wrWrite_emits _ _)

theorem writeSymbol_emits (tl td : List Code) (sym : Symbol) : Emits (writeSymbol tl td sym) := by
  cases sym with
  | lit v => exact wrWrite_emits _ _
  | ptr d l =>
    cases hkl : lenMap l.toNat with
    | none =>
      have h : writeSymbol tl td (.ptr d l) = Res.stop .fRange := funext fun w => by simp only [writeSymbol, hkl]
      exact h ▸ emits_range
    | some kl =>
      cases hkd : distMap d.toNat with
      | none =>
        have h : writeSymbol tl td (.ptr d l) = Res.stop .fRange := funext fun w => by simp only [writeSymbol, hkl, hkd]
        exact h ▸ emits_range
      | some kd =>
        have h : writeSymbol tl td (.ptr d l) = fun w =>
            (writeLength tl kl (lenOffset l.toNat kl) w).andThen (writeDistance td kd (distOffset d.toNat kd)) :=
          funext fun w => by simp only [writeSymbol, hkl, hkd]
        rw [h]
        exact (writeCodeExtra_emits _ _ _).andThen (writeCodeExtra_emits _ _ _)

/-! ### The header (R96, R203) -/

theorem msbFirst_eight (l : BitVec 8) : msbFirst (l.setWidth 128) 8 = byteBits l := by
  simp [msbFirst, byteBits]

theorem writeField_eq (l : BitVec 8) : writeField l = pushBits (byteBits l) := by
  funext w
  rw [← msbFirst_eight]
  exact wrWrite_eq (by decide)

/-- The header is the code lengths as bytes (R96). -/
theorem fieldBits_eq (cs : List Code) : fieldBits cs = bytesBits (cs.map Code.len) := by
  induction cs with
  | nil => rfl
  | cons c cs ih => rw [fieldBits, msbFirst_eight, ih]; rfl

theorem headerBits_eq (tl td : List Code) : headerBits tl td = bytesBits ((tl ++ td).map Code.len) := by
  rw [headerBits, fieldBits_eq, fieldBits_eq, ← bytesBits_append, List.map_append]

theorem writeLens_eq (cs : List Code) : writeLens cs = pushBits (fieldBits cs) := by
  funext w
  induction cs generalizing w with
  | nil => rfl
  | cons c cs ih =>
    rw [fieldBits, msbFirst_eight, pushBits_append, writeLens, writeField_eq]
    exact congrArg _ (funext ih)

theorem encHeader_eq (tl td : List Code) : encHeader tl td = pushBits (headerBits tl td) := by
  funext w
  rw [headerBits, pushBits_append, encHeader, writeLens_eq, writeLens_eq]

/-- The bits of bytes, eight at a time. -/
theorem bytesBits_drop_take (bs : List Byte) {i : Nat} (hi : i < bs.length) :
    ((bytesBits bs).drop (8 * i)).take 8 = byteBits bs[i] := by
  induction bs generalizing i with
  | nil => exact absurd hi (Nat.not_lt_zero i)
  | cons b bs ih =>
    cases i with
    | zero => rfl
    | succ i =>
      rw [bytesBits, Nat.mul_succ, Nat.add_comm, List.drop_append, byteBits_length, Nat.add_sub_cancel_left,
        List.drop_of_length_le (by rw [byteBits_length]; exact Nat.le_add_right 8 _), List.nil_append]
      exact ih (Nat.lt_of_succ_lt_succ hi)

/-- Settles O57: the header's fields are the code lengths as bytes, and writing them in turn appends their bits. -/
theorem headerIs317FixedFields : Obligations.HeaderIs317FixedFields := by
  intro tl td htl htd
  have hlen : ((tl ++ td).map Code.len).length = 317 := by rw [List.length_map, List.length_append, htl, htd]
  have hbits : (headerBits tl td).length = 2536 := by rw [headerBits_eq, bytesBits_length, hlen]
  refine ⟨hbits, fun i hi => ?_, fun w hw htakes => ?_⟩
  · have hi' : i < (tl ++ td).length := by rw [List.length_append, htl, htd]; exact hi
    rw [headerBits_eq, bytesBits_drop_take _ (by rwa [hlen]), List.getElem_map, getD_of_lt hi']
  · rw [encHeader_eq]
    refine pushBits_appends _ w hw (sinkTakes_mono htakes ?_)
    unfold Writer.bytesDue
    omega

/-! ### The stream form of a symbol (R99, R204) -/

theorem writeCode_eq {c : Code} (hc : c.len.toNat ≤ 45) : writeCode c = pushBits (codeBits c) :=
  funext fun _ => wrWrite_eq (by omega)

/-- The extra-bit counts are all within WR_MAX (R192, R193). -/
theorem extra_le (k : Nat) : lenExtra.getD k 0 ≤ 13 ∧ distExtra.getD k 0 ≤ 13 := by
  have hall : ∀ t : List Nat, (∀ n ∈ t, n ≤ 13) → t.getD k 0 ≤ 13 := by
    intro t ht
    by_cases hk : k < t.length
    · rw [getD_of_lt hk]
      exact ht _ (List.getElem_mem hk)
    · rw [getD_of_ge (Nat.le_of_not_lt hk)]
      exact Nat.zero_le 13
  exact ⟨hall lenExtra (by decide), hall distExtra (by decide)⟩

theorem writeCodeExtra_eq {c : Code} (hc : c.len.toNat ≤ 45) (x : Nat) {n : Nat} (hn : n ≤ 13) :
    writeCodeExtra c x n = pushBits (codeExtraBits c x n) := by
  have hextra : writeExtra x n = pushBits (extraBits x n) := funext fun _ => wrWrite_eq (by omega)
  funext w
  rw [writeCodeExtra, writeCode_eq hc, hextra, codeExtraBits, pushBits_append]

/-- A legal pointer has a code in both maps (R102, R194, R195). -/
theorem maps_of_legal {d l : BitVec 16} (h : (Symbol.ptr d l).legal = true) :
    ∃ kl kd, lenMap l.toNat = some kl ∧ distMap d.toNat = some kd := by
  obtain ⟨hd1, hd, hl3, hl⟩ := of_decide_eq_true h
  exact ⟨_, _, if_pos ⟨hl3, hl⟩, if_pos ⟨hd1, hd⟩⟩

/-- Under codes of at most 45 bits a legal symbol is written as its stream form (R99). -/
theorem writeSymbol_eq {tl td : List Code} (htl : ∀ id, (codeAt tl id).len.toNat ≤ 45)
    (htd : ∀ id, (codeAt td id).len.toNat ≤ 45) {sym : Symbol} (h : sym.legal = true) :
    writeSymbol tl td sym = pushBits (symbolBits tl td sym) := by
  cases sym with
  | lit v => exact writeCode_eq (htl _)
  | ptr d l =>
    obtain ⟨kl, kd, hkl, hkd⟩ := maps_of_legal h
    funext w
    simp only [writeSymbol, symbolBits, hkl, hkd, Option.getD_some]
    rw [pushBits_append, lengthBits, distanceBits, ← writeCodeExtra_eq (htl _) _ (extra_le kl).1,
      ← writeCodeExtra_eq (htd _) _ (extra_le kd).2]
    rfl

/-! ### The block (R204 to R206) -/

/-- What `ENC_EMIT` asks of the writer for the symbols of SB. -/
def writeSymbols (tl td : List Code) : List Symbol → Writer → Res Writer
  | [], w => .ok w
  | sym :: rest, w => (writeSymbol tl td sym w).andThen (writeSymbols tl td rest)

/-- What `ENC_EMIT` asks of the writer after the last symbol (R205). -/
def writeEnd (tl : List Code) (last : Bool) (w : Writer) : Res Writer :=
  if last then writeLiteral tl eos w else .ok w

/-- What a block asks of the writer once its codes are built. -/
def writeBlock (tl td : List Code) (sb : List Symbol) (last : Bool) (w : Writer) : Res Writer :=
  (encHeader tl td w).andThen fun w => (writeSymbols tl td sb w).andThen (writeEnd tl last)

theorem writeSymbols_emits (tl td : List Code) (sb : List Symbol) : Emits (writeSymbols tl td sb) := by
  induction sb with
  | nil => exact emits_ok
  | cons sym sb ih => exact (writeSymbol_emits tl td sym).andThen ih

theorem writeEnd_emits (tl : List Code) (last : Bool) : Emits (writeEnd tl last) := by
  cases last with
  | false => exact emits_ok
  | true => exact wrWrite_emits _ _

theorem writeBlock_emits (tl td : List Code) (sb : List Symbol) (last : Bool) : Emits (writeBlock tl td sb last) := by
  have hheader : Emits (encHeader tl td) := ⟨headerBits tl td, false, by rw [encHeader_eq, emit_false]⟩
  exact hheader.andThen ((writeSymbols_emits tl td sb).andThen (writeEnd_emits tl last))

theorem writeSymbols_eq {tl td : List Code} (htl : ∀ id, (codeAt tl id).len.toNat ≤ 45)
    (htd : ∀ id, (codeAt td id).len.toNat ≤ 45) {sb : List Symbol} (h : ∀ sym ∈ sb, sym.legal = true) :
    writeSymbols tl td sb = pushBits (symbolsBits tl td sb) := by
  induction sb with
  | nil => rfl
  | cons sym sb ih =>
    funext w
    rw [writeSymbols, symbolsBits, pushBits_append, writeSymbol_eq htl htd (h sym List.mem_cons_self),
      ih fun s hs => h s (List.mem_cons_of_mem _ hs)]

/-- Under codes of at most 45 bits a block of legal symbols is its bit string appended (R206). -/
theorem writeBlock_eq {tl td : List Code} (htl : ∀ id, (codeAt tl id).len.toNat ≤ 45)
    (htd : ∀ id, (codeAt td id).len.toNat ≤ 45) {sb : List Symbol} (h : ∀ sym ∈ sb, sym.legal = true) (last : Bool) :
    writeBlock tl td sb last = pushBits (blockBitsWith tl td sb last) := by
  have hend : writeEnd tl last = pushBits (endBits tl last) := by
    cases last with
    | false => rfl
    | true => exact writeCode_eq (htl eos)
  have hemit : ∀ w, (writeSymbols tl td sb w).andThen (writeEnd tl last) =
      pushBits (symbolsBits tl td sb ++ endBits tl last) w := fun w => by
    rw [pushBits_append, writeSymbols_eq htl htd h, hend]
  funext w
  rw [writeBlock, blockBitsWith, pushBits_append, encHeader_eq]
  exact congrArg _ (funext hemit)

/-- The encoder once a block of these symbols has been counted and its codes built (R201, R202). -/
def builtFor (sb : List Symbol) (e : Encoder) : Encoder :=
  encBuild ((e.setFl (freqLL sb e.isLast)).setFd (freqD sb))

theorem encBuild_tables (e : Encoder) :
    (encBuild e).tl = codesOf e.fl nLL ∧ (encBuild e).td = codesOf e.fd nD ∧ (encBuild e).isLast = e.isLast :=
  ⟨rfl, rfl, rfl⟩

theorem builtFor_tables (sb : List Symbol) (e : Encoder) :
    (builtFor sb e).tl = codesOf (freqLL sb e.isLast) nLL ∧ (builtFor sb e).td = codesOf (freqD sb) nD ∧
      (builtFor sb e).isLast = e.isLast :=
  encBuild_tables _

/-- The state in which emission ends or stops: SB has lost symbols from its front and the writer has been written. -/
def State.emitted (s : State) (rest : List Symbol) (w : Writer) : State :=
  (s.setMatcher (s.matcher.setSb rest)).setWriter w

/-- Emission runs the writer's part over SB, symbol by symbol (R204). -/
theorem emitLoop_eq {sb : List Symbol} {s : State} (hsb : s.matcher.sb = sb) :
    (∃ w, writeSymbols s.encoder.tl s.encoder.td sb s.writer = .ok w ∧ emitLoop sb s = .ok (s.emitted [] w)) ∨
    ∃ c w rest, rest <:+ sb ∧ writeSymbols s.encoder.tl s.encoder.td sb s.writer = .stop c w ∧
      emitLoop sb s = .stop c (s.emitted rest w) := by
  induction sb generalizing s with
  | nil =>
    refine .inl ⟨s.writer, rfl, congrArg Res.ok ?_⟩
    cases s with
    | mk matcher encoder writer =>
      cases matcher
      cases hsb
      rfl
  | cons sym rest ih =>
    rw [emitLoop, writeSymbols]
    cases hw : writeSymbol s.encoder.tl s.encoder.td sym s.writer with
    | stop c w =>
      refine .inr ⟨c, w, rest, List.suffix_cons _ _, rfl, ?_⟩
      rw [onWriter_stop (s := s.setMatcher (s.matcher.setSb rest)) hw]
      rfl
    | ok w =>
      rw [onWriter_ok (s := s.setMatcher (s.matcher.setSb rest)) hw]
      rcases ih (s := s.emitted rest w) rfl with ⟨v, hv, hloop⟩ | ⟨c, v, rest', hsuffix, hv, hloop⟩
      · exact .inl ⟨v, hv, hloop⟩
      · exact .inr ⟨c, v, rest', hsuffix.trans (List.suffix_cons _ _), hv, hloop⟩

/-- `ENC_EMIT` runs its writer's part over SB (R204, R205). -/
theorem encEmit_eq (s : State) :
    let r := (writeSymbols s.encoder.tl s.encoder.td s.matcher.sb s.writer).andThen (writeEnd s.encoder.tl s.encoder.isLast)
    (∃ w, r = .ok w ∧ encEmit s = .ok (s.emitted [] w)) ∨
    ∃ c w rest, rest <:+ s.matcher.sb ∧ r = .stop c w ∧ encEmit s = .stop c (s.emitted rest w) := by
  intro r
  rcases emitLoop_eq (s := s) rfl with ⟨w, hw, hloop⟩ | ⟨c, w, rest, hsuffix, hw, hloop⟩
  · have hr : r = writeEnd s.encoder.tl s.encoder.isLast w := by simp only [r, hw, Res.andThen_ok]
    have hemit : encEmit s = (writeEnd s.encoder.tl s.encoder.isLast w).map (s.emitted []) := by
      rw [encEmit, hloop, Res.andThen_ok]
      show (if s.encoder.isLast then onWriter (writeLiteral s.encoder.tl eos) (s.emitted [] w) else .ok (s.emitted [] w)) = _
      unfold writeEnd onWriter
      cases s.encoder.isLast <;> rfl
    rw [hr, hemit]
    cases hend : writeEnd s.encoder.tl s.encoder.isLast w with
    | ok v => exact .inl ⟨v, rfl, rfl⟩
    | stop c v => exact .inr ⟨c, v, [], List.nil_suffix, rfl, rfl⟩
  · refine .inr ⟨c, w, rest, hsuffix, by simp only [r, hw, Res.andThen_stop], ?_⟩
    rw [encEmit, hloop, Res.andThen_stop]

/-- Once its codes are built, a block runs its writer's part: it completes with SB empty, or stops in the header or in the
emission (R206). -/
theorem writeBlock_phases (s : State) (e : Encoder) :
    let r := writeBlock e.tl e.td s.matcher.sb e.isLast s.writer
    let block := (onWriter (encHeader e.tl e.td) ((s.setEncoder e).setPhase .header)).andThen fun s => encEmit (s.setPhase .emit)
    (∃ w, r = .ok w ∧ block = .ok (((s.setEncoder e).setPhase .emit).emitted [] w)) ∨
    ∃ c w rest p, rest <:+ s.matcher.sb ∧ r = .stop c w ∧ block = .stop c (((s.setEncoder e).setPhase p).emitted rest w) := by
  dsimp only
  cases hheader : encHeader e.tl e.td s.writer with
  | stop c w =>
    refine .inr ⟨c, w, s.matcher.sb, .header, List.suffix_refl _, by rw [writeBlock, hheader, Res.andThen_stop], ?_⟩
    rw [onWriter_stop (s := (s.setEncoder e).setPhase .header) hheader]
    rfl
  | ok w =>
    rw [onWriter_ok (s := (s.setEncoder e).setPhase .header) hheader, Res.andThen_ok, writeBlock, hheader, Res.andThen_ok]
    rcases encEmit_eq ((((s.setEncoder e).setPhase .header).setWriter w).setPhase .emit) with
      ⟨v, hv, hemit⟩ | ⟨c, v, rest, hsuffix, hv, hemit⟩
    · exact .inl ⟨v, hv, hemit⟩
    · exact .inr ⟨c, v, rest, .emit, hsuffix, hv, hemit⟩

theorem encBlock_of_count {s : State} {e : Encoder} (h : encCount s.matcher.sb s.encoder = .ok e) :
    encBlock s = (onWriter (encHeader (encBuild e).tl (encBuild e).td) ((s.setEncoder (encBuild e)).setPhase .header)).andThen
      fun s => encEmit (s.setPhase .emit) := by
  rw [encBlock, h]
  rfl

/-- A block of legal symbols is counted, built and written (R206). -/
theorem encBlock_eq {s : State} (hlegal : ∀ sym ∈ s.matcher.sb, sym.legal = true) {e : Encoder}
    (he : builtFor s.matcher.sb s.encoder = e) :
    (∃ w, writeBlock e.tl e.td s.matcher.sb e.isLast s.writer = .ok w ∧
      encBlock s = .ok (((s.setEncoder e).setPhase .emit).emitted [] w)) ∨
    ∃ c w rest p, rest <:+ s.matcher.sb ∧ writeBlock e.tl e.td s.matcher.sb e.isLast s.writer = .stop c w ∧
      encBlock s = .stop c (((s.setEncoder e).setPhase p).emitted rest w) := by
  rw [encBlock_of_count (countGivesTheFrequencies s.matcher.sb s.encoder hlegal), ← builtFor, he]
  exact writeBlock_phases s e

/-- The writer's part of a block within the counters' range is the block's bit string appended (R206). -/
theorem writeBlock_builtFor {sb : List Symbol} (hlegal : ∀ sym ∈ sb, sym.legal = true) (hsb : sb.length + 1 < 2 ^ 32)
    (e : Encoder) : writeBlock (builtFor sb e).tl (builtFor sb e).td sb (builtFor sb e).isLast =
      pushBits (blockBits sb e.isLast) := by
  obtain ⟨htl, htd, hlast⟩ := builtFor_tables sb e
  have hcodes := block_code_len hsb e.isLast
  rw [htl, htd, hlast, blockBits]
  exact writeBlock_eq (fun id => (hcodes id).1) (fun id => (hcodes id).2) hlegal _

/-- Settles O58: the block's codes have at most 45 bits, so every write is its bits appended, and the sink takes them all. -/
theorem blockEncoderWritesTheBlock : Obligations.BlockEncoderWritesTheBlock := by
  intro s hlegal hsb hpend bits htakes
  obtain ⟨w, hrun, happended⟩ := pushBits_appends bits s.writer hpend htakes
  rw [← writeBlock_builtFor hlegal hsb s.encoder] at hrun
  have hlast : (builtFor s.matcher.sb s.encoder).isLast = s.encoder.isLast := (builtFor_tables _ _).2.2
  generalize he : builtFor s.matcher.sb s.encoder = e at hrun hlast
  rcases encBlock_eq hlegal he with ⟨v, hv, hblock⟩ | ⟨c, v, rest, p, -, hv, -⟩
  · cases hrun.symm.trans hv
    exact ⟨_, hblock, happended, rfl, hlast, rfl, rfl⟩
  · cases hrun.symm.trans hv

/-! ### The empty blocks (R206, R256) -/

theorem bytesBits_zeros (n : Nat) : bytesBits (List.replicate n 0) = List.replicate (8 * n) false := by
  induction n with
  | zero => rfl
  | succ n ih =>
    rw [List.replicate_succ, bytesBits, ih, Nat.mul_succ, Nat.add_comm, ← List.replicate_append_replicate]
    rfl

/-- With the end of the block as its one symbol, a block's distance table has no code (R165). -/
theorem codesOf_freqD_eob : codesOf (freqD [.lit 256]) nD = List.replicate nD ⟨0, 0⟩ :=
  codesOf_of_one_leaf (by decide +kernel) nD

/-- The codes of the empty final block: the end of the block is 0 and the end of the stream is 1 (R162, R324). -/
theorem codesOf_freqLL_eob_final :
    codesOf (freqLL [.lit 256] true) nLL = ((List.replicate nLL ⟨0, 0⟩).set 256 ⟨0, 1⟩).set 286 ⟨1, 1⟩ := by
  decide +kernel

theorem symbolsBits_eob (tl td : List Code) : symbolsBits tl td [.lit 256] = codeBits (codeAt tl 256) :=
  List.append_nil _

/-- The empty block (R256): the end of the block is its one id, and has no code. -/
theorem blockBits_eob : blockBits [.lit 256] false = List.replicate 2536 false := by
  have hll : codesOf (freqLL [.lit 256] false) nLL = List.replicate nLL ⟨0, 0⟩ :=
    codesOf_of_one_leaf (by decide +kernel) nLL
  have hcode : codeAt (List.replicate nLL ⟨0, 0⟩) 256 = ⟨0, 0⟩ := codeAt_replicate _ _
  have hnone : codeBits ⟨0, 0⟩ = [] := rfl
  rw [blockBits, blockBitsWith, hll, codesOf_freqD_eob, headerBits_eq, List.replicate_append_replicate, List.map_replicate,
    symbolsBits_eob, hcode, hnone, endBits, if_neg (by decide), List.append_nil, List.append_nil]
  exact bytesBits_zeros 317

/-- The empty final block (R324). -/
theorem blockBits_eob_final : blockBits [.lit 256] true =
    bytesBits (((List.replicate 317 (0 : Byte)).set 256 1).set 286 1) ++ [false, true] := by
  have hlens : List.map Code.len (((List.replicate nLL ⟨0, 0⟩).set 256 ⟨0, 1⟩).set 286 ⟨1, 1⟩ ++ List.replicate nD ⟨0, 0⟩) =
      ((List.replicate 317 (0 : Byte)).set 256 1).set 286 1 := by decide +kernel
  have hcodes : codeBits (codeAt (((List.replicate nLL ⟨0, 0⟩).set 256 ⟨0, 1⟩).set 286 ⟨1, 1⟩) 256) = [false] ∧
      codeBits (codeAt (((List.replicate nLL ⟨0, 0⟩).set 256 ⟨0, 1⟩).set 286 ⟨1, 1⟩) 286) = [true] := by decide +kernel
  obtain ⟨heob, heos⟩ := hcodes
  rw [blockBits, blockBitsWith, codesOf_freqLL_eob_final, codesOf_freqD_eob, headerBits_eq, hlens, symbolsBits_eob, heob,
    endBits, if_pos rfl, eos, heos]
  rfl

/-- Settles O30: the empty block uses one id, or two of weight 1 when final. -/
theorem emptyBlocks : Obligations.EmptyBlocks := by
  refine And.intro (fun w => ?_) (And.intro blockBits_eob blockBits_eob_final)
  rw [chunkSymbols_eq, parse_nil]
  rfl

end Sys2Proof.Machine

namespace Sys2Proof.Machine

/-! ### The meanings of the rows by kind (R107) -/

theorem exec_symbolRow {i : Instr} {sym : Symbol} (h : rowSymbol? i = some sym) : exec i = unitOp (pushSymbol sym) := by
  cases i with
  | symLit | symEob | symEos | symPtr => cases h; rfl
  | _ => cases h

theorem exec_literalRow {i : Instr} {id : Nat} (h : rowLiteralId? i = some id) : exec i = unitOp (emitLiteralId id) := by
  cases i with
  | llLiteral | llEob | llEos => cases h; rfl
  | _ => cases h

theorem exec_lengthRow {i : Instr} {k x : Nat} (h : i.lengthCode? = some (k, x)) : exec i = unitOp (emitLengthId k x) := by
  cases i with
  | llLen0 | llLen1 | llLen2 | llLen3 | llLen4 | llLen5 | llLen6 | llLen7 | llLen28 => cases h; rfl
  | llLen8 | llLen9 | llLen10 | llLen11 | llLen12 | llLen13 | llLen14 | llLen15 | llLen16 | llLen17 | llLen18 | llLen19
  | llLen20 | llLen21 | llLen22 | llLen23 | llLen24 | llLen25 | llLen26 | llLen27 => cases h; rfl
  | _ => cases h

theorem exec_distanceRow {i : Instr} {k x : Nat} (h : i.distanceCode? = some (k, x)) :
    exec i = unitOp (emitDistanceId k x) := by
  cases i with
  | dDist0 | dDist1 | dDist2 | dDist3 => cases h; rfl
  | dDist4 | dDist5 | dDist6 | dDist7 | dDist8 | dDist9 | dDist10 | dDist11 | dDist12 | dDist13 | dDist14 | dDist15 | dDist16
  | dDist17 | dDist18 | dDist19 | dDist20 | dDist21 | dDist22 | dDist23 | dDist24 | dDist25 | dDist26 | dDist27 | dDist28
  | dDist29 => cases h; rfl
  | _ => cases h

theorem exec_hdrField (l : BitVec 8) : exec (.hdrField l) = unitOp (withinBound l (onWriter (writeField l))) := rfl

/-- A row of the format SYM has a symbol (R93). -/
theorem exists_rowSymbol {i : Instr} (h : i.format = .sym) : ∃ sym, rowSymbol? i = some sym := by
  cases i with
  | symLit | symEob | symEos | symPtr => exact ⟨_, rfl⟩
  | _ => cases h

/-- A row of the format LLID has a literal id or a length code (R94). -/
theorem exists_llidRow {i : Instr} (h : i.format = .llid) :
    (∃ id, rowLiteralId? i = some id) ∨ ∃ k x, i.lengthCode? = some (k, x) := by
  cases i with
  | llLiteral | llEob | llEos => exact .inl ⟨_, rfl⟩
  | llLen0 | llLen1 | llLen2 | llLen3 | llLen4 | llLen5 | llLen6 | llLen7 | llLen28 => exact .inr ⟨_, _, rfl⟩
  | llLen8 | llLen9 | llLen10 | llLen11 | llLen12 | llLen13 | llLen14 | llLen15 | llLen16 | llLen17 | llLen18 | llLen19
  | llLen20 | llLen21 | llLen22 | llLen23 | llLen24 | llLen25 | llLen26 | llLen27 => exact .inr ⟨_, _, rfl⟩
  | _ => cases h

/-- A row of the format DID has a distance code (R95). -/
theorem exists_didRow {i : Instr} (h : i.format = .did) : ∃ k x, i.distanceCode? = some (k, x) := by
  cases i with
  | dDist0 | dDist1 | dDist2 | dDist3 => exact ⟨_, _, rfl⟩
  | dDist4 | dDist5 | dDist6 | dDist7 | dDist8 | dDist9 | dDist10 | dDist11 | dDist12 | dDist13 | dDist14 | dDist15 | dDist16
  | dDist17 | dDist18 | dDist19 | dDist20 | dDist21 | dDist22 | dDist23 | dDist24 | dDist25 | dDist26 | dDist27 | dDist28
  | dDist29 => exact ⟨_, _, rfl⟩
  | _ => cases h

theorem exists_hdrRow {i : Instr} (h : i.format = .hdr) : ∃ l, i = .hdrField l := by
  cases i with
  | hdrField l => exact ⟨l, rfl⟩
  | _ => cases h

theorem exists_stsRow {i : Instr} (h : i.format = .sts) : ∃ f n c, i = .status f n c := by
  cases i with
  | status f n c => exact ⟨f, n, c, rfl⟩
  | _ => cases h

/-! ### The symbol rows (R93, R102) -/

/-- A symbol row's symbol is legal exactly when the row is well formed (R102). -/
theorem legal_rowSymbol {i : Instr} {sym : Symbol} (h : rowSymbol? i = some sym) : sym.legal = i.wellFormed := by
  cases i with
  | symLit v =>
    cases h
    refine decide_eq_true (.inl ?_)
    rw [BitVec.toNat_setWidth_of_le (by decide)]
    exact Nat.le_of_lt v.isLt
  | symEob | symEos | symPtr => cases h; rfl
  | _ => cases h

theorem pushSymbol_ok {sym : Symbol} {s : State} (h : sym.legal = true) (hroom : s.matcher.sb.length ≤ Config.chunkMax) :
    pushSymbol sym s = .ok (s.setMatcher (s.matcher.setSb (s.matcher.sb ++ [sym]))) :=
  if_pos ⟨h, hroom⟩

theorem pushSymbol_refused {sym : Symbol} {s : State} (h : sym.legal = false ∨ Config.chunkMax < s.matcher.sb.length) :
    pushSymbol sym s = .stop .fRange s := by
  refine if_neg fun ⟨hlegal, hroom⟩ => ?_
  rcases h with h | h
  · rw [h] at hlegal
    cases hlegal
  · omega

/-- Settles O31: a legal symbol that finds a cell joins SB, and any other is refused. -/
theorem symbolRowsPassIntoTheSymbolBuffer : Obligations.SymbolRowsPassIntoTheSymbolBuffer := by
  intro i sym s hrow hfault
  have hlegal := legal_rowSymbol hrow
  rw [exec_symbolRow hrow, unitOp_runs hfault, ← hlegal]
  refine ⟨fun h hroom => ?_, fun h => ?_⟩
  · rw [pushSymbol_ok h hroom, settle_ok]
  · rw [pushSymbol_refused h, settle_stop]

/-! ### The id rows and the header field (R97 to R99, R103) -/

/-- A write of bits the sink takes completes a unit operation with exactly those bits appended. -/
theorem settle_pushBits {s t : State} {bits : List Bool} (hwriter : t.writer = s.writer) (hpend : s.writer.pend.length ≤ 7)
    (htakes : s.writer.sinkTakes (s.writer.bytesDue bits)) :
    ∃ w', settle (onWriter (pushBits bits) t) = .next (t.setWriter w') ∧ s.writer.Appended w' bits := by
  obtain ⟨w', hrun, happ⟩ := pushBits_appends bits s.writer hpend htakes
  refine ⟨w', ?_, happ⟩
  rw [onWriter_ok (hwriter ▸ hrun), settle_ok]

/-- Settles O32: a code of at most 45 bits is written as its bits. -/
theorem literalIdRowsWriteTheirCode : Obligations.LiteralIdRowsWriteTheirCode := by
  intro i id s hrow hfault hpend c hlen htakes
  rw [exec_literalRow hrow, unitOp_runs hfault, emitLiteralId, withinBound_le hlen, writeCode_eq hlen]
  exact settle_pushBits (drawn_writer s) hpend htakes

/-- Offset 31 of length code 27 is the one offset that reaches length 258 (R194). -/
theorem lengthRow_reaches_258 {i : Instr} {k x : Nat} (h : i.lengthCode? = some (k, x)) :
    (lenBase.getD k 0 + x = 258 ∧ k ≠ 28) ↔ i.wellFormed = false := by
  have below : ∀ {n : Nat} (y : BitVec n) (b : Nat), b + 2 ^ n ≤ 258 → b + y.toNat ≠ 258 := fun y b hb => by
    have := y.isLt
    omega
  cases i with
  | llLen27 y =>
    cases h
    have hbase : lenBase.getD 27 0 = 227 := rfl
    simp only [hbase, Instr.wellFormed, decide_eq_false_iff_not, Classical.not_not]
    omega
  | llLen0 | llLen1 | llLen2 | llLen3 | llLen4 | llLen5 | llLen6 | llLen7 | llLen28 =>
    cases h
    decide
  | llLen8 y | llLen9 y | llLen10 y | llLen11 y | llLen12 y | llLen13 y | llLen14 y | llLen15 y | llLen16 y | llLen17 y
  | llLen18 y | llLen19 y | llLen20 y | llLen21 y | llLen22 y | llLen23 y | llLen24 y | llLen25 y | llLen26 y =>
    cases h
    exact iff_of_false (fun h => below y _ (by decide) h.1) Bool.noConfusion
  | _ => cases h

/-- Settles O33: a well-formed row is not refused, and its code and extra bits are written as their bits. -/
theorem lengthIdRowsWriteCodeAndExtraBits : Obligations.LengthIdRowsWriteCodeAndExtraBits := by
  refine ⟨?_, fun s hfault => ?_⟩
  · intro i k x s hrow hwf hfault hpend hlen bits htakes
    have hinside : ¬ (lenBase.getD k 0 + x = 258 ∧ k ≠ 28) := by
      rw [lengthRow_reaches_258 hrow, hwf]
      decide
    rw [exec_lengthRow hrow, unitOp_runs hfault, emitLengthId, if_neg hinside, withinBound_le hlen,
      writeCodeExtra_eq hlen x (extra_le k).1]
    exact settle_pushBits (drawn_writer s) hpend htakes
  · rw [exec_lengthRow rfl, unitOp_runs hfault, emitLengthId, if_pos (by decide), settle_stop]

/-- Settles O34: the code and the extra bits are written as their bits. -/
theorem distanceIdRowsWriteCodeAndExtraBits : Obligations.DistanceIdRowsWriteCodeAndExtraBits := by
  intro i k x s hrow hfault hpend hlen bits htakes
  rw [exec_distanceRow hrow, unitOp_runs hfault, emitDistanceId, withinBound_le hlen, writeCodeExtra_eq hlen x (extra_le k).2]
  exact settle_pushBits (drawn_writer s) hpend htakes

theorem byteBits_inj {a b : Byte} (h : byteBits a = byteBits b) : a = b := by
  have hbits : ∀ k < 8, a.getLsbD k = b.getLsbD k := by
    simp only [byteBits, List.cons.injEq, and_true] at h
    obtain ⟨h7, h6, h5, h4, h3, h2, h1, h0⟩ := h
    intro k hk
    match k, hk with
    | 0, _ => exact h0
    | 1, _ => exact h1
    | 2, _ => exact h2
    | 3, _ => exact h3
    | 4, _ => exact h4
    | 5, _ => exact h5
    | 6, _ => exact h6
    | 7, _ => exact h7
  exact BitVec.eq_of_getLsbD_eq hbits

/-- Settles O35: a value within the bound is written as its byte, which is the event when nothing is pending. -/
theorem headerFieldRowWritesEightBits : Obligations.HeaderFieldRowWritesEightBits := by
  intro l s hfault
  rw [exec_hdrField, unitOp_runs hfault]
  refine ⟨fun hl hpend htakes => ?_, fun hl => by rw [withinBound_over hl, settle_stop]⟩
  rw [withinBound_le hl, writeField_eq]
  have hdue : s.writer.bytesDue (byteBits l) ≤ 1 := by
    unfold Writer.bytesDue
    rw [byteBits_length]
    omega
  obtain ⟨w', hrun, happ⟩ := settle_pushBits (t := s) rfl hpend (sinkTakes_mono htakes hdue)
  refine ⟨w', hrun, happ, fun hempty => ?_⟩
  obtain ⟨bytes, hout, hbits⟩ := happ.forwarded
  obtain ⟨-, hlen, -⟩ := happ
  rw [hempty, byteBits_length] at hlen
  have hpend' : w'.pend = [] := List.length_eq_zero_iff.mp hlen
  rw [hempty, hpend', List.append_nil, List.nil_append] at hbits
  have hone : bytes.length = 1 := by
    have := congrArg List.length hbits
    rw [bytesBits_length, byteBits_length] at this
    omega
  obtain ⟨b, rfl⟩ := List.length_eq_one_iff.mp hone
  rw [bytesBits, bytesBits, List.append_nil] at hbits
  rw [byteBits_inj hbits] at hout
  exact ⟨hout, hpend'⟩

/-- The refusal of an overlong code changes the counter of free codes at most, and that only where the code is free, which is
never overlong (U21). -/
theorem drawn_of_overlong {s : State} {c : Code} (hfree : s.holdsCodes = false → c.len.toNat ≤ 45) (hc : 45 < c.len.toNat) :
    s.drawn = s := by
  cases h : s.holdsCodes with
  | false => exact absurd (hfree h) (Nat.not_le_of_lt hc)
  | true => exact (codes_held h).2.2

/-- A free code is within the bound (R37). -/
theorem free_code_len {s : State} (h : s.holdsCodes = false) (id : Nat) :
    (s.llCode id).len.toNat ≤ 45 ∧ (s.dCode id).len.toNat ≤ 45 := by
  obtain ⟨hll, hd, -⟩ := codes_free h
  rw [hll, hd]
  exact ⟨freeRowCode_len _ _, freeRowCode_len _ _⟩

/-- Settles O36: the bound is checked before anything is written, and a free code is within it. -/
theorem idRowsRefuseAnOverlongCode : Obligations.IdRowsRefuseAnOverlongCode := by
  intro i s hfault
  refine ⟨fun id hrow hlong => ?_, fun k x hrow hlong => ?_, fun k x hrow hlong => ?_, fun hfree => free_code_len hfree⟩
  · rw [exec_literalRow hrow, unitOp_runs hfault, emitLiteralId, withinBound_over hlong, settle_stop,
      drawn_of_overlong (fun h => (free_code_len h id).1) hlong]
  · have hstop : emitLengthId k x s = .stop .fRange s := by
      rw [emitLengthId, withinBound_over hlong, drawn_of_overlong (fun h => (free_code_len h (257 + k)).1) hlong, ite_self]
    rw [exec_lengthRow hrow, unitOp_runs hfault, hstop, settle_stop]
  · rw [exec_distanceRow hrow, unitOp_runs hfault, emitDistanceId, withinBound_over hlong, settle_stop,
      drawn_of_overlong (fun h => (free_code_len h k).2) hlong]

/-! ### The status word and reset (R35, R41, R310) -/

/-- The fields of the status word, read back (R91). -/
theorem status_fields : ∀ (f : Bool) (n c : BitVec 3),
    (BitVec.ofBool f ++ (0#1 ++ (n ++ c))).extractLsb' 0 3 = c ∧
    (BitVec.ofBool f ++ (0#1 ++ (n ++ c))).extractLsb' 3 3 = n ∧
    (BitVec.ofBool f ++ (0#1 ++ (n ++ c))).getLsbD 6 = false ∧
    (BitVec.ofBool f ++ (0#1 ++ (n ++ c))).getLsbD 7 = f := by decide

theorem code_ne_zero_iff (c : FaultCode) : c.code ≠ 0 ↔ c ≠ .fNone := by
  cases c <;> decide

/-- Settles O37: the status word is its fields side by side, and sampling it writes the record alone. -/
theorem statusIsSampledAndNotWritten : Obligations.StatusIsSampledAndNotWritten := by
  intro s f n c
  obtain ⟨hfault, hn, h6, h7⟩ := status_fields s.fin s.nbits s.fault.code
  exact ⟨hfault, hn, h6, h7, by rw [State.faultOut, decide_eq_true_iff, code_ne_zero_iff], rfl⟩

/-- Settles O14: the fault entry writes FAULT and PHASE, and nothing once a fault stands. -/
theorem raiseTakesTheFault : Obligations.RaiseTakesTheFault := by
  refine fun c s => ⟨rfl, raise_of_fault, fun hnone => ?_⟩
  rw [raise_of_none hnone]
  exact ⟨rfl, rfl, rfl, rfl, rfl, rfl, rfl, rfl, rfl, rfl⟩

/-- Settles O10: each element is a field of the literal. -/
theorem resetStateHoldsTheGivenValues : Obligations.ResetStateHoldsTheGivenValues :=
  ⟨rfl, rfl, rfl, rfl, rfl, rfl, rfl, rfl, rfl, rfl, rfl, rfl, rfl, rfl⟩

/-- With FIN and FAULT clear and nothing pending STATUS reads zero (R35, R41). -/
theorem status_eq_zero {s : State} (hfin : s.fin = false) (hpend : s.writer.pend = []) (hfault : s.fault = .fNone) :
    s.status = 0x00 := by
  rw [State.status, State.nbits, hfin, hpend, hfault]
  rfl

/-- Settles O9: a step that takes `rst` applies the reset. -/
theorem resetInputPutsEveryElementAtItsResetValue : Obligations.ResetInputPutsEveryElementAtItsResetValue := by
  intro s rest hinbox
  refine ⟨applyReset (s.setInbox rest), by rw [step, fetch_rst hinbox], ?_⟩
  exact ⟨rfl, rfl, rfl, rfl, rfl, rfl, rfl, rfl, rfl, rfl, rfl, status_eq_zero rfl rfl rfl, rfl, rfl, rfl⟩

/-- A reset meets the invariant from any state (R41). -/
theorem applyReset_inv (s : State) : (applyReset s).Inv := by
  refine ⟨⟨Nat.zero_le _, rfl, Nat.zero_le _, Nat.le_refl 0, Nat.zero_le _, fun sym h => absurd h List.not_mem_nil⟩,
    freeScratch_shape false _, Nat.zero_le _, .inl rfl, ?_, FaultCode.noConfusion⟩
  exact iff_of_false Phase.noConfusion fun h => h rfl

/-- Settles O11: the state after reset is that of a reset from itself but for the counter of free values. -/
theorem invariantHoldsAtReset : Obligations.InvariantHoldsAtReset := by
  obtain ⟨hmatcher, -, hrest⟩ := applyReset_inv State.reset
  exact ⟨hmatcher, freeScratch_shape false 0, hrest⟩

end Sys2Proof.Machine

namespace Sys2Proof.Machine

/-! ### What an operation of the writer can do under any sink (R32, R285, R292) -/

/-- A writer with the same stream so far, whose sink is going to answer `ok` a number of times. -/
def Writer.Trusts (w w' : Writer) : Prop :=
  w'.pend = w.pend ∧ w'.out = w.out ∧ ∃ n, w'.answers = List.replicate n .ok

/-- An operation that only appends to OUT, and that under a sink that never fails delivers what it delivers under any other
and perhaps more: `draws_le` says that the counter of free answers tells whether the answers given were enough. -/
structure Sending (f : Writer → Res Writer) : Prop where
  draws_le : ∀ w, w.draws ≤ (f w).state.draws
  out_prefix : ∀ w, w.out <+: (f w).state.out
  follows : ∀ w w', w.Trusts w' → (f w').state.draws = w'.draws →
    (∃ v v', f w = .ok v ∧ f w' = .ok v' ∧ v.Trusts v') ∨ ∃ c v, f w = .stop c v ∧ v.out <+: (f w').state.out

/-- An operation that completes at once and touches nothing of the sink. -/
theorem sending_setPend (p : List Bool) : Sending fun w => .ok (w.setPend p) where
  draws_le _ := Nat.le_refl _
  out_prefix _ := List.prefix_refl _
  follows _ _ h _ := .inl ⟨_, _, rfl, rfl, rfl, h.2⟩

theorem sending_ok : Sending Res.ok where
  draws_le _ := Nat.le_refl _
  out_prefix _ := List.prefix_refl _
  follows _ _ h _ := .inl ⟨_, _, rfl, rfl, h⟩

theorem sending_stop (c : FaultCode) : Sending (Res.stop c) where
  draws_le _ := Nat.le_refl _
  out_prefix _ := List.prefix_refl _
  follows _ _ h _ := .inr ⟨_, _, rfl, h.2.1 ▸ List.prefix_refl _⟩

theorem Sending.andThen {f g : Writer → Res Writer} (hf : Sending f) (hg : Sending g) :
    Sending fun w => (f w).andThen g where
  draws_le w := by
    have hfirst := hf.draws_le w
    cases hw : f w with
    | ok v => rw [hw] at hfirst; exact Nat.le_trans hfirst (hg.draws_le v)
    | stop c v => rw [hw] at hfirst; exact hfirst
  out_prefix w := by
    have hfirst := hf.out_prefix w
    cases hw : f w with
    | ok v => rw [hw] at hfirst; exact hfirst.trans (hg.out_prefix v)
    | stop c v => rw [hw] at hfirst; exact hfirst
  follows w w' hww' hdraws := by
    have hle := hf.draws_le w'
    have hstep := hf.follows w w' hww'
    cases hw' : f w' with
    | stop c' v' =>
      rw [hw'] at hdraws hstep
      rcases hstep hdraws with ⟨-, v, -, hv, -⟩ | ⟨c, v, hv, hout⟩
      · cases hv
      · exact .inr ⟨c, v, by rw [hv]; rfl, hout⟩
    | ok v' =>
      rw [hw'] at hdraws hstep hle
      have hle' := hg.draws_le v'
      simp only [Res.andThen_ok, Res.state_ok] at hdraws hle hstep
      rcases hstep (by omega) with ⟨v, u', hv, hu', htrusts⟩ | ⟨c, v, hv, hout⟩
      · cases hu'
        rw [hv]
        exact hg.follows v v' htrusts (by omega)
      · exact .inr ⟨c, v, by rw [hv]; rfl, hout.trans (hg.out_prefix v')⟩

/-- The operation may be chosen by what is pending. -/
theorem Sending.byPend {f : List Bool → Writer → Res Writer} (hf : ∀ p, Sending (f p)) : Sending fun w => f w.pend w where
  draws_le w := (hf w.pend).draws_le w
  out_prefix w := (hf w.pend).out_prefix w
  follows w w' h := by
    rw [h.1]
    exact (hf w.pend).follows w w' h

/-- An offer uses one answer (R70, R71): of those the sink is going to give, or else a free one. -/
theorem offer_sending (ev : SinkEvent) : Sending (offer ev) where
  draws_le w := by
    have hdrop : w.draws ≤ w.dropAnswer.draws := by
      unfold Writer.dropAnswer
      split
      · exact Nat.le_refl _
      · exact Nat.le_succ _
    rcases offer_cases ev w with ⟨-, h⟩ | ⟨-, h⟩ <;> rw [h] <;> exact hdrop
  out_prefix w := by
    rcases offer_cases ev w with ⟨-, h⟩ | ⟨-, h⟩ <;> rw [h]
    · exact List.prefix_append _ _
    · exact dropAnswer_out w ▸ List.prefix_refl _
  follows w w' := by
    rintro ⟨hpend, hout, n, hanswers⟩ hdraws
    cases n with
    | zero =>
      have hdrop : w'.dropAnswer = w'.setDraws (w'.draws + 1) := by rw [Writer.dropAnswer, hanswers]; rfl
      rcases offer_cases ev w' with ⟨-, h⟩ | ⟨-, h⟩ <;> rw [h, hdrop] at hdraws <;>
        exact absurd hdraws (Nat.succ_ne_self _)
    | succ n =>
      have htaken := offer_ok (ev := ev) hanswers
      rw [htaken]
      rcases offer_cases ev w with ⟨-, h⟩ | ⟨-, h⟩
      · refine .inl ⟨_, _, h, rfl, ?_, ?_, n, rfl⟩
        · simpa using hpend
        · simp [hout]
      · exact .inr ⟨_, _, h, by simp [hout]⟩

theorem pushBit_sending (b : Bool) : Sending (pushBit b) := by
  refine Sending.byPend (f := fun p w => if (p ++ [b]).length = 8 then sinkByte (packByte (p ++ [b])) (w.setPend [])
    else .ok (w.setPend (p ++ [b]))) fun p => ?_
  split
  · exact (sending_setPend []).andThen (offer_sending _)
  · exact sending_setPend _

theorem pushBits_sending (bits : List Bool) : Sending (pushBits bits) := by
  induction bits with
  | nil => exact sending_ok
  | cons b bits ih => exact (pushBit_sending b).andThen ih

theorem emit_sending (bits : List Bool) (refused : Bool) : Sending (emit bits refused) := by
  cases refused with
  | false => exact (pushBits_sending bits).andThen sending_ok
  | true => exact (pushBits_sending bits).andThen (sending_stop .fRange)

theorem Emits.sending {f : Writer → Res Writer} (h : Emits f) : Sending f := by
  obtain ⟨bits, refused, rfl⟩ := h
  exact emit_sending bits refused

theorem wrFlush_sending : Sending wrFlush := by
  refine Sending.andThen (Sending.byPend (f := fun p w => if p.length > 0 then sinkByte (packByte p) (w.setPend [])
    else .ok w) fun p => ?_) (offer_sending .flushMark)
  split
  · exact (sending_setPend []).andThen (offer_sending _)
  · exact sending_ok

/-! ### Where it stops (R285, R287) -/

theorem offer_stop {ev : SinkEvent} {w v : Writer} {c : FaultCode} (h : offer ev w = .stop c v) : c = .fWrite := by
  rcases offer_cases ev w with ⟨-, ho⟩ | ⟨-, ho⟩ <;> rw [ho] at h <;> cases h
  rfl

theorem pushBits_stop {bits : List Bool} {w v : Writer} {c : FaultCode} (h : pushBits bits w = .stop c v) :
    c = .fWrite := by
  induction bits generalizing w with
  | nil => cases h
  | cons b bits ih =>
    rcases Res.andThen_eq_stop.mp h with hfirst | ⟨u, -, hrest⟩
    · rcases pushBit_cases b w with ⟨-, hb⟩ | ⟨-, hb⟩ <;> rw [hb] at hfirst
      · cases hfirst
      · exact offer_stop hfirst
    · exact ih hrest

theorem Emits.stop {f : Writer → Res Writer} (hf : Emits f) {w v : Writer} {c : FaultCode} (h : f w = .stop c v) :
    c = .fWrite ∨ c = .fRange := by
  obtain ⟨bits, refused, rfl⟩ := hf
  rcases Res.andThen_eq_stop.mp h with hfirst | ⟨u, -, hrest⟩
  · exact .inl (pushBits_stop hfirst)
  · cases refused <;> cases hrest
    exact .inr rfl

theorem wrFlush_stop {w v : Writer} {c : FaultCode} (h : wrFlush w = .stop c v) : c = .fWrite := by
  rcases Res.andThen_eq_stop.mp h with hfirst | ⟨u, -, hrest⟩
  · split at hfirst
    · exact offer_stop hfirst
    · cases hfirst
  · exact offer_stop hrest

/-- At most 7 bits stay pending (R31). -/
theorem Emits.pend_le {f : Writer → Res Writer} (hf : Emits f) {w : Writer} (hw : w.pend.length ≤ 7) :
    (f w).state.pend.length ≤ 7 := by
  obtain ⟨bits, refused, rfl⟩ := hf
  obtain ⟨hpend, -, -⟩ := pushBits_state bits w hw
  unfold emit
  cases hrun : pushBits bits w with
  | stop c v => rw [hrun] at hpend; exact hpend
  | ok v => rw [hrun] at hpend; cases refused <;> exact hpend

theorem wrFlush_empty {w : Writer} (h : w.pend = []) : wrFlush w = sinkFlush w := by
  unfold wrFlush
  rw [h]
  rfl

theorem wrFlush_pending {w : Writer} (h : w.pend ≠ []) :
    wrFlush w = (sinkByte (packByte w.pend) (w.setPend [])).andThen sinkFlush := by
  unfold wrFlush
  rw [if_pos (List.length_pos_iff.mpr h)]

theorem offer_pend (ev : SinkEvent) (w : Writer) : (offer ev w).state.pend = w.pend := by
  rcases offer_cases ev w with ⟨-, h⟩ | ⟨-, h⟩ <;> rw [h] <;> exact dropAnswer_pend w

/-- A flush empties PEND, wherever it stops (R232). -/
theorem wrFlush_pend (w : Writer) : (wrFlush w).state.pend = [] := by
  by_cases hempty : w.pend = []
  · rw [wrFlush_empty hempty, sinkFlush, offer_pend, hempty]
  · rw [wrFlush_pending hempty, sinkByte]
    have hbyte := offer_pend (.byte (packByte w.pend)) (w.setPend [])
    cases h : offer (.byte (packByte w.pend)) (w.setPend []) with
    | ok v =>
      rw [h] at hbyte
      rw [Res.andThen_ok, sinkFlush, offer_pend]
      exact hbyte
    | stop c v => rw [h] at hbyte; exact hbyte

/-! ### FLUSH (R232, R258) -/

theorem exec_flush {s : State} (hfault : s.fault = .fNone) : exec .flush s =
    settle ((onWriter wrFlush (s.setPhase .flushing)).andThen fun t => .ok (t.setPhase .idle)) := by
  show execFlush s = _
  exact command_runs hfault (.inr rfl)

theorem exec_flush_ok {s : State} {w : Writer} (hfault : s.fault = .fNone) (h : wrFlush s.writer = .ok w) :
    exec .flush s = .next ((s.setWriter w).setPhase .idle) := by
  rw [exec_flush hfault, onWriter_ok (s := s.setPhase .flushing) h, Res.andThen_ok, settle_ok]
  rfl

theorem exec_flush_stop {s : State} {w : Writer} (hfault : s.fault = .fNone) (h : wrFlush s.writer = .stop .fWrite w) :
    exec .flush s = .next (((s.setWriter w).setFault .fWrite).setPhase .halt) := by
  rw [exec_flush hfault, onWriter_stop (s := s.setPhase .flushing) h, Res.andThen_stop, settle_stop, raise_of_none]
  · rfl
  · exact hfault

/-- The padded byte is the pending bits and zeros below them (R232). -/
theorem byteBits_packByte_pad {p : List Bool} (hp : p.length ≤ 7) :
    byteBits (packByte p) = p ++ List.replicate (8 - p.length) false := by
  rw [← packByte_pad p (8 - p.length)]
  refine byteBits_packByte_of_length ?_
  rw [List.length_append, List.length_replicate]
  omega

/-- Settles O25: each request to the sink is taken. -/
theorem flushPadsAndFlushesTheSink : Obligations.FlushPadsAndFlushesTheSink := by
  refine fun s hfault hpend => ⟨fun hempty ⟨rest, hanswers⟩ => ?_,
    fun hne ⟨rest, hanswers⟩ => ⟨packByte s.writer.pend, byteBits_packByte_pad hpend, ?_⟩⟩
  · have hrun := (wrFlush_empty hempty).trans (offer_ok hanswers)
    rw [exec_flush_ok hfault hrun, hanswers]
    rfl
  · have hbyte := offer_ok (ev := .byte (packByte s.writer.pend)) (w := s.writer.setPend []) hanswers
    have hrun := wrFlush_pending hne
    rw [sinkByte, hbyte, Res.andThen_ok, sinkFlush, offer_ok rfl] at hrun
    rw [exec_flush_ok hfault hrun, hanswers]
    simp [State.setWriter, Writer.setPend, Writer.setOut, Writer.setAnswers, State.setPhase]

/-- Settles O26: the request that fails ends the flush. -/
theorem flushStopsWhereTheSinkFails : Obligations.FlushStopsWhereTheSinkFails := by
  refine fun s hfault hpend => ⟨fun ⟨rest, hanswers⟩ => ?_, fun hne ⟨rest, hanswers⟩ => ?_⟩
  · have hrun : wrFlush s.writer = .stop .fWrite ((s.writer.setPend []).setAnswers rest) := by
      by_cases hempty : s.writer.pend = []
      · rw [wrFlush_empty hempty, ← hempty]
        exact offer_fail hanswers
      · rw [wrFlush_pending hempty, sinkByte, offer_fail (w := s.writer.setPend []) hanswers, Res.andThen_stop]
    exact ⟨_, exec_flush_stop hfault hrun, rfl, rfl, rfl, rfl, rfl, rfl⟩
  · have hbyte := offer_ok (ev := .byte (packByte s.writer.pend)) (w := s.writer.setPend []) hanswers
    have hrun := wrFlush_pending hne
    rw [sinkByte, hbyte, Res.andThen_ok, sinkFlush, offer_fail rfl] at hrun
    exact ⟨_, packByte s.writer.pend, exec_flush_stop hfault hrun, rfl, rfl, byteBits_packByte_pad hpend, rfl, rfl, rfl, rfl⟩

end Sys2Proof.Machine

namespace Sys2Proof.Machine

/-! ### What each row runs once it is accepted (R253 to R259, log 7 to log 9) -/

theorem unitOp_eq_command (body : State → Res State) : unitOp body = command true body := by
  funext s
  simp [unitOp, command]

/-- `PUSH` once accepted (R255). -/
def pushByte (b : BitVec 8) (s : State) : Res State :=
  if s.matcher.cb.length = Config.chunkMax then .stop .fRange s
  else .ok (s.setMatcher (s.matcher.setCb (s.matcher.cb ++ [b])))

/-- `ENDS` once accepted (R257). -/
def endStream (s : State) : Res State := (endChunk true s).andThen fun s => .ok (s.setFin true)

/-- `FLUSH` once accepted (R258). -/
def flushAll (s : State) : Res State := (onWriter wrFlush (s.setPhase .flushing)).andThen fun s => .ok (s.setPhase .idle)

/-- The rows with an effect on CORE, each with whether it is accepted when FIN = 1 and with what it then runs. -/
inductive RowRuns : Instr → Bool → (State → Res State) → Prop where
  | nop : RowRuns .nop true .ok
  | push (b : BitVec 8) : RowRuns (.push b) false (pushByte b)
  | endc : RowRuns .endc false (endChunk false)
  | ends : RowRuns .ends false endStream
  | flush : RowRuns .flush true flushAll
  | rderr : RowRuns .rderr false (.stop .fRead)
  | symbol {i : Instr} {sym : Symbol} (hi : i.format = .sym) (h : rowSymbol? i = some sym) :
      RowRuns i true (pushSymbol sym)
  | literal {i : Instr} {id : Nat} (hi : i.format = .llid) (h : rowLiteralId? i = some id) :
      RowRuns i true (emitLiteralId id)
  | length {i : Instr} {k x : Nat} (hi : i.format = .llid) (h : i.lengthCode? = some (k, x)) :
      RowRuns i true (emitLengthId k x)
  | distance {i : Instr} {k x : Nat} (hi : i.format = .did) (h : i.distanceCode? = some (k, x)) :
      RowRuns i true (emitDistanceId k x)
  | header (l : BitVec 8) : RowRuns (.hdrField l) true (withinBound l (onWriter (writeField l)))

theorem RowRuns.exec_eq {i : Instr} {b : Bool} {body : State → Res State} (h : RowRuns i b body) :
    exec i = command b body := by
  cases h with
  | nop | push | endc | ends | flush | rderr => rfl
  | symbol _ h => rw [exec_symbolRow h, unitOp_eq_command]
  | literal _ h => rw [exec_literalRow h, unitOp_eq_command]
  | length _ h => rw [exec_lengthRow h, unitOp_eq_command]
  | distance _ h => rw [exec_distanceRow h, unitOp_eq_command]
  | header l => rw [exec_hdrField, unitOp_eq_command]

/-- Every row but STATUS has an effect on CORE. -/
theorem runs_or_status (i : Instr) : (∃ b body, RowRuns i b body) ∨ ∃ f n c, i = .status f n c := by
  cases hi : i.format with
  | cmd =>
    cases i with
    | nop => exact .inl ⟨_, _, .nop⟩
    | push b => exact .inl ⟨_, _, .push b⟩
    | endc => exact .inl ⟨_, _, .endc⟩
    | ends => exact .inl ⟨_, _, .ends⟩
    | flush => exact .inl ⟨_, _, .flush⟩
    | rderr => exact .inl ⟨_, _, .rderr⟩
    | _ => cases hi
  | sym =>
    obtain ⟨sym, h⟩ := exists_rowSymbol hi
    exact .inl ⟨_, _, .symbol hi h⟩
  | llid =>
    rcases exists_llidRow hi with ⟨id, h⟩ | ⟨k, x, h⟩
    · exact .inl ⟨_, _, .literal hi h⟩
    · exact .inl ⟨_, _, .length hi h⟩
  | did =>
    obtain ⟨k, x, h⟩ := exists_didRow hi
    exact .inl ⟨_, _, .distance hi h⟩
  | hdr =>
    obtain ⟨l, rfl⟩ := exists_hdrRow hi
    exact .inl ⟨_, _, .header l⟩
  | sts => exact .inr (exists_stsRow hi)

/-- Everything a row with an effect on CORE can answer (R252, R253, R284). -/
theorem RowRuns.answers {i : Instr} {b : Bool} {body : State → Res State} (h : RowRuns i b body) {s t : State}
    (ht : exec i s = .next t) :
    (s.fault ≠ .fNone ∧ t = s) ∨ (s.fault = .fNone ∧ s.fin = true ∧ b = false ∧ t = raise .fCmd s) ∨
      (s.fault = .fNone ∧ (s.fin = false ∨ b = true) ∧ t = (body s).settled) := by
  rw [h.exec_eq] at ht
  rcases command_cases b body s with ⟨hf, he⟩ | ⟨hf, hfin, hb, he⟩ | ⟨hf, hfin, he⟩ <;> rw [he] at ht <;> cases ht
  · exact .inl ⟨hf, rfl⟩
  · exact .inr (.inl ⟨hf, hfin, hb, rfl⟩)
  · exact .inr (.inr ⟨hf, hfin, rfl⟩)

theorem settled_writer (r : Res State) : r.settled.writer = r.state.writer := by
  cases r with
  | ok u => rfl
  | stop c u => exact raise_writer c u

/-- Settles O13: a row is admitted or not and then ends, and a ready CORE is idle, resets, refuses or runs. -/
theorem everyCommandCompletesOrFaults : Obligations.EveryCommandCompletesOrFaults := by
  have hexec : ∀ (i : Instr) (s : State), ∃ t, exec i s = .next t := by
    intro i s
    rcases runs_or_status i with ⟨b, body, h⟩ | ⟨f, n, c, rfl⟩
    · rw [h.exec_eq]
      exact command_next b body s
    · exact ⟨_, rfl⟩
  refine ⟨hexec, fun s hready => ?_⟩
  cases hinbox : s.inbox with
  | nil => exact ⟨s, by rw [step, fetch_nil hinbox]⟩
  | cons entry rest =>
    cases entry with
    | rst => exact ⟨_, by rw [step, fetch_rst hinbox]⟩
    | cut w => exact ⟨_, by rw [step, fetch_cut hinbox]⟩
    | word w =>
      have haccept := acceptsNow_of_ready w hready
      cases hw : decode w with
      | instr i =>
        rw [step_run hinbox haccept hw]
        exact hexec i _
      | reject r =>
        rw [step_reject hinbox haccept hw]
        exact refuseWord_next r _

/-- Settles O17: with FIN = 1 admission decides before the command's own rule is looked at. -/
theorem admissionOrder : Obligations.AdmissionOrder := by
  intro s hfault hfin
  have hrefused : ∀ {i body}, RowRuns i false body → exec i s = .next (raise .fCmd s) := fun h => by
    rw [h.exec_eq, command_finished hfault hfin]
  refine ⟨fun b => hrefused (.push b), hrefused .endc, hrefused .ends, hrefused .rderr, ?_, exec_flush hfault⟩
  rw [RowRuns.nop.exec_eq, command_runs hfault (.inr rfl), settle_ok]

/-! ### The id rows and the header field: a write under a code that the state gives (log 8, log 9) -/

/-- States in which an id has the same code: the same free one, or the tables a block has written agree (R30). -/
def State.SameCodes (s s' : State) : Prop :=
  s'.phase = s.phase ∧ s'.encoder.draws = s.encoder.draws ∧
    (s.holdsCodes = true → s'.encoder.tl = s.encoder.tl ∧ s'.encoder.td = s.encoder.td)

theorem State.SameCodes.refl (s : State) : s.SameCodes s := ⟨rfl, rfl, fun _ => ⟨rfl, rfl⟩⟩

theorem State.SameCodes.codes {s s' : State} (h : s.SameCodes s') :
    s'.llCode = s.llCode ∧ s'.dCode = s.dCode ∧ s'.drawn.encoder.draws = s.drawn.encoder.draws := by
  obtain ⟨hphase, hdraws, htables⟩ := h
  have hholds : s'.holdsCodes = s.holdsCodes := by rw [State.holdsCodes, State.holdsCodes, hphase]
  cases hc : s.holdsCodes with
  | true =>
    obtain ⟨htl, htd⟩ := htables hc
    obtain ⟨hll, hd, hdrawn⟩ := codes_held hc
    obtain ⟨hll', hd', hdrawn'⟩ := codes_held (hholds.trans hc)
    exact ⟨funext fun id => by rw [hll, hll', htl], funext fun k => by rw [hd, hd', htd], by rw [hdrawn, hdrawn', hdraws]⟩
  | false =>
    obtain ⟨hll, hd, hdrawn⟩ := codes_free hc
    obtain ⟨hll', hd', hdrawn'⟩ := codes_free (hholds.trans hc)
    refine ⟨funext fun id => by rw [hll, hll', hdraws], funext fun k => by rw [hd, hd', hdraws], ?_⟩
    rw [hdrawn, hdrawn']
    simp [hdraws]

/-- The state with the counter of free codes at `n`. -/
def State.atDraw (s : State) (n : Nat) : State := s.setEncoder (s.encoder.setDraws n)

theorem atDraw_self {s s' : State} (h : s.SameCodes s') : s'.atDraw s.encoder.draws = s' := by
  rw [← h.2.1]
  rfl

theorem drawn_eq_atDraw {s s' : State} (h : s.SameCodes s') : s'.drawn = s'.atDraw s.drawn.encoder.draws := by
  rw [← h.codes.2.2]
  exact drawn_eq s'

/-- A body that writes: what it writes, and the counter of free codes it leaves, depend on the codes alone. -/
def Writing (body : State → Res State) : Prop :=
  ∀ s : State, ∃ n f, Emits f ∧ ∀ s' : State, s.SameCodes s' → body s' = onWriter f (s'.atDraw n)

theorem withinBound_writing {c : State → Code} {f : Code → Writer → Res Writer} (hf : ∀ c, Emits (f c))
    (hc : ∀ {s s' : State}, s.SameCodes s' → c s' = c s) :
    Writing fun s => withinBound (c s).len (onWriter (f (c s))) s.drawn := by
  intro s
  rcases Nat.lt_or_ge 45 (c s).len.toNat with hlen | hlen
  · refine ⟨s.drawn.encoder.draws, _, emits_range, fun s' h => ?_⟩
    dsimp only
    rw [hc h, withinBound_over hlen, drawn_eq_atDraw h]
    rfl
  · refine ⟨s.drawn.encoder.draws, _, hf (c s), fun s' h => ?_⟩
    dsimp only
    rw [hc h, withinBound_le hlen, drawn_eq_atDraw h]

theorem emitLiteralId_writing (id : Nat) : Writing (emitLiteralId id) :=
  withinBound_writing (fun _ => wrWrite_emits _ _) fun h => congrFun h.codes.1 id

theorem emitDistanceId_writing (k x : Nat) : Writing (emitDistanceId k x) :=
  withinBound_writing (fun c => writeCodeExtra_emits c x _) fun h => congrFun h.codes.2.1 k

/-- A refusal that writes nothing. -/
theorem refusal_writing : Writing (.stop .fRange) := by
  refine fun s => ⟨s.encoder.draws, _, emits_range, fun s' h => ?_⟩
  rw [atDraw_self h]
  rfl

theorem emitLengthId_writing (k x : Nat) : Writing (emitLengthId k x) := by
  unfold emitLengthId
  split
  · exact refusal_writing
  · exact withinBound_writing (fun c => writeCodeExtra_emits c x _) fun h => congrFun h.codes.1 _

/-- The header field is written without a code, and no free one is drawn. -/
theorem hdrField_body (l : BitVec 8) :
    ∃ f, Emits f ∧ withinBound l (onWriter (writeField l)) = onWriter f := by
  rcases Nat.lt_or_ge 45 l.toNat with hlen | hlen
  · exact ⟨_, emits_range, funext fun s => withinBound_over hlen⟩
  · exact ⟨_, wrWrite_emits _ _, funext fun s => withinBound_le hlen⟩

theorem hdrField_writing (l : BitVec 8) : Writing (withinBound l (onWriter (writeField l))) := by
  obtain ⟨f, hf, hbody⟩ := hdrField_body l
  refine fun s => ⟨s.encoder.draws, f, hf, fun s' h => ?_⟩
  rw [atDraw_self h, hbody]

theorem Writing.self {body : State → Res State} (h : Writing body) (s : State) :
    ∃ n f, Emits f ∧ body s = onWriter f (s.atDraw n) := by
  obtain ⟨n, f, hf, hbody⟩ := h s
  exact ⟨n, f, hf, hbody s (.refl s)⟩

/-! ### The writer's part of a row (R32, R285) -/

/-- What the body of a row asks of the writer, whatever the writer holds. -/
def WriterPart (body : State → Res State) (s : State) (f : Writer → Res Writer) : Prop :=
  ∀ w, (body (s.setWriter w)).map State.writer = f w

/-- What follows a body and leaves the writer has no part in what it asks. -/
theorem WriterPart.andThen_ok {body : State → Res State} {s : State} {f : Writer → Res Writer} (h : WriterPart body s f)
    {g : State → State} (hg : ∀ u, (g u).writer = u.writer) : WriterPart (fun s => (body s).andThen fun u => .ok (g u)) s f := by
  intro w
  rw [← h w]
  dsimp only
  cases body (s.setWriter w) with
  | ok u => exact congrArg Res.ok (hg u)
  | stop c u => rfl

theorem onWriter_writerPart (f : Writer → Res Writer) {g : State → State} (hg : ∀ s, (g s).writer = s.writer) (s : State) :
    WriterPart (fun s => onWriter f (g s)) s f := by
  intro w
  show ((f (g (s.setWriter w)).writer).map (g (s.setWriter w)).setWriter).map State.writer = f w
  rw [hg, State.setWriter_writer]
  cases f w <;> rfl

theorem Writing.writerPart {body : State → Res State} (h : Writing body) (s : State) :
    ∃ f, Emits f ∧ WriterPart body s f := by
  obtain ⟨n, f, hf, hbody⟩ := h s
  refine ⟨f, hf, fun w => ?_⟩
  rw [hbody (s.setWriter w) ⟨rfl, rfl, fun _ => ⟨rfl, rfl⟩⟩]
  exact onWriter_writerPart f (g := (State.atDraw · n)) (fun _ => rfl) s w

/-- A block's count stops at an illegal symbol or not, and then its codes are built and it is written (R102, R206): either way
what it asks of the writer does not depend on the writer. -/
theorem encBlock_writerPart (s : State) : ∃ f, Emits f ∧ WriterPart encBlock s f := by
  cases hcount : encCount s.matcher.sb s.encoder with
  | ok e =>
    generalize he : encBuild e = e'
    refine ⟨writeBlock e'.tl e'.td s.matcher.sb e'.isLast, writeBlock_emits _ _ _ _, fun w => ?_⟩
    rw [encBlock_of_count (s := s.setWriter w) hcount, he]
    rcases writeBlock_phases (s.setWriter w) e' with ⟨v, hv, hblock⟩ | ⟨c, v, rest, p, -, hv, hblock⟩
    · rw [hblock]; exact hv.symm
    · rw [hblock]; exact hv.symm
  | stop c e =>
    have hc : c = .fRange := by
      rcases Res.andThen_eq_stop.mp hcount with h | ⟨e', -, h⟩
      · exact (countLoop_stop h).1
      · cases h
    subst hc
    refine ⟨_, emits_range, fun w => ?_⟩
    have hstop : encBlock (s.setWriter w) = .stop .fRange (((s.setWriter w).setPhase .count).setEncoder e) := by
      rw [encBlock, State.setWriter_matcher, State.setWriter_encoder, hcount]
      rfl
    rw [hstop]
    rfl

theorem endChunk_writerPart (last : Bool) (s : State) : ∃ f, Emits f ∧ WriterPart (endChunk last) s f := by
  obtain ⟨f, hf, hblock⟩ := encBlock_writerPart (((s.setPhase .matching).setEncoder (s.encoder.setIsLast last)).setMatcher
    (matchChunk (((s.matcher.setSb []).setLa []).setCpos 0)))
  exact ⟨f, hf, hblock.andThen_ok fun _ => rfl⟩

theorem endStream_writerPart (s : State) : ∃ f, Emits f ∧ WriterPart endStream s f := by
  obtain ⟨f, hf, hchunk⟩ := endChunk_writerPart true s
  exact ⟨f, hf, hchunk.andThen_ok fun _ => rfl⟩

theorem flushAll_writerPart (s : State) : WriterPart flushAll s wrFlush :=
  (onWriter_writerPart wrFlush (g := (State.setPhase · .flushing)) (fun _ => rfl) s).andThen_ok fun _ => rfl

/-- Every row asks the same of every writer, and only appends to OUT. -/
theorem RowRuns.writerPart {i : Instr} {b : Bool} {body : State → Res State} (h : RowRuns i b body) (s : State) :
    ∃ f, Sending f ∧ WriterPart body s f := by
  have emits : (∃ f, Emits f ∧ WriterPart body s f) → ∃ f, Sending f ∧ WriterPart body s f :=
    fun ⟨f, hf, hpart⟩ => ⟨f, hf.sending, hpart⟩
  have idle : ∀ r : Res State, (∀ w, body (s.setWriter w) = r.map (State.setWriter · w)) →
      ∃ f, Sending f ∧ WriterPart body s f := by
    intro r hr
    cases r with
    | ok u => exact ⟨_, sending_ok, fun w => by rw [hr]; rfl⟩
    | stop c u => exact ⟨_, sending_stop c, fun w => by rw [hr]; rfl⟩
  cases h with
  | nop => exact idle (.ok s) fun w => rfl
  | rderr => exact idle (.stop .fRead s) fun w => rfl
  | push b =>
    refine idle (pushByte b s) fun w => ?_
    unfold pushByte
    rw [State.setWriter_matcher]
    split <;> rfl
  | @symbol _ sym _ _ =>
    refine idle (pushSymbol sym s) fun w => ?_
    unfold pushSymbol
    rw [State.setWriter_matcher]
    split <;> rfl
  | endc => exact emits (endChunk_writerPart false s)
  | ends => exact emits (endStream_writerPart s)
  | flush => exact ⟨_, wrFlush_sending, flushAll_writerPart s⟩
  | literal _ _ => exact emits ((emitLiteralId_writing _).writerPart s)
  | length _ _ => exact emits ((emitLengthId_writing _ _).writerPart s)
  | distance _ _ => exact emits ((emitDistanceId_writing _ _).writerPart s)
  | header l => exact emits ((hdrField_writing l).writerPart s)

theorem WriterPart.state {body : State → Res State} {s : State} {f : Writer → Res Writer} (h : WriterPart body s f)
    (w : Writer) : (body (s.setWriter w)).settled.writer = (f w).state := by
  rw [settled_writer, ← h w]
  cases body (s.setWriter w) <;> rfl

/-- Settles O20: a row that is not accepted leaves the writer, and any other asks it only to append. -/
theorem outIsAppendOnly : Obligations.OutIsAppendOnly := by
  intro i s t ht
  have same : t.writer = s.writer → ∃ events, t.writer.out = s.writer.out ++ events := fun h => ⟨[], by rw [h]; simp⟩
  rcases runs_or_status i with ⟨b, body, h⟩ | ⟨f, n, c, rfl⟩
  · rcases h.answers ht with ⟨-, rfl⟩ | ⟨-, -, -, rfl⟩ | ⟨-, -, rfl⟩
    · exact same rfl
    · exact same (raise_writer _ _)
    · obtain ⟨f, hf, hpart⟩ := h.writerPart s
      have hout := hf.out_prefix s.writer
      rw [← hpart.state s.writer] at hout
      obtain ⟨events, he⟩ := hout
      exact ⟨events, he.symm⟩
  · cases ht
    exact same rfl

theorem bytesOf_prefix {a b : List SinkEvent} (h : a <+: b) : bytesOf a <+: bytesOf b := by
  obtain ⟨c, rfl⟩ := h
  rw [bytesOf_append]
  exact List.prefix_append _ _

/-- Under a sink that never fails an operation delivers all it delivers under another (R292). -/
theorem Sending.out_prefix_of_trusts {f : Writer → Res Writer} (hf : Sending f) {w w' : Writer} (h : w.Trusts w')
    (hdraws : (f w').state.draws = w'.draws) : (f w).state.out <+: (f w').state.out := by
  rcases hf.follows w w' h hdraws with ⟨v, v', hv, hv', -, hout, -⟩ | ⟨c, v, hv, hout⟩
  · rw [hv, hv', Res.state_ok, Res.state_ok]
    exact hout ▸ List.prefix_refl _
  · rw [hv]
    exact hout

/-- Settles O21: the row asks the same of both sinks, and the one that never fails takes at least as much. -/
theorem failedOutputIsAnInitialPart : Obligations.FailedOutputIsAnInitialPart := by
  intro i s t t' n ht ht' hdraws
  refine bytesOf_prefix ?_
  rcases runs_or_status i with ⟨b, body, h⟩ | ⟨f, m, c, rfl⟩
  · have htrusts : s.writer.Trusts (s.writer.setAnswers (List.replicate n .ok)) := ⟨rfl, rfl, n, rfl⟩
    have hdraws' : t'.writer.draws = (s.writer.setAnswers (List.replicate n .ok)).draws := hdraws
    generalize s.writer.setAnswers (List.replicate n .ok) = w' at ht' htrusts hdraws'
    rw [h.exec_eq] at ht ht'
    rcases command_cases b body s with ⟨hfault, he⟩ | ⟨hfault, hfin, rfl, he⟩ | ⟨hfault, hfin, he⟩ <;> rw [he] at ht
    · rw [command_faulted (s := s.setWriter w') hfault] at ht'
      cases ht
      cases ht'
      exact htrusts.2.1 ▸ List.prefix_refl _
    · rw [command_finished (s := s.setWriter w') hfault hfin] at ht'
      cases ht
      cases ht'
      rw [raise_writer, raise_writer]
      exact htrusts.2.1 ▸ List.prefix_refl _
    · rw [command_runs (s := s.setWriter w') hfault hfin] at ht'
      cases ht
      cases ht'
      obtain ⟨f, hf, hpart⟩ := h.writerPart s
      rw [hpart.state w'] at hdraws' ⊢
      rw [show (body s).settled.writer = (f s.writer).state from hpart.state s.writer]
      exact hf.out_prefix_of_trusts htrusts hdraws'
  · cases ht
    cases ht'
    exact List.prefix_refl _

end Sys2Proof.Machine

namespace Sys2Proof.Machine

/-! ### What ends a row (R284) -/

theorem settled_stop (c : FaultCode) (u : State) : (Res.stop c u).settled = raise c u := rfl

/-- Raising a fault, FAULT and PHASE apart, leaves every field. -/
theorem settled_fields (r : Res State) :
    r.settled.matcher = r.state.matcher ∧ r.settled.encoder = r.state.encoder ∧ r.settled.fin = r.state.fin ∧
      r.settled.inbox = r.state.inbox ∧ r.settled.samples = r.state.samples ∧ r.settled.earlier = r.state.earlier ∧
      r.settled.cuts = r.state.cuts := by
  cases r with
  | ok u => exact ⟨rfl, rfl, rfl, rfl, rfl, rfl, rfl⟩
  | stop c u =>
    exact ⟨raise_matcher c u, raise_encoder c u, raise_fin c u, raise_inbox c u, raise_samples c u, raise_earlier c u,
      raise_cuts c u⟩

/-- What no row touches before it ends: FAULT, and the model's own inputs and records. -/
def State.SameRecords (s u : State) : Prop :=
  u.fault = s.fault ∧ u.inbox = s.inbox ∧ u.samples = s.samples ∧ u.earlier = s.earlier ∧ u.cuts = s.cuts

theorem State.SameRecords.refl (s : State) : s.SameRecords s := ⟨rfl, rfl, rfl, rfl, rfl⟩

theorem onWriter_records (f : Writer → Res Writer) (s : State) :
    s.SameRecords (onWriter f s).state ∧ (onWriter f s).state.fin = s.fin := by
  rw [onWriter_state]
  exact ⟨.refl s, rfl⟩

theorem Writing.records {body : State → Res State} (h : Writing body) (s : State) :
    s.SameRecords (body s).state ∧ (body s).state.fin = s.fin := by
  obtain ⟨n, f, -, hbody⟩ := h.self s
  rw [hbody]
  exact onWriter_records f (s.atDraw n)

theorem endChunk_records (last : Bool) (s : State) :
    s.SameRecords (endChunk last s).state ∧ (endChunk last s).state.fin = s.fin := by
  obtain ⟨hfault, hfin, hinbox, hsamples, hearlier, hcuts, -⟩ := endChunk_state last s
  exact ⟨⟨hfault, hinbox, hsamples, hearlier, hcuts⟩, hfin⟩

/-- `ENDS` sets FIN where it completes, and only there (R34). -/
theorem endStream_records (s : State) : s.SameRecords (endStream s).state ∧
    ((∃ u, endStream s = .ok u ∧ u.fin = true) ∨ ∃ c u, endStream s = .stop c u ∧ u.fin = s.fin) := by
  obtain ⟨hrecords, hfin⟩ := endChunk_records true s
  unfold endStream
  cases h : endChunk true s with
  | ok u =>
    rw [h] at hrecords
    exact ⟨hrecords, .inl ⟨_, rfl, rfl⟩⟩
  | stop c u =>
    rw [h] at hrecords hfin
    exact ⟨hrecords, .inr ⟨c, u, rfl, hfin⟩⟩

theorem flushAll_records (s : State) : s.SameRecords (flushAll s).state ∧ (flushAll s).state.fin = s.fin ∧
    (flushAll s).state.matcher = s.matcher ∧ (flushAll s).state.encoder = s.encoder := by
  unfold flushAll onWriter
  cases wrFlush (s.setPhase .flushing).writer <;> exact ⟨.refl s, rfl, rfl, rfl⟩

theorem pushByte_records (b : BitVec 8) (s : State) : s.SameRecords (pushByte b s).state ∧
    (pushByte b s).state.fin = s.fin := by
  unfold pushByte
  split <;> exact ⟨.refl s, rfl⟩

theorem pushSymbol_records (sym : Symbol) (s : State) : s.SameRecords (pushSymbol sym s).state ∧
    (pushSymbol sym s).state.fin = s.fin := by
  unfold pushSymbol
  split <;> exact ⟨.refl s, rfl⟩

theorem RowRuns.records {i : Instr} {b : Bool} {body : State → Res State} (h : RowRuns i b body) (s : State) :
    s.SameRecords (body s).state ∧ (i ≠ .ends → (body s).state.fin = s.fin) := by
  have weaken : s.SameRecords (body s).state ∧ (body s).state.fin = s.fin →
      s.SameRecords (body s).state ∧ (i ≠ .ends → (body s).state.fin = s.fin) := fun h => ⟨h.1, fun _ => h.2⟩
  cases h with
  | nop => exact ⟨.refl s, fun _ => rfl⟩
  | rderr => exact ⟨.refl s, fun _ => rfl⟩
  | push b => exact weaken (pushByte_records b s)
  | symbol _ _ => exact weaken (pushSymbol_records _ s)
  | endc => exact weaken (endChunk_records false s)
  | ends => exact ⟨(endStream_records s).1, fun h => absurd rfl h⟩
  | flush =>
    obtain ⟨hrecords, hfin, -⟩ := flushAll_records s
    exact weaken ⟨hrecords, hfin⟩
  | literal _ _ => exact weaken ((emitLiteralId_writing _).records s)
  | length _ _ => exact weaken ((emitLengthId_writing _ _).records s)
  | distance _ _ => exact weaken ((emitDistanceId_writing _ _).records s)
  | header l => exact weaken ((hdrField_writing l).records s)

/-- The inbox and the records of a row's next state; the samples are STATUS's alone. -/
theorem exec_records {i : Instr} {s t : State} (h : exec i s = .next t) :
    t.inbox = s.inbox ∧ t.earlier = s.earlier ∧ t.cuts = s.cuts ∧ (i.format ≠ .sts → t.samples = s.samples) := by
  rcases runs_or_status i with ⟨b, body, hrow⟩ | ⟨f, n, c, rfl⟩
  · rcases hrow.answers h with ⟨-, rfl⟩ | ⟨-, -, -, rfl⟩ | ⟨-, -, rfl⟩
    · exact ⟨rfl, rfl, rfl, fun _ => rfl⟩
    · exact ⟨raise_inbox _ _, raise_earlier _ _, raise_cuts _ _, fun _ => raise_samples _ _⟩
    · obtain ⟨⟨-, hinbox, hsamples, hearlier, hcuts⟩, -⟩ := hrow.records s
      obtain ⟨-, -, -, h1, h2, h3, h4⟩ := settled_fields (body s)
      exact ⟨h1.trans hinbox, h3.trans hearlier, h4.trans hcuts, fun _ => h2.trans hsamples⟩
  · cases h
    exact ⟨rfl, rfl, rfl, fun h => absurd rfl h⟩

/-- FIN is left by every row but ENDS (R34). -/
theorem exec_fin {i : Instr} {s t : State} (hi : i ≠ .ends) (h : exec i s = .next t) : t.fin = s.fin := by
  rcases runs_or_status i with ⟨b, body, hrow⟩ | ⟨f, n, c, rfl⟩
  · rcases hrow.answers h with ⟨-, rfl⟩ | ⟨-, -, -, rfl⟩ | ⟨-, -, rfl⟩
    · rfl
    · exact raise_fin _ _
    · obtain ⟨-, -, hfin, -⟩ := settled_fields (body s)
      exact hfin.trans ((hrow.records s).2 hi)
  · cases h
    rfl

/-- Settles O18: ENDS is refused when FIN = 1, and otherwise sets FIN where it completes. -/
theorem onlyEndsSetsFin : Obligations.OnlyEndsSetsFin := by
  intro i s t ht
  by_cases hi : i = .ends
  · subst hi
    rcases RowRuns.ends.answers ht with ⟨-, rfl⟩ | ⟨-, -, -, rfl⟩ | ⟨hfault, hfin, rfl⟩
    · exact .inl rfl
    · exact .inl (raise_fin _ _)
    · obtain ⟨⟨hkept, -⟩, ⟨u, hu, hset⟩ | ⟨c, u, hu, hsame⟩⟩ := endStream_records s <;> rw [hu] at hkept ⊢
      · exact .inr ⟨rfl, hfin.resolve_right Bool.noConfusion, hset, hkept.trans hfault⟩
      · exact .inl ((raise_fin c u).trans hsame)
  · exact .inl (exec_fin hi ht)

/-- A faulted CORE executes no row: only a sample can be recorded (R252, R284). -/
theorem exec_faulted {i : Instr} {s t : State} (hfault : s.fault ≠ .fNone) (h : exec i s = .next t) :
    ∃ l, t = s.setSamples l := by
  rcases runs_or_status i with ⟨b, body, hrow⟩ | ⟨f, n, c, rfl⟩
  · rcases hrow.answers h with ⟨-, rfl⟩ | ⟨hnone, -⟩ | ⟨hnone, -⟩
    · exact ⟨t.samples, rfl⟩
    · exact absurd hnone hfault
    · exact absurd hnone hfault
  · cases h
    exact ⟨_, rfl⟩

/-- Everything a step can answer that takes no reset (R90, R250). -/
theorem step_cases {s t : State} (h : step s = .next t) :
    (s.inbox = [] ∧ t = s) ∨ (∃ rest, s.inbox = .rst :: rest ∧ t = applyReset (s.setInbox rest)) ∨
    (∃ w rest, s.inbox = .cut w :: rest ∧ t = abandon (s.setInbox rest) (wholeWord w (s.setInbox rest))) ∨
    (∃ w rest r, s.inbox = .word w :: rest ∧ decode w = .reject r ∧ refuseWord r (s.setInbox rest) = .next t) ∨
    ∃ w rest i, s.inbox = .word w :: rest ∧ decode w = .instr i ∧ exec i (s.setInbox rest) = .next t := by
  cases hinbox : s.inbox with
  | nil =>
    rw [step, fetch_nil hinbox] at h
    cases h
    exact .inl ⟨rfl, rfl⟩
  | cons entry rest =>
    cases entry with
    | rst =>
      rw [step, fetch_rst hinbox] at h
      cases h
      exact .inr (.inl ⟨rest, rfl, rfl⟩)
    | cut w =>
      rw [step, fetch_cut hinbox] at h
      cases h
      exact .inr (.inr (.inl ⟨w, rest, rfl, rfl⟩))
    | word w =>
      cases haccept : acceptsNow w s with
      | false =>
        have haccept' : acceptsNow w (s.setInbox rest) = false := haccept
        have hbusy : fetch s = .busy := by simp [fetch, hinbox, fetchWord, haccept']
        rw [step, hbusy] at h
        cases h
      | true =>
        cases hw : decode w with
        | instr i =>
          rw [step_run hinbox haccept hw] at h
          exact .inr (.inr (.inr (.inr ⟨w, rest, i, rfl, hw, h⟩)))
        | reject r =>
          rw [step_reject hinbox haccept hw] at h
          exact .inr (.inr (.inr (.inl ⟨w, rest, r, rfl, hw, h⟩)))

/-- Settles O16: a faulted CORE refuses nothing and executes nothing. -/
theorem onlyResetLeavesAFault : Obligations.OnlyResetLeavesAFault := by
  intro s t hfault hrst hcut h
  rcases step_cases h with ⟨-, rfl⟩ | ⟨rest, hinbox, -⟩ | ⟨w, rest, hinbox, -⟩ | ⟨w, rest, r, -, -, ht⟩ |
    ⟨w, rest, i, -, -, ht⟩
  · exact ⟨rfl, rfl, rfl, rfl, rfl, rfl, rfl, rfl⟩
  · exact absurd (by rw [hinbox]; rfl) hrst
  · exact absurd (by rw [hinbox]; rfl) (hcut w)
  · rw [refuseWord_faulted (s := s.setInbox rest) hfault] at ht
    cases ht
    exact ⟨rfl, rfl, rfl, rfl, rfl, rfl, rfl, rfl⟩
  · obtain ⟨l, rfl⟩ := exec_faulted (s := s.setInbox rest) hfault ht
    exact ⟨rfl, rfl, rfl, rfl, rfl, rfl, rfl, rfl⟩

/-! ### Frames of the commands (R38, R61) -/

theorem settled_map {g : State → State} (hg : ∀ c u, g (raise c u) = raise c (g u)) (r : Res State) :
    (r.map g).settled = g r.settled := by
  cases r with
  | ok u => rfl
  | stop c u => exact (hg c u).symm

theorem setEncoder_raise (x : Encoder) (c : FaultCode) (u : State) :
    (raise c u).setEncoder x = raise c (u.setEncoder x) := by
  unfold raise
  rw [State.setEncoder_fault]
  split <;> rfl

/-- A command whose body does not depend on the encoder it starts from does not either. -/
theorem command_scratch {b : Bool} {body : State → Res State} {s t : State} {e : Encoder}
    (hbody : ∀ x, (body (s.setEncoder e)).map (State.setEncoder · x) = (body s).map (State.setEncoder · x))
    (h : command b body s = .next t) : ∃ u, command b body (s.setEncoder e) = .next u ∧ u.setEncoder t.encoder = t := by
  rcases command_cases b body s with ⟨hfault, he⟩ | ⟨hfault, hfin, rfl, he⟩ | ⟨hfault, hfin, he⟩ <;> rw [he] at h <;> cases h
  · exact ⟨_, command_faulted (s := s.setEncoder e) hfault, rfl⟩
  · refine ⟨_, command_finished (s := s.setEncoder e) hfault hfin, ?_⟩
    rw [setEncoder_raise, raise_encoder]
    rfl
  · refine ⟨_, command_runs (s := s.setEncoder e) hfault hfin, ?_⟩
    have hx := congrArg Res.settled (hbody (body s).settled.encoder)
    rw [settled_map (setEncoder_raise _), settled_map (setEncoder_raise _)] at hx
    exact hx

theorem onWriter_setEncoder (f : Writer → Res Writer) (s : State) (e : Encoder) :
    onWriter f (s.setEncoder e) = (onWriter f s).map (State.setEncoder · e) := by
  unfold onWriter
  rw [State.setEncoder_writer]
  cases f s.writer <;> rfl

/-- What follows a body and is not about the encoder keeps this. -/
theorem andThen_ok_map {r r' : Res State} {g k : State → State} (hg : ∀ u, k (g u) = g (k u)) (h : r.map k = r'.map k) :
    (r.andThen fun u => .ok (g u)).map k = (r'.andThen fun u => .ok (g u)).map k := by
  have hmove : ∀ r : Res State, (r.andThen fun u => .ok (g u)).map k = (r.map k).andThen fun u => .ok (g u) := by
    intro r
    cases r with
    | ok u => exact congrArg Res.ok (hg u)
    | stop c u => rfl
  rw [hmove, hmove, h]

/-- No command reads an element of the encoder that it has not written (R30, R38). -/
theorem RowRuns.scratch {i : Instr} {b : Bool} {body : State → Res State} (h : RowRuns i b body) (hi : i.format = .cmd)
    (s : State) (e x : Encoder) : (body (s.setEncoder e)).map (State.setEncoder · x) = (body s).map (State.setEncoder · x) := by
  cases h with
  | nop => rfl
  | rderr => rfl
  | push b =>
    unfold pushByte
    rw [State.setEncoder_matcher]
    split <;> rfl
  | endc => exact endChunk_scratch false s e x
  | ends => exact andThen_ok_map (fun _ => rfl) (endChunk_scratch true s e x)
  | flush =>
    refine andThen_ok_map (fun _ => rfl) ?_
    rw [show (s.setEncoder e).setPhase .flushing = (s.setPhase .flushing).setEncoder e from rfl, onWriter_setEncoder]
    cases onWriter wrFlush (s.setPhase .flushing) <;> rfl
  | symbol hf _ => cases hf.symm.trans hi
  | literal hf _ => cases hf.symm.trans hi
  | length hf _ => cases hf.symm.trans hi
  | distance hf _ => cases hf.symm.trans hi
  | header l => cases hi

/-- `RDERR` raises a fault or is discarded (R259). -/
theorem exec_rderr_cases {s t : State} (h : exec .rderr s = .next t) : t = s ∨ ∃ c, t = raise c s := by
  rcases RowRuns.rderr.answers h with ⟨-, rfl⟩ | ⟨-, -, -, rfl⟩ | ⟨-, -, rfl⟩
  · exact .inl rfl
  · exact .inr ⟨_, rfl⟩
  · exact .inr ⟨_, rfl⟩

/-- `PUSH` is discarded, raises a fault, or takes its byte (R255). -/
theorem exec_push_cases {b : BitVec 8} {s t : State} (h : exec (.push b) s = .next t) :
    (∃ cb, t = s.setMatcher (s.matcher.setCb cb)) ∨ (s.fault = .fNone ∧ ∃ c, c ≠ .fNone ∧ t = raise c s) := by
  rcases (RowRuns.push b).answers h with ⟨-, rfl⟩ | ⟨hfault, -, -, rfl⟩ | ⟨hfault, -, rfl⟩
  · exact .inl ⟨t.matcher.cb, rfl⟩
  · exact .inr ⟨hfault, _, FaultCode.noConfusion, rfl⟩
  · unfold pushByte
    split
    · exact .inr ⟨hfault, _, FaultCode.noConfusion, rfl⟩
    · exact .inl ⟨_, rfl⟩

/-- `FLUSH` leaves the matcher and the encoder (R258). -/
theorem exec_flush_frame {s t : State} (h : exec .flush s = .next t) : t.matcher = s.matcher ∧ t.encoder = s.encoder := by
  rcases RowRuns.flush.answers h with ⟨-, rfl⟩ | ⟨-, -, hb, -⟩ | ⟨-, -, rfl⟩
  · exact ⟨rfl, rfl⟩
  · cases hb
  · obtain ⟨-, -, hmatcher, hencoder⟩ := flushAll_records s
    obtain ⟨h1, h2, -⟩ := settled_fields (flushAll s)
    exact ⟨h1.trans hmatcher, h2.trans hencoder⟩

theorem exec_nop_eq {s t : State} (h : exec .nop s = .next t) : t = s := by
  rw [nopDoesNothing.2 s] at h
  cases h
  rfl

/-- A command that ends no chunk and flushes nothing leaves the encoder and the writer. -/
theorem exec_quiet {i : Instr} {s t : State} (hi : i.format = .cmd) (hendc : i ≠ .endc) (hends : i ≠ .ends)
    (hflush : i ≠ .flush) (h : exec i s = .next t) : t.encoder = s.encoder ∧ t.writer = s.writer := by
  cases i with
  | nop => rw [exec_nop_eq h]; exact ⟨rfl, rfl⟩
  | push b =>
    rcases exec_push_cases h with ⟨cb, rfl⟩ | ⟨-, c, -, rfl⟩
    · exact ⟨rfl, rfl⟩
    · exact ⟨raise_encoder c s, raise_writer c s⟩
  | rderr =>
    rcases exec_rderr_cases h with rfl | ⟨c, rfl⟩
    · exact ⟨rfl, rfl⟩
    · exact ⟨raise_encoder c s, raise_writer c s⟩
  | flush => exact absurd rfl hflush
  | endc => exact absurd rfl hendc
  | ends => exact absurd rfl hends
  | _ => cases hi

/-- Settles O38: the inbox and the records are kept by every row, the rest command by command. -/
theorem framesOfTheCommands : Obligations.FramesOfTheCommands := by
  intro i s t hi ht
  obtain ⟨hinbox, hearlier, hcuts, hsamples⟩ := exec_records ht
  refine ⟨hinbox, hsamples (by rw [hi]; decide), hearlier, hcuts, fun hends => exec_fin hends ht, fun hendc hends => ?_,
    fun hendc hends hflush => (exec_quiet hi hendc hends hflush ht).2, ?_, ?_, fun e => ?_⟩
  · by_cases hflush : i = .flush
    · subst hflush
      exact (exec_flush_frame ht).2
    · exact (exec_quiet hi hendc hends hflush ht).1
  · rintro (rfl | rfl | rfl)
    · rw [exec_nop_eq ht]
    · rcases exec_rderr_cases ht with rfl | ⟨c, rfl⟩
      · rfl
      · exact raise_matcher c s
    · exact (exec_flush_frame ht).1
  · rintro b rfl
    rcases exec_push_cases ht with ⟨cb, rfl⟩ | ⟨hfault, c, hc, rfl⟩
    · exact ⟨rfl, rfl, rfl, rfl, (if_pos rfl).symm⟩
    · rw [raise_of_none hfault]
      refine ⟨rfl, rfl, rfl, rfl, (if_neg ?_).symm⟩
      rw [hfault]
      exact hc
  · rcases runs_or_status i with ⟨b, body, h⟩ | ⟨f, n, c, rfl⟩
    · rw [h.exec_eq] at ht ⊢
      exact command_scratch (h.scratch hi s e) ht
    · cases hi

/-! ### Frames of the other rows (R30, R61, log 7 to log 10) -/

/-- The state with other code tables. -/
def State.setTables (s : State) (tl td : List Code) : State := s.setEncoder ((s.encoder.setTl tl).setTd td)

theorem setTables_raise (tl td : List Code) (c : FaultCode) (u : State) :
    (raise c u).setTables tl td = raise c (u.setTables tl td) := by
  unfold State.setTables
  rw [raise_encoder, setEncoder_raise]

/-- A row whose body does not read the tables does not either. -/
theorem command_tables {body : State → Res State} {s t : State} {tl td : List Code}
    (hbody : body (s.setTables tl td) = (body s).map (State.setTables · tl td)) (h : command true body s = .next t) :
    command true body (s.setTables tl td) = .next (t.setTables tl td) := by
  rcases command_cases true body s with ⟨hfault, he⟩ | ⟨-, -, hb, -⟩ | ⟨hfault, hfin, he⟩
  · rw [he] at h
    cases h
    exact command_faulted (s := s.setTables tl td) hfault
  · cases hb
  · rw [he] at h
    cases h
    rw [command_runs (s := s.setTables tl td) hfault hfin, hbody, settle, settled_map (setTables_raise tl td)]

theorem pushSymbol_tables (sym : Symbol) (s : State) (tl td : List Code) :
    pushSymbol sym (s.setTables tl td) = (pushSymbol sym s).map (State.setTables · tl td) := by
  unfold pushSymbol
  rw [State.setTables, State.setEncoder_matcher]
  split <;> rfl

/-- Where no block has written the tables a write does not read them (R30, U8). -/
theorem Writing.tables {body : State → Res State} (h : Writing body) {s : State} (hs : s.holdsCodes = false)
    (tl td : List Code) : body (s.setTables tl td) = (body s).map (State.setTables · tl td) := by
  obtain ⟨n, f, -, hbody⟩ := h s
  have hsame : s.SameCodes (s.setTables tl td) := ⟨rfl, rfl, fun hc => by rw [hs] at hc; cases hc⟩
  rw [hbody s (.refl s), hbody _ hsame]
  show (f s.writer).map _ = ((f s.writer).map _).map _
  cases f s.writer <;> rfl

/-- A write that ends leaves the counter of free codes and the writer, and perhaps the fault's entry. -/
theorem Writing.answers {i : Instr} {body : State → Res State} (hrow : RowRuns i true body) (h : Writing body) {s t : State}
    (ht : exec i s = .next t) : ∃ n w, t = (s.atDraw n).setWriter w ∨
      (s.fault = .fNone ∧ ∃ c, (c = .fWrite ∨ c = .fRange) ∧ t = raise c ((s.atDraw n).setWriter w)) := by
  rcases hrow.answers ht with ⟨-, rfl⟩ | ⟨-, -, hb, -⟩ | ⟨hfault, -, rfl⟩
  · exact ⟨t.encoder.draws, t.writer, .inl rfl⟩
  · cases hb
  · obtain ⟨n, f, hf, hbody⟩ := h.self s
    rw [hbody]
    cases hrun : f s.writer with
    | ok w => exact ⟨n, w, .inl (by rw [onWriter_ok (s := s.atDraw n) hrun]; rfl)⟩
    | stop c w => exact ⟨n, w, .inr ⟨hfault, c, hf.stop hrun, by rw [onWriter_stop (s := s.atDraw n) hrun]; rfl⟩⟩

/-- The rows of the formats LLID, DID and HDR write. -/
theorem writing_or_symbol {i : Instr} (hcmd : i.format ≠ .cmd) (hsts : i.format ≠ .sts) :
    (∃ sym, i.format = .sym ∧ RowRuns i true (pushSymbol sym)) ∨ (i.format ≠ .sym ∧ ∃ body, RowRuns i true body ∧ Writing body) := by
  cases hi : i.format with
  | cmd => exact absurd hi hcmd
  | sts => exact absurd hi hsts
  | sym =>
    obtain ⟨sym, h⟩ := exists_rowSymbol hi
    exact .inl ⟨sym, rfl, .symbol hi h⟩
  | llid =>
    rcases exists_llidRow hi with ⟨id, h⟩ | ⟨k, x, h⟩
    · exact .inr ⟨Format.noConfusion, _, .literal hi h, emitLiteralId_writing id⟩
    · exact .inr ⟨Format.noConfusion, _, .length hi h, emitLengthId_writing k x⟩
  | did =>
    obtain ⟨k, x, h⟩ := exists_didRow hi
    exact .inr ⟨Format.noConfusion, _, .distance hi h, emitDistanceId_writing k x⟩
  | hdr =>
    obtain ⟨l, rfl⟩ := exists_hdrRow hi
    exact .inr ⟨Format.noConfusion, _, .header l, hdrField_writing l⟩

/-- The header field takes no code, so the encoder is left as it is (R96). -/
theorem exec_hdrField_encoder {l : BitVec 8} {s t : State} (h : exec (.hdrField l) s = .next t) : t.encoder = s.encoder := by
  rcases (RowRuns.header l).answers h with ⟨-, rfl⟩ | ⟨-, -, hb, -⟩ | ⟨-, -, rfl⟩
  · rfl
  · cases hb
  · obtain ⟨f, -, hbody⟩ := hdrField_body l
    obtain ⟨-, hencoder, -⟩ := settled_fields (onWriter f s)
    rw [hbody, hencoder, onWriter_state]
    rfl

/-- A symbol row is discarded, raises a fault, or adds to SB (log 7). -/
theorem pushSymbol_answers {i : Instr} {sym : Symbol} (hrow : RowRuns i true (pushSymbol sym)) {s t : State}
    (ht : exec i s = .next t) : (∃ sb, t = s.setMatcher (s.matcher.setSb sb)) ∨ (s.fault = .fNone ∧ t = raise .fRange s) := by
  rcases hrow.answers ht with ⟨-, rfl⟩ | ⟨-, -, hb, -⟩ | ⟨hfault, -, rfl⟩
  · exact .inl ⟨t.matcher.sb, rfl⟩
  · cases hb
  · unfold pushSymbol
    split
    · exact .inl ⟨_, rfl⟩
    · exact .inr ⟨hfault, rfl⟩

/-- Settles O39: a symbol row reaches SB alone, a row that writes reaches the writer and the counter of free codes, and
STATUS the samples. -/
theorem framesOfTheOtherRows : Obligations.FramesOfTheOtherRows := by
  intro i s t hcmd ht
  obtain ⟨-, -, -, hsamples⟩ := exec_records ht
  by_cases hsts : i.format = .sts
  · obtain ⟨f, n, c, rfl⟩ := exists_stsRow hsts
    cases ht
    exact ⟨rfl, rfl, rfl, fun _ _ => rfl, fun _ _ _ => rfl, rfl, rfl, rfl, rfl, fun _ => rfl, fun _ => rfl, hsamples,
      fun _ => rfl, fun _ => rfl, rfl, rfl⟩
  rcases writing_or_symbol hcmd hsts with ⟨sym, hi, hrow⟩ | ⟨hi, body, hrow, hwriting⟩
  · have htables : ∀ tl td, exec i (s.setTables tl td) = .next (t.setTables tl td) := fun tl td => by
      rw [hrow.exec_eq] at ht ⊢
      exact command_tables (pushSymbol_tables sym s tl td) ht
    rcases pushSymbol_answers hrow ht with ⟨sb, rfl⟩ | ⟨hfault, rfl⟩
    · exact ⟨rfl, rfl, rfl, fun _ _ => rfl, fun _ => htables, rfl, rfl, rfl, rfl, fun _ => rfl, fun h => absurd hi h, hsamples,
        fun h => absurd h hsts, fun _ => rfl, rfl, rfl⟩
    · rw [raise_of_none hfault] at htables hsamples ⊢
      refine ⟨rfl, rfl, rfl, fun _ _ => rfl, fun _ => htables, rfl, rfl, rfl, rfl, fun _ => rfl, fun _ => rfl, hsamples,
        fun h => absurd h hsts, fun h => ?_, rfl, rfl⟩
      exact absurd (h.trans hfault) FaultCode.noConfusion
  · have htables : s.holdsCodes = false → ∀ tl td, exec i (s.setTables tl td) = .next (t.setTables tl td) := fun hs tl td => by
      rw [hrow.exec_eq] at ht ⊢
      exact command_tables (hwriting.tables hs tl td) ht
    have hencoder : i.format ≠ .llid → i.format ≠ .did → t.encoder = s.encoder := by
      intro hll hd
      have hhdr : i.format = .hdr := by
        revert hll hd hi hcmd hsts
        cases i.format <;> simp
      obtain ⟨l, rfl⟩ := exists_hdrRow hhdr
      exact exec_hdrField_encoder ht
    have hwriter : ¬ (i.format = .sym ∨ i.format = .sts) := fun h => h.elim hi hsts
    obtain ⟨n, w, rfl | ⟨hfault, c, hc, rfl⟩⟩ := Writing.answers hrow hwriting ht
    · exact ⟨rfl, rfl, rfl, hencoder, htables, rfl, rfl, rfl, rfl, fun h => absurd h hwriter, fun _ => rfl, hsamples,
        fun h => absurd h hsts, fun _ => rfl, rfl, rfl⟩
    · rw [raise_of_none (s := (s.atDraw n).setWriter w) hfault] at htables hsamples hencoder ⊢
      refine ⟨rfl, rfl, rfl, hencoder, htables, rfl, rfl, rfl, rfl, fun h => absurd h hwriter, fun _ => rfl, hsamples,
        fun h => absurd h hsts, fun h => ?_, rfl, rfl⟩
      rw [hfault] at h
      rcases hc with rfl | rfl <;> cases h

end Sys2Proof.Machine

namespace Sys2Proof.Machine

/-! ### The matcher at the end of a chunk (R136, R256) -/

/-- The matcher once it has consumed the chunk of `m`, with the symbols in `m'.sb` not emitted yet. -/
structure Matcher.ChunkDone (m m' : Matcher) : Prop where
  w : m'.w = winAppend m.w m.cb
  la : m'.la = []
  cb : m'.cb = m.cb
  cpos : m'.cpos = m.cb.length
  sb : m'.sb <:+ chunkSymbols m.w m.cb

theorem matchChunk_done {m : Matcher} (hw : m.w.length ≤ 32768) :
    m.ChunkDone (matchChunk (((m.setSb []).setLa []).setCpos 0)) ∧
      (matchChunk (((m.setSb []).setLa []).setCpos 0)).sb = chunkSymbols m.w m.cb := by
  obtain ⟨hla, hcpos, hsb, hwindow⟩ := matchChunk_spec (m := ((m.setSb []).setLa []).setCpos 0) rfl rfl
  have hsb := hsb.trans (chunkSymbols_eq m.w m.cb).symm
  exact ⟨⟨hwindow hw, hla, matchChunk_cb _, hcpos, hsb ▸ List.suffix_refl _⟩, hsb⟩

/-- Emission takes symbols off the front of SB. -/
theorem Matcher.ChunkDone.emitted {m m' : Matcher} (h : m.ChunkDone m') {rest : List Symbol} (hrest : rest <:+ m'.sb) :
    m.ChunkDone (m'.setSb rest) :=
  ⟨h.w, h.la, h.cb, h.cpos, hrest.trans h.sb⟩

theorem Matcher.eq_of_fields {a b : Matcher} (hw : a.w = b.w) (hla : a.la = b.la) (hcb : a.cb = b.cb)
    (hcpos : a.cpos = b.cpos) (hsb : a.sb = b.sb) : a = b := by
  cases a
  cases b
  congr

/-- The symbols of a chunk are legal, one per byte at most and the sentinel (R26, R102). -/
theorem chunkSymbols_bounds {w : List Byte} (hw : w.length ≤ 32768) (cb : List Byte) :
    (chunkSymbols w cb).length ≤ cb.length + 1 ∧ ∀ sym ∈ chunkSymbols w cb, sym.legal = true := by
  obtain ⟨hlen, hall⟩ := parse_symbols w cb hw
  rw [chunkSymbols_eq]
  refine ⟨?_, fun sym hsym => ?_⟩
  · rw [List.length_append, List.length_singleton]
    exact Nat.succ_le_succ hlen
  · rcases List.mem_append.mp hsym with h | h
    · exact (hall sym h).1
    · rw [List.mem_singleton.mp h]
      rfl

/-! ### The encoder's tables (R28 to R30, R60) -/

/-- A build adds at most one record per leaf and one per merge (R60). -/
theorem huffBuild_node_le (freqs : List (BitVec 32)) (alphabet : Nat) :
    (huffBuild freqs alphabet).node.length ≤ 2 * freqs.length + 1 := by
  obtain ⟨hnode, hpq⟩ := addLeaves_sizes freqs 0 { node := [], pq := [] }
  have hcount := List.length_filter_le (fun f : BitVec 32 => decide (f ≠ 0)) freqs
  have hleaves : (leaves freqs).node.length ≤ freqs.length + 1 ∧ (leaves freqs).pq.length ≤ freqs.length + 1 := by
    rw [List.length_nil, Nat.zero_add] at hnode hpq
    unfold leaves
    dsimp only
    split
    · rw [add_node, add_pq_length, List.length_append, List.length_singleton]
      omega
    · omega
  obtain ⟨-, hmerged⟩ := mergeAll_sizes alphabet (leaves freqs).pq.length 0 (leaves freqs) (by omega) (leaves_queued freqs)
  have hbuilt : (huffBuild freqs alphabet).node.length + 1 = (leaves freqs).node.length + (leaves freqs).pq.length := hmerged
  omega

theorem encBuild_shape (e : Encoder) : (encBuild e).fl = e.fl ∧ (encBuild e).fd = e.fd ∧
    (encBuild e).node = (huffBuild e.fd nD).node := ⟨rfl, rfl, rfl⟩

theorem builtFor_inv (sb : List Symbol) (e : Encoder) : (builtFor sb e).Inv := by
  obtain ⟨hfl, hfd, hnode⟩ := encBuild_shape ((e.setFl (freqLL sb e.isLast)).setFd (freqD sb))
  obtain ⟨htl, htd, -⟩ := builtFor_tables sb e
  refine ⟨?_, ?_, ?_, ?_, ?_⟩
  · rw [builtFor, hfl]
    exact freqLL_length _ _
  · rw [builtFor, hfd]
    exact freqD_length _
  · have hle := huffBuild_node_le (freqD sb) nD
    rw [freqD_length, nD] at hle
    rw [builtFor, hnode]
    exact Nat.le_trans hle (by decide)
  · rw [htl, codesOf_length, nLL]
  · rw [htd, codesOf_length, nD]

/-! ### ENDC and ENDS from a state between commands (R256, R257) -/

/-- The end of a chunk is its block appended: it completes with the matcher emptied but for the window and the scratch free,
or stops with the chunk kept. -/
theorem endChunk_cases {s : State} (hinv : s.matcher.Inv) (last : Bool) :
    (∃ w t, pushBits (blockBits (chunkSymbols s.matcher.w s.matcher.cb) last) s.writer = .ok w ∧ endChunk last s = .ok t ∧
      t.writer = w ∧ t.phase = .idle ∧ t.encoder.Inv ∧
      t.matcher = { w := winAppend s.matcher.w s.matcher.cb, la := [], cb := [], cpos := 0, sb := [] }) ∨
    ∃ c w t, pushBits (blockBits (chunkSymbols s.matcher.w s.matcher.cb) last) s.writer = .stop c w ∧
      endChunk last s = .stop c t ∧ t.writer = w ∧ t.encoder.Inv ∧ t.encoder.isLast = last ∧
      s.matcher.ChunkDone t.matcher := by
  obtain ⟨hw, -, hcb, -⟩ := hinv
  obtain ⟨hlen, hlegal⟩ := chunkSymbols_bounds hw s.matcher.cb
  have hmax := chunkMax_lt
  have hwrite := writeBlock_builtFor hlegal (by omega) (s.encoder.setIsLast last)
  have hshape := builtFor_inv (chunkSymbols s.matcher.w s.matcher.cb) (s.encoder.setIsLast last)
  have hlast : (builtFor (chunkSymbols s.matcher.w s.matcher.cb) (s.encoder.setIsLast last)).isLast = last :=
    (builtFor_tables _ _).2.2
  generalize he : builtFor (chunkSymbols s.matcher.w s.matcher.cb) (s.encoder.setIsLast last) = e at hwrite hshape hlast
  obtain ⟨hdone, hsb⟩ := matchChunk_done hw
  rw [Encoder.setIsLast_isLast] at hwrite
  unfold endChunk
  dsimp only
  generalize matchChunk (((s.matcher.setSb []).setLa []).setCpos 0) = m at hdone hsb ⊢
  rw [← hsb] at hlegal he hwrite ⊢
  rcases encBlock_eq (s := ((s.setPhase .matching).setEncoder (s.encoder.setIsLast last)).setMatcher m) hlegal he with
    ⟨w, hrun, hblock⟩ | ⟨c, w, rest, p, hrest, hrun, hblock⟩
  · rw [State.setMatcher_matcher, hwrite] at hrun
    refine .inl ⟨w, _, hrun, by rw [hblock]; rfl, rfl, rfl, ?_, ?_⟩
    · exact freeScratch_shape _ _
    · have hw' := hdone.w
      have hla' := hdone.la
      generalize winAppend s.matcher.w s.matcher.cb = window at hw' ⊢
      exact Matcher.eq_of_fields hw' hla' rfl rfl rfl
  · rw [State.setMatcher_matcher, hwrite] at hrun
    exact .inr ⟨c, w, _, hrun, by rw [hblock]; rfl, rfl, hshape, hlast, hdone.emitted hrest⟩

/-- A chunk whose block the sink takes ends completed (R256). -/
theorem endChunk_completes {s : State} (hinv : s.Inv) {last : Bool}
    (htakes : s.writer.sinkTakes (s.writer.bytesDue (blockBits (chunkSymbols s.matcher.w s.matcher.cb) last))) :
    ∃ t, endChunk last s = .ok t ∧ s.SameRecords t ∧ t.fin = s.fin ∧ t.phase = .idle ∧
      s.writer.Appended t.writer (blockBits (chunkSymbols s.matcher.w s.matcher.cb) last) ∧
      t.matcher = { w := winAppend s.matcher.w s.matcher.cb, la := [], cb := [], cpos := 0, sb := [] } := by
  obtain ⟨hmatcher, -, hpend, -⟩ := hinv
  obtain ⟨w, hw, happ⟩ := pushBits_appends _ s.writer hpend htakes
  obtain ⟨hrecords, hfin⟩ := endChunk_records last s
  rcases endChunk_cases hmatcher last with ⟨v, t, hv, ht, htw, htphase, -, htm⟩ | ⟨c, v, t, hv, -⟩
  · cases hw.symm.trans hv
    rw [ht] at hrecords hfin
    exact ⟨t, ht, hrecords, hfin, htphase, htw ▸ happ, htm⟩
  · cases hw.symm.trans hv

theorem exec_endc {s : State} (hfault : s.fault = .fNone) (hfin : s.fin = false) :
    exec .endc s = settle (endChunk false s) := by
  rw [RowRuns.endc.exec_eq, command_runs hfault (.inl hfin)]

theorem exec_ends {s : State} (hfault : s.fault = .fNone) (hfin : s.fin = false) :
    exec .ends s = settle (endStream s) := by
  rw [RowRuns.ends.exec_eq, command_runs hfault (.inl hfin)]

/-- Settles O27: the block is appended and the command completes. -/
theorem endcEncodesTheChunk : Obligations.EndcEncodesTheChunk := by
  intro s hinv hfault hfin sb bits htakes
  obtain ⟨t, ht, ⟨hf, hinbox, hsamples, hearlier, hcuts⟩, hfin', hphase, happ, hm⟩ := endChunk_completes hinv htakes
  rw [lastBytes_eq_winAppend]
  refine ⟨t, ?_, hm, happ, hf.trans hfault, hfin'.trans hfin, hphase, hinbox, hsamples, hearlier, hcuts⟩
  rw [exec_endc hfault hfin, ht, settle_ok]

/-- Settles O28: as ENDC, and then FIN is set. -/
theorem endsEncodesTheLastChunk : Obligations.EndsEncodesTheLastChunk := by
  intro s hinv hfault hfin sb bits htakes
  obtain ⟨t, ht, ⟨hf, hinbox, hsamples, hearlier, hcuts⟩, -, hphase, happ, hm⟩ := endChunk_completes hinv htakes
  rw [lastBytes_eq_winAppend]
  refine ⟨t.setFin true, ?_, hm, happ, hf.trans hfault, rfl, hphase, hinbox, hsamples, hearlier, hcuts⟩
  rw [exec_ends hfault hfin, endStream, ht, Res.andThen_ok, settle_ok]

/-- Settles O29: the block is appended up to the byte that fails, and the chunk is kept. -/
theorem chunkEndStopsWhereTheSinkFails : Obligations.ChunkEndStopsWhereTheSinkFails := by
  intro s last j hinv hfault hfin sb bits hj hfails
  obtain ⟨hmatcher, -, hpend, -⟩ := hinv
  obtain ⟨w, hw, hstopped⟩ := pushBits_stops hpend hj hfails
  obtain ⟨⟨hf, -⟩, hfin'⟩ := endChunk_records last s
  rcases endChunk_cases hmatcher last with ⟨v, t, hv, -⟩ | ⟨c, v, t, hv, ht, htw, -, hlast, hdone⟩
  · cases hw.symm.trans hv
  · cases hw.symm.trans hv
    rw [ht] at hf hfin'
    have hrun : exec (if last then .ends else .endc) s = .next (raise .fWrite t) := by
      cases last with
      | false => rw [if_neg (by decide), exec_endc hfault hfin, ht, settle_stop]
      | true => rw [if_pos rfl, exec_ends hfault hfin, endStream, ht, Res.andThen_stop, settle_stop]
    rw [raise_of_none (s := t) (hf.trans hfault)] at hrun
    rw [lastBytes_eq_winAppend]
    exact ⟨_, hrun, rfl, rfl, hfin'.trans hfin, hdone.cb, hdone.w, hlast, htw ▸ hstopped⟩

end Sys2Proof.Machine

namespace Sys2Proof.Machine

/-! ### Which faults a row raises (R281 to R287) -/

/-- The rows that can be failed by the sink (R285; log 8, log 9). -/
def MayWrite (i : Instr) : Prop :=
  i ≠ .nop ∧ i ≠ .rderr ∧ (∀ b, i ≠ .push b) ∧ i.format ≠ .sym ∧ i.format ≠ .sts

/-- The rows with an operand that can be refused, or a block that a unit could refuse (R287; log 8, log 9, log 12). -/
def MayRefuse (i : Instr) : Prop := i ≠ .nop ∧ i ≠ .flush ∧ i ≠ .rderr ∧ i.format ≠ .sts

theorem ne_of_format_ne {i j : Instr} (h : i.format ≠ j.format) : i ≠ j := fun e => h (congrArg Instr.format e)

theorem mayRefuse_of_unit {i : Instr} (hcmd : i.format ≠ .cmd) (hsts : i.format ≠ .sts) : MayRefuse i :=
  ⟨ne_of_format_ne hcmd, ne_of_format_ne hcmd, ne_of_format_ne hcmd, hsts⟩

/-- The rows presented to the code writer can be failed and refused (log 8, log 9). -/
theorem may_of_writing {i : Instr} (hi : i.format = .llid ∨ i.format = .did ∨ i.format = .hdr) : MayWrite i ∧ MayRefuse i := by
  have hcmd : i.format ≠ .cmd := by rcases hi with h | h | h <;> rw [h] <;> decide
  have hsym : i.format ≠ .sym := by rcases hi with h | h | h <;> rw [h] <;> decide
  have hsts : i.format ≠ .sts := by rcases hi with h | h | h <;> rw [h] <;> decide
  exact ⟨⟨ne_of_format_ne hcmd, ne_of_format_ne hcmd, fun _ => ne_of_format_ne hcmd, hsym, hsts⟩,
    mayRefuse_of_unit hcmd hsts⟩

/-- The ends of a chunk can be failed by the sink, and a unit could refuse an operand of their block (R285, R287). -/
theorem may_of_chunk {i : Instr} (hi : i = .endc ∨ i = .ends) : MayWrite i ∧ MayRefuse i := by
  rcases hi with rfl | rfl <;> simp [MayWrite, MayRefuse, Instr.format]

theorem WriterPart.stop {body : State → Res State} {s u : State} {f : Writer → Res Writer} {c : FaultCode}
    (h : WriterPart body s f) (hs : body s = .stop c u) : f s.writer = .stop c u.writer := by
  have hpart := h s.writer
  rw [show body (s.setWriter s.writer) = .stop c u from hs] at hpart
  exact hpart.symm

/-- The faults of a body that only appends bits. -/
theorem stop_of_emits {body : State → Res State} {s u : State} {c : FaultCode}
    (h : ∃ f, Emits f ∧ WriterPart body s f) (hs : body s = .stop c u) : c = .fWrite ∨ c = .fRange := by
  obtain ⟨f, hf, hpart⟩ := h
  exact hf.stop (hpart.stop hs)

theorem pushByte_stop {b : BitVec 8} {s u : State} {c : FaultCode} (h : pushByte b s = .stop c u) : c = .fRange := by
  unfold pushByte at h
  split at h <;> cases h
  rfl

theorem pushSymbol_stop {sym : Symbol} {s u : State} {c : FaultCode} (h : pushSymbol sym s = .stop c u) : c = .fRange := by
  unfold pushSymbol at h
  split at h <;> cases h
  rfl

/-- Every fault a row's own rule raises (R283, R285 to R287). -/
theorem RowRuns.stop {i : Instr} {b : Bool} {body : State → Res State} (h : RowRuns i b body) {s u : State}
    {c : FaultCode} (hs : body s = .stop c u) :
    (c = .fRead ∧ i = .rderr) ∨ (c = .fWrite ∧ MayWrite i) ∨ (c = .fRange ∧ MayRefuse i) := by
  have emits : MayWrite i ∧ MayRefuse i → (∃ f, Emits f ∧ WriterPart body s f) →
      (c = .fRead ∧ i = .rderr) ∨ (c = .fWrite ∧ MayWrite i) ∨ (c = .fRange ∧ MayRefuse i) := by
    intro hi hemits
    rcases stop_of_emits hemits hs with hc | hc
    · exact .inr (.inl ⟨hc, hi.1⟩)
    · exact .inr (.inr ⟨hc, hi.2⟩)
  cases h with
  | nop => cases hs
  | rderr =>
    cases hs
    exact .inl ⟨rfl, rfl⟩
  | push b => exact .inr (.inr ⟨pushByte_stop hs, by simp [MayRefuse, Instr.format]⟩)
  | symbol hi _ => exact .inr (.inr ⟨pushSymbol_stop hs, mayRefuse_of_unit (by rw [hi]; decide) (by rw [hi]; decide)⟩)
  | flush => exact .inr (.inl ⟨wrFlush_stop ((flushAll_writerPart s).stop hs), by simp [MayWrite, Instr.format]⟩)
  | endc => exact emits (may_of_chunk (.inl rfl)) (endChunk_writerPart false s)
  | ends => exact emits (may_of_chunk (.inr rfl)) (endStream_writerPart s)
  | literal hi _ => exact emits (may_of_writing (.inl hi)) ((emitLiteralId_writing _).writerPart s)
  | length hi _ => exact emits (may_of_writing (.inl hi)) ((emitLengthId_writing _ _).writerPart s)
  | distance hi _ => exact emits (may_of_writing (.inr (.inl hi))) ((emitDistanceId_writing _ _).writerPart s)
  | header l => exact emits (may_of_writing (.inr (.inr rfl))) ((hdrField_writing l).writerPart s)

/-- Where a row's fault comes from: admission, or the row's own rule (R253, R284). -/
theorem exec_fault {i : Instr} {s t : State} (hfault : s.fault = .fNone) (h : exec i s = .next t) :
    t.fault = .fNone ∨ (t.fault = .fCmd ∧ s.fin = true ∧ ∃ body, RowRuns i false body) ∨
      ∃ b body c u, RowRuns i b body ∧ body s = .stop c u ∧ t.fault = c := by
  rcases runs_or_status i with ⟨b, body, hrow⟩ | ⟨f, n, c, rfl⟩
  · rcases hrow.answers h with ⟨-, rfl⟩ | ⟨-, hfin, rfl, rfl⟩ | ⟨-, -, rfl⟩
    · exact .inl hfault
    · exact .inr (.inl ⟨by rw [raise_of_none hfault]; rfl, hfin, body, hrow⟩)
    · obtain ⟨⟨hkept, -⟩, -⟩ := hrow.records s
      cases hs : body s with
      | ok u =>
        rw [hs] at hkept
        exact .inl (hkept.trans hfault)
      | stop c u =>
        rw [hs] at hkept
        exact .inr (.inr ⟨b, body, c, u, hrow, hs, by rw [settled_stop, raise_of_none (s := u) (hkept.trans hfault)]; rfl⟩)
  · cases h
    exact .inl hfault

/-- The rows that FIN = 1 refuses (R253). -/
theorem RowRuns.refused {i : Instr} {body : State → Res State} (h : RowRuns i false body) :
    (∃ b, i = .push b) ∨ i = .endc ∨ i = .ends ∨ i = .rderr := by
  cases h with
  | push b => exact .inl ⟨b, rfl⟩
  | endc => exact .inr (.inl rfl)
  | ends => exact .inr (.inr (.inl rfl))
  | rderr => exact .inr (.inr (.inr rfl))

/-- Between commands the end of a chunk is failed by the sink alone: no unit refuses an operand of CORE (R287). -/
theorem endChunk_stop {last : Bool} {s u : State} {c : FaultCode} (hinv : s.Inv) (h : endChunk last s = .stop c u) :
    c = .fWrite := by
  obtain ⟨hmatcher, -⟩ := hinv
  rcases endChunk_cases hmatcher last with ⟨w, t, -, ht, -⟩ | ⟨c', w, t, hw, ht, -⟩
  · cases h.symm.trans ht
  · cases h.symm.trans ht
    exact pushBits_stop hw

theorem endStream_stop {s u : State} {c : FaultCode} (h : endStream s = .stop c u) : endChunk true s = .stop c u := by
  rcases Res.andThen_eq_stop.mp h with h | ⟨v, -, h⟩
  · exact h
  · cases h

/-- Settles O19: F_CMD is admission's, and every other fault is of the row's own rule. -/
theorem onlyTheNamedFaultsAreRaised : Obligations.OnlyTheNamedFaultsAreRaised := by
  intro i s t hfault ht
  rcases exec_fault hfault ht with h | ⟨h, hfin, body, hrow⟩ | ⟨b, body, c, u, hrow, hs, h⟩
  · rw [h]
    exact ⟨FaultCode.noConfusion, FaultCode.noConfusion, FaultCode.noConfusion, FaultCode.noConfusion,
      FaultCode.noConfusion, fun _ _ => .inl rfl⟩
  · rw [h]
    exact ⟨FaultCode.noConfusion, FaultCode.noConfusion, fun _ => ⟨hfin, hrow.refused⟩, FaultCode.noConfusion,
      FaultCode.noConfusion, fun _ _ => .inr (.inl rfl)⟩
  · have hchunk : s.Inv → i = .endc ∨ i = .ends → c = .fNone ∨ c = .fCmd ∨ c = .fWrite := by
      rintro hinv (rfl | rfl)
      · cases hrow
        · exact .inr (.inr (endChunk_stop hinv hs))
        all_goals contradiction
      · cases hrow
        · exact .inr (.inr (endChunk_stop hinv (endStream_stop hs)))
        all_goals contradiction
    rw [h]
    rcases hrow.stop hs with ⟨rfl, hi⟩ | ⟨rfl, hi⟩ | ⟨rfl, hi⟩
    · exact ⟨FaultCode.noConfusion, fun _ => hi, FaultCode.noConfusion, FaultCode.noConfusion, FaultCode.noConfusion, hchunk⟩
    · exact ⟨FaultCode.noConfusion, FaultCode.noConfusion, FaultCode.noConfusion, fun _ => hi, FaultCode.noConfusion, hchunk⟩
    · exact ⟨FaultCode.noConfusion, FaultCode.noConfusion, FaultCode.noConfusion, FaultCode.noConfusion, fun _ => hi, hchunk⟩

/-! ### The invariant (R22 to R31, R37, R284) -/

/-- The invariant but for FAULT and PHASE. -/
def State.Bounds (s : State) : Prop := s.matcher.Inv ∧ s.encoder.Inv ∧ s.writer.pend.length ≤ 7

theorem State.Inv.bounds {s : State} (h : s.Inv) : s.Bounds := by
  obtain ⟨hmatcher, hencoder, hpend, -⟩ := h
  exact ⟨hmatcher, hencoder, hpend⟩

theorem State.Inv.idle {s : State} (h : s.Inv) (hfault : s.fault = .fNone) : s.phase = .idle := by
  obtain ⟨-, -, -, hphase, hhalt, -⟩ := h
  exact hphase.resolve_right fun hh => hhalt.mp hh hfault

/-- A row that completes without fault is back in IDLE (R22). -/
theorem State.Bounds.inv_idle {u : State} (h : u.Bounds) (hphase : u.phase = .idle) (hfault : u.fault = .fNone) : u.Inv := by
  obtain ⟨hmatcher, hencoder, hpend⟩ := h
  refine ⟨hmatcher, hencoder, hpend, .inl hphase, iff_of_false ?_ fun h => h hfault, ?_⟩
  · rw [hphase]
    exact Phase.noConfusion
  · rw [hfault]
    exact FaultCode.noConfusion

/-- A fault that is raised halts (R284). -/
theorem State.Bounds.inv_raise {u : State} (h : u.Bounds) (hfault : u.fault = .fNone) {c : FaultCode} (hnone : c ≠ .fNone)
    (hopen : c ≠ .fOpen) : (raise c u).Inv := by
  obtain ⟨hmatcher, hencoder, hpend⟩ := h
  rw [raise_of_none hfault]
  exact ⟨hmatcher, hencoder, hpend, .inr rfl, iff_of_true rfl hnone, hopen⟩

theorem Matcher.ChunkDone.inv {m m' : Matcher} (hm : m.Inv) (h : m.ChunkDone m') : m'.Inv := by
  obtain ⟨hw, -, hcb, -⟩ := hm
  obtain ⟨hlen, hlegal⟩ := chunkSymbols_bounds hw m.cb
  refine ⟨?_, h.la, ?_, ?_, ?_, fun sym hsym => hlegal sym (h.sb.subset hsym)⟩
  · rw [h.w, winAppend_length]
    exact Nat.min_le_right _ _
  · rw [h.cb]
    exact hcb
  · exact Nat.le_of_eq (h.cpos.trans (congrArg List.length h.cb).symm)
  · have := h.sb.length_le
    omega

/-- The end of a chunk keeps the bounds, completed or stopped. -/
theorem endChunk_bounds {s : State} (h : s.Bounds) (last : Bool) :
    (endChunk last s).state.Bounds ∧ ∀ u, endChunk last s = .ok u → u.phase = .idle := by
  obtain ⟨hmatcher, -, hpend⟩ := h
  obtain ⟨hpend', -, -⟩ := pushBits_state (blockBits (chunkSymbols s.matcher.w s.matcher.cb) last) s.writer hpend
  rcases endChunk_cases hmatcher last with ⟨w, t, hw, ht, htw, hphase, hencoder, htm⟩ | ⟨c, w, t, hw, ht, htw, hencoder, -, hdone⟩
  · rw [hw] at hpend'
    rw [ht]
    refine ⟨⟨?_, hencoder, htw ▸ hpend'⟩, fun u hu => by cases hu; exact hphase⟩
    rw [Res.state_ok, htm]
    refine ⟨?_, rfl, Nat.zero_le _, Nat.le_refl 0, Nat.zero_le _, fun sym h => absurd h List.not_mem_nil⟩
    rw [winAppend_length]
    exact Nat.min_le_right _ _
  · rw [hw] at hpend'
    rw [ht]
    exact ⟨⟨hdone.inv hmatcher, hencoder, htw ▸ hpend'⟩, fun u hu => by cases hu⟩

theorem endStream_bounds {s : State} (h : s.Bounds) :
    (endStream s).state.Bounds ∧ ∀ u, endStream s = .ok u → u.phase = .idle := by
  obtain ⟨hbounds, hphase⟩ := endChunk_bounds h true
  unfold endStream
  cases hrun : endChunk true s with
  | ok v =>
    rw [hrun] at hbounds
    exact ⟨hbounds, fun u hu => by cases hu; exact hphase v hrun⟩
  | stop c v =>
    rw [hrun] at hbounds
    exact ⟨hbounds, fun u hu => by cases hu⟩

theorem flushAll_bounds {s : State} (h : s.Bounds) :
    (flushAll s).state.Bounds ∧ ∀ u, flushAll s = .ok u → u.phase = .idle := by
  obtain ⟨hmatcher, hencoder, -⟩ := h
  have hpend : (wrFlush s.writer).state.pend.length ≤ 7 := by
    rw [wrFlush_pend]
    exact Nat.zero_le _
  unfold flushAll
  cases hrun : wrFlush s.writer with
  | ok w =>
    rw [hrun] at hpend
    rw [onWriter_ok (s := s.setPhase .flushing) hrun]
    exact ⟨⟨hmatcher, hencoder, hpend⟩, fun u hu => by cases hu; rfl⟩
  | stop c w =>
    rw [hrun] at hpend
    rw [onWriter_stop (s := s.setPhase .flushing) hrun]
    exact ⟨⟨hmatcher, hencoder, hpend⟩, fun u hu => by cases hu⟩

theorem pushByte_bounds {s : State} (h : s.Bounds) (hphase : s.phase = .idle) (b : BitVec 8) :
    (pushByte b s).state.Bounds ∧ ∀ u, pushByte b s = .ok u → u.phase = .idle := by
  unfold pushByte
  split
  · exact ⟨h, fun u hu => by cases hu⟩
  · obtain ⟨⟨hw, hla, hcb, hcpos, hsb⟩, hencoder, hpend⟩ := h
    have hlen : (s.matcher.cb ++ [b]).length = s.matcher.cb.length + 1 := List.length_append
    refine ⟨⟨⟨hw, hla, ?_, ?_, hsb⟩, hencoder, hpend⟩, fun u hu => by cases hu; exact hphase⟩
    · show (s.matcher.cb ++ [b]).length ≤ _
      omega
    · show s.matcher.cpos ≤ (s.matcher.cb ++ [b]).length
      omega

theorem pushSymbol_bounds {s : State} (h : s.Bounds) (hphase : s.phase = .idle) (sym : Symbol) :
    (pushSymbol sym s).state.Bounds ∧ ∀ u, pushSymbol sym s = .ok u → u.phase = .idle := by
  unfold pushSymbol
  split
  · rename_i hroom
    obtain ⟨⟨hw, hla, hcb, hcpos, hsb, hlegal⟩, hencoder, hpend⟩ := h
    refine ⟨⟨⟨hw, hla, hcb, hcpos, ?_, ?_⟩, hencoder, hpend⟩, fun u hu => by cases hu; exact hphase⟩
    · have hlen : (s.matcher.sb ++ [sym]).length = s.matcher.sb.length + 1 := List.length_append
      show (s.matcher.sb ++ [sym]).length ≤ _
      omega
    · intro x hx
      rcases List.mem_append.mp hx with hx | hx
      · exact hlegal x hx
      · rw [List.mem_singleton.mp hx]
        exact hroom.1
  · exact ⟨h, fun u hu => by cases hu⟩

theorem Writing.bounds {body : State → Res State} (hwriting : Writing body) {s : State} (h : s.Bounds)
    (hphase : s.phase = .idle) : (body s).state.Bounds ∧ ∀ u, body s = .ok u → u.phase = .idle := by
  obtain ⟨hmatcher, hencoder, hpend⟩ := h
  obtain ⟨n, f, hf, hbody⟩ := hwriting.self s
  have hpend' := hf.pend_le hpend
  rw [hbody]
  cases hrun : f s.writer with
  | ok w =>
    rw [hrun] at hpend'
    rw [onWriter_ok (s := s.atDraw n) hrun]
    exact ⟨⟨hmatcher, hencoder, hpend'⟩, fun u hu => by cases hu; exact hphase⟩
  | stop c w =>
    rw [hrun] at hpend'
    rw [onWriter_stop (s := s.atDraw n) hrun]
    exact ⟨⟨hmatcher, hencoder, hpend'⟩, fun u hu => by cases hu⟩

/-- Every row's own rule keeps the bounds, and where it completes CORE is in IDLE. -/
theorem RowRuns.bounds {i : Instr} {b : Bool} {body : State → Res State} (hrow : RowRuns i b body) {s : State}
    (h : s.Bounds) (hphase : s.phase = .idle) :
    (body s).state.Bounds ∧ ∀ u, body s = .ok u → u.phase = .idle := by
  cases hrow with
  | nop => exact ⟨h, fun u hu => by cases hu; exact hphase⟩
  | rderr => exact ⟨h, fun u hu => by cases hu⟩
  | push b => exact pushByte_bounds h hphase b
  | symbol _ _ => exact pushSymbol_bounds h hphase _
  | endc => exact endChunk_bounds h false
  | ends => exact endStream_bounds h
  | flush => exact flushAll_bounds h
  | literal _ _ => exact (emitLiteralId_writing _).bounds h hphase
  | length _ _ => exact (emitLengthId_writing _ _).bounds h hphase
  | distance _ _ => exact (emitDistanceId_writing _ _).bounds h hphase
  | header l => exact (hdrField_writing l).bounds h hphase

/-- Every row keeps the invariant. -/
theorem exec_inv {i : Instr} {s t : State} (h : s.Inv) (ht : exec i s = .next t) : t.Inv := by
  rcases runs_or_status i with ⟨b, body, hrow⟩ | ⟨f, n, c, rfl⟩
  · rcases hrow.answers ht with ⟨-, rfl⟩ | ⟨hfault, -, -, rfl⟩ | ⟨hfault, -, rfl⟩
    · exact h
    · exact h.bounds.inv_raise hfault FaultCode.noConfusion FaultCode.noConfusion
    · obtain ⟨hbounds, hphase⟩ := hrow.bounds h.bounds (h.idle hfault)
      obtain ⟨⟨hkept, -⟩, -⟩ := hrow.records s
      cases hs : body s with
      | ok u =>
        rw [hs] at hbounds hkept
        exact State.Bounds.inv_idle hbounds (hphase u hs) (hkept.trans hfault)
      | stop c u =>
        rw [hs] at hbounds hkept
        refine State.Bounds.inv_raise hbounds (hkept.trans hfault) ?_ ?_ <;>
          rcases hrow.stop hs with ⟨rfl, -⟩ | ⟨rfl, -⟩ | ⟨rfl, -⟩ <;> exact FaultCode.noConfusion
  · cases ht
    exact h

/-- Everything a rejected word can leave (R101, R102). -/
theorem refuseWord_answers {r : Reject} {s t : State} (h : refuseWord r s = .next t) :
    t = s ∨ (s.fault = .fNone ∧ ∃ c, (c = .fCmd ∨ c = .fRange) ∧ t = raise c s) := by
  rcases refuseWord_cases r s with ⟨-, he⟩ | ⟨c, -, hc, he⟩ <;> rw [he] at h
  · cases h
    exact .inl rfl
  · rcases unitOp_cases (fun s => .stop c s) s with ⟨-, hu⟩ | ⟨hfault, hu⟩ <;> rw [hu] at h <;> cases h
    · exact .inl rfl
    · exact .inr ⟨hfault, c, hc, rfl⟩

/-- Settles O12: a reset meets the invariant from any state, a refusal takes a fault, and every row keeps it. -/
theorem everyStepKeepsTheInvariant : Obligations.EveryStepKeepsTheInvariant := by
  intro s t hinv h
  rcases step_cases h with ⟨-, rfl⟩ | ⟨rest, -, rfl⟩ | ⟨w, rest, -, rfl⟩ | ⟨w, rest, r, -, -, ht⟩ | ⟨w, rest, i, -, -, ht⟩
  · exact hinv
  · exact applyReset_inv _
  · exact applyReset_inv _
  · have hinv' : (s.setInbox rest).Inv := hinv
    rcases refuseWord_answers ht with rfl | ⟨hfault, c, hc, rfl⟩
    · exact hinv'
    · refine hinv'.bounds.inv_raise hfault ?_ ?_ <;> rcases hc with rfl | rfl <;> exact FaultCode.noConfusion
  · exact exec_inv (s := s.setInbox rest) hinv ht

/-! ### Reset during a command (R311, R318) -/

/-- What the whole of a word leaves: nothing where it is not accepted. -/
theorem wholeWord_cases (w : PortWord) (s : State) : wholeWord w s = s ∨
    (∃ i, decode w = .instr i ∧ exec i s = .next (wholeWord w s)) ∨
    ∃ r, decode w = .reject r ∧ refuseWord r s = .next (wholeWord w s) := by
  unfold wholeWord fetchWord
  cases acceptsNow w s with
  | false => exact .inl rfl
  | true =>
    cases decode w with
    | instr i =>
      obtain ⟨t, ht⟩ := everyCommandCompletesOrFaults.1 i s
      exact .inr (.inl ⟨i, rfl, by simp [ht, nextOr]⟩)
    | reject r =>
      obtain ⟨t, ht⟩ := refuseWord_next r s
      exact .inr (.inr ⟨r, rfl, by simp [ht, nextOr]⟩)

theorem refuseWord_frame {r : Reject} {s t : State} (h : refuseWord r s = .next t) :
    t.inbox = s.inbox ∧ t.earlier = s.earlier ∧ t.writer = s.writer := by
  rcases refuseWord_answers h with rfl | ⟨-, c, -, rfl⟩
  · exact ⟨rfl, rfl, rfl⟩
  · exact ⟨raise_inbox c s, raise_earlier c s, raise_writer c s⟩

theorem wholeWord_records (w : PortWord) (s : State) :
    (wholeWord w s).inbox = s.inbox ∧ (wholeWord w s).earlier = s.earlier := by
  rcases wholeWord_cases w s with h | ⟨i, -, h⟩ | ⟨r, -, h⟩
  · rw [h]
    exact ⟨rfl, rfl⟩
  · obtain ⟨hinbox, hearlier, -⟩ := exec_records h
    exact ⟨hinbox, hearlier⟩
  · obtain ⟨hinbox, hearlier, -⟩ := refuseWord_frame h
    exact ⟨hinbox, hearlier⟩

/-- The first events of a list that goes on from another are a first part of what was added. -/
theorem delivered_prefix {out whole : List SinkEvent} (h : ∃ events, whole = out ++ events) (n : Nat) :
    ∃ later, whole = out ++ ((whole.drop out.length).take n ++ later) := by
  obtain ⟨events, rfl⟩ := h
  rw [List.drop_left]
  exact ⟨events.drop n, by rw [List.take_append_drop]⟩

/-- Settles O59: the point of the abandonment is a number of the word's events, all of them from the row it decodes to. -/
theorem resetDuringACommandAbandonsIt : Obligations.ResetDuringACommandAbandonsIt := by
  intro s w rest hinbox
  obtain ⟨n, hn, hearlier, hanswers, -, hin, -, hmatcher, hlast, hpend, hout, hfault, hfin, hphase⟩ :=
    abandon_eq (s.setInbox rest) (wholeWord w (s.setInbox rest))
  obtain ⟨hinbox', hearlier'⟩ := wholeWord_records w (s.setInbox rest)
  have hcases := wholeWord_cases w (s.setInbox rest)
  refine ⟨_, ((wholeWord w (s.setInbox rest)).writer.out.drop s.writer.out.length).take n,
    by rw [step, fetch_cut hinbox], ?_⟩
  generalize abandon (s.setInbox rest) (wholeWord w (s.setInbox rest)) = t at *
  generalize wholeWord w (s.setInbox rest) = whole at *
  rw [hmatcher, hlast, hpend, hout, hfault, hfin, hphase, status_eq_zero hfin hpend hfault, hin, hinbox', hearlier,
    hearlier', hanswers]
  refine ⟨rfl, rfl, rfl, rfl, rfl, rfl, rfl, rfl, rfl, rfl, rfl, rfl, rfl, rfl, ?_, fun i u hi hu => ?_, fun ⟨r, hr⟩ => ?_⟩
  · rw [List.length_take]
    exact congrArg s.writer.answers.drop (Nat.min_eq_left hn).symm
  · obtain ⟨events, hevents⟩ := outIsAppendOnly i _ u hu
    rcases hcases with rfl | ⟨i', hi', hwhole⟩ | ⟨r, hr, -⟩
    · refine ⟨events, ?_⟩
      rw [hevents, State.setInbox_writer, List.drop_length, List.take_nil, List.nil_append]
    · cases hi.symm.trans hi'
      cases hu.symm.trans hwhole
      exact delivered_prefix ⟨events, hevents⟩ n
    · cases hi.symm.trans hr
  · have hwriter : whole.writer = s.writer := by
      rcases hcases with rfl | ⟨i, hi, -⟩ | ⟨r', -, hwhole⟩
      · rfl
      · cases hi.symm.trans hr
      · exact (refuseWord_frame hwhole).2.2
    rw [hwriter, List.drop_length, List.take_nil]

end Sys2Proof.Machine
